-- ==== Sys2Proof/Word.lean ====
section
/-!
DEFINITION. The word types of the block: bytes, 512-bit wide values, 32-bit bus words and command words,
16-bit host-port addresses. Every width is the spec's (00_scope R8; 20_memory R60; 30_encoding R90).
-/

namespace Sys2Proof

/-- One byte of the message memory or of a wide value's byte view (10_state R40; 00_scope R11). -/
abbrev Byte := BitVec 8

/-- A wide value: an unsigned integer in `[0, 2^512)` (00_scope R11; 10_state R22). -/
abbrev Wide := BitVec 512

/-- One 64-bit word of a wide value's word view (00_scope R11; 42_hash R210). -/
abbrev HashWord := BitVec 64

/-- The data of one host-port transaction (20_memory R60, R68). -/
abbrev BusWord := BitVec 32

/-- One command word, the data of a write to `CMD` (30_encoding R90). -/
abbrev Command := BitVec 32

/-- A byte address of the host-port space (10_state R41; 20_memory R60). -/
abbrev HostAddr := BitVec 16

end Sys2Proof
end

