-- ==== Sys2Proof/Machine/Arith.lean ====
section
/-!
DEFINITION. The modular arithmetic of the field unit (40_field R120 to R127): exact on integers, then reduced
into `[0, m)`. The functions are total; the commands ask them only with `m >= 1` (40_field R126, R128).
-/

namespace Sys2Proof.Machine

/-- `add_mod(a, b, m)` (40_field R120). -/
def addMod (a b m : Nat) : Nat := (a + b) % m

/-- `sub_mod(a, b, m)`: the residue of the integer `a - b`, never negative (40_field R121). -/
def subMod (a b m : Nat) : Nat := (((a : Int) - (b : Int)) % (m : Int)).toNat

/-- `mul_mod(a, b, m)` (40_field R122). -/
def mulMod (a b m : Nat) : Nat := (a * b) % m

/-- `sq_mod(a, m)` (40_field R123). -/
def sqMod (a m : Nat) : Nat := (a * a) % m

/-- `red_mod(x, m)` (40_field R124). -/
def redMod (x m : Nat) : Nat := x % m

/-- Euclid's algorithm on `r0, r1`, keeping `t0 * a ≡ r0` and `t1 * a ≡ r1` modulo `m`. -/
def invLoop (m : Nat) : Nat → Nat → Nat → Nat → Nat → Option Nat
  | 0, _, _, _, _ => none
  | fuel + 1, r0, r1, t0, t1 =>
    if r1 = 0 then if r0 = 1 then some t0 else none
    else invLoop m fuel r1 (r0 % r1) t1 (subMod t0 (r0 / r1 * t1) m)

/-- `inv_mod(a, m)` (40_field R125): the inverse of `a` modulo `m` in `[0, m)`, `none` for `NotInvertible`. The
spec fixes the result only (log 11); the second remainder starts below `m` and falls, so `m` steps suffice. -/
def invMod (a m : Nat) : Option Nat := invLoop m m m (a % m) 0 (1 % m)

end Sys2Proof.Machine
end

