-- ==== Sys2Proof/Syntax.lean ====
section
/-!
DEFINITION. The command set: one constructor of `Instr` per row of spec/opcode_table.json (30_encoding R94),
its operands in the field order f1, f2, f3, f4, then the immediate. An operand of a class of R92 has a type
whose values are exactly the class's legal values.
-/

namespace Sys2Proof

/-- Class `Wd`: a general wide register `w0`..`w15` (30_encoding R92; 10_state R22). -/
abbrev WDst := Fin 16

/-- Class `Ws`: a wide source, indices 0..24 (30_encoding R92; 10_state R21). -/
inductive WSrc where
  | gen (i : Fin 16)
  | cp | ca | cb | cq | cgx | cgy
  | hh | hn | hs
  deriving DecidableEq, Repr

/-- Classes `Jd` and `Js`: a Jacobian point register `j0`..`j3` (30_encoding R92; 10_state R25). -/
abbrev JReg := Fin 4

/-- Class `Ad`: an affine point register `a0`..`a3` (30_encoding R92; 10_state R28). -/
abbrev ADst := Fin 4

/-- Class `As`: an affine source, `a0`..`a3` or the constant `ag` (30_encoding R92; 10_state R29). -/
inductive ASrc where
  | reg (i : Fin 4)
  | ag
  deriving DecidableEq, Repr

/-- The thirty-six commands (30_encoding R94). -/
inductive Instr where
  | addm (wd : WDst) (wa wb wm : WSrc)
  | subm (wd : WDst) (wa wb wm : WSrc)
  | mulm (wd : WDst) (wa wb wm : WSrc)
  | sqrm (wd : WDst) (wa wm : WSrc)
  | redm (wd : WDst) (wa wm : WSrc)
  | invm (wd : WDst) (wa wm : WSrc)
  | movw (wd : WDst) (wa : WSrc)
  | liw (wd : WDst) (imm21 : BitVec 21)
  | pdbl (jd ja : JReg)
  | pmadd (jd ja : JReg) (ab : ASrc)
  | pjadd (jd ja jb : JReg)
  | paff (ad : ADst) (ja : JReg)
  | psmul (jd : JReg) (wk : WSrc) (ab : ASrc)
  | plift (jd : JReg) (aa : ASrc)
  | jset (jd : JReg) (wx wy wz : WSrc)
  | jinf (jd : JReg)
  | jgetx (wd : WDst) (ja : JReg)
  | jgety (wd : WDst) (ja : JReg)
  | jgetz (wd : WDst) (ja : JReg)
  | aset (ad : ADst) (wx wy : WSrc)
  | aabs (ad : ADst)
  | agetx (wd : WDst) (aa : ASrc)
  | agety (wd : WDst) (aa : ASrc)
  | xorw (wd : WDst) (wa wb : WSrc)
  | addw (wd : WDst) (wa wb : WSrc)
  | lps (wd : WDst) (wa : WSrc)
  | knxt (wd : WDst) (wa : WSrc) (imm6 : BitVec 6)
  | eenc (wd : WDst) (wk wm : WSrc)
  | gcmp (wd : WDst) (wn wh wm : WSrc)
  | hinit
  | hblk (wm : WSrc)
  | hfin (wd : WDst) (wm : WSrc) (imm6 : BitVec 6)
  | hash (wd : WDst)
  | keygen (wd : WDst) (ad : ADst)
  | sign (wr ws : WDst) (wd : WSrc)
  | verify (wd : WDst) (wr ws : WSrc) (ap : ASrc)
  deriving DecidableEq, Repr

end Sys2Proof
end

