-- ==== Sys2Proof/WellFormed.lean ====
section
/-!
DEFINITION. The conditions on a command that its operand types do not already carry (30_encoding R95 step 2,
R98): the round number of KNXT, and the two results of SIGN. Every other range of R92 is a type of Syntax.lean.
-/

namespace Sys2Proof

/-- A command the block accepts (30_encoding R98): KNXT's `imm6` is in 1..12, and SIGN's two destinations
differ. -/
def Instr.wellFormed : Instr → Bool
  | .addm _ _ _ _ => true
  | .subm _ _ _ _ => true
  | .mulm _ _ _ _ => true
  | .sqrm _ _ _ => true
  | .redm _ _ _ => true
  | .invm _ _ _ => true
  | .movw _ _ => true
  | .liw _ _ => true
  | .pdbl _ _ => true
  | .pmadd _ _ _ => true
  | .pjadd _ _ _ => true
  | .paff _ _ => true
  | .psmul _ _ _ => true
  | .plift _ _ => true
  | .jset _ _ _ _ => true
  | .jinf _ => true
  | .jgetx _ _ => true
  | .jgety _ _ => true
  | .jgetz _ _ => true
  | .aset _ _ _ => true
  | .aabs _ => true
  | .agetx _ _ => true
  | .agety _ _ => true
  | .xorw _ _ _ => true
  | .addw _ _ _ => true
  | .lps _ _ => true
  | .knxt _ _ imm6 => decide (1 ≤ imm6.toNat ∧ imm6.toNat ≤ 12)
  | .eenc _ _ _ => true
  | .gcmp _ _ _ _ => true
  | .hinit => true
  | .hblk _ => true
  | .hfin _ _ _ => true
  | .hash _ => true
  | .keygen _ _ => true
  | .sign wr ws _ => decide (wr ≠ ws)
  | .verify _ _ _ _ => true

end Sys2Proof
end

