-- ==== Sys2Proof/Decode.lean ====
section
/-!
DEFINITION. Decoding a 32-bit command word (30_encoding R91 to R98), total and rejecting by name, and after it
the encoder, written from the same table. A command has exactly one word: every field a command does not use
must be zero (R98).
-/

namespace Sys2Proof

/-! ## The fields of the two formats (30_encoding R91) -/

/-- `word[31:26]` -/
def Command.op (c : Command) : BitVec 6 := c.extractLsb' 26 6

/-- `word[25:21]` -/
def Command.f1 (c : Command) : BitVec 5 := c.extractLsb' 21 5

/-- `word[20:16]` -/
def Command.f2 (c : Command) : BitVec 5 := c.extractLsb' 16 5

/-- `word[15:11]` -/
def Command.f3 (c : Command) : BitVec 5 := c.extractLsb' 11 5

/-- `word[10:6]` -/
def Command.f4 (c : Command) : BitVec 5 := c.extractLsb' 6 5

/-- `word[5:0]` -/
def Command.imm6 (c : Command) : BitVec 6 := c.extractLsb' 0 6

/-- `word[20:0]`, format I (30_encoding R93) -/
def Command.imm21 (c : Command) : BitVec 21 := c.extractLsb' 0 21

/-! ## The operand classes (30_encoding R92): a field's register, or nothing where the field is illegal -/

/-- Class `Wd`: 0..15. -/
def wdOf (f : BitVec 5) : Option WDst :=
  if h : f.toNat < 16 then some ⟨f.toNat, h⟩ else none

/-- A wide index 0..24 (10_state R21). -/
def wideOfIndex (n : Nat) : Option WSrc :=
  if h : n < 16 then some (.gen ⟨n, h⟩)
  else match n with
    | 16 => some .cp
    | 17 => some .ca
    | 18 => some .cb
    | 19 => some .cq
    | 20 => some .cgx
    | 21 => some .cgy
    | 22 => some .hh
    | 23 => some .hn
    | 24 => some .hs
    | _ => none

/-- Class `Ws`: 0..24 (10_state R21). -/
def wsOf (f : BitVec 5) : Option WSrc := wideOfIndex f.toNat

/-- Classes `Jd` and `Js`: 0..3. -/
def jOf (f : BitVec 5) : Option JReg :=
  if h : f.toNat < 4 then some ⟨f.toNat, h⟩ else none

/-- Class `Ad`: 0..3. -/
def adOf (f : BitVec 5) : Option ADst :=
  if h : f.toNat < 4 then some ⟨f.toNat, h⟩ else none

/-- Class `As`: 0..3, and 4 for `ag` (10_state R29). -/
def asOf (f : BitVec 5) : Option ASrc :=
  if h : f.toNat < 4 then some (.reg ⟨f.toNat, h⟩)
  else if f.toNat = 4 then some .ag
  else none

/-- Class `0`: an unused field must be zero (30_encoding R91, R98). -/
def unused {n : Nat} (f : BitVec n) : Option Unit :=
  if f = 0 then some () else none

/-! ## The decoder -/

/-- What a command word is (30_encoding R95). -/
inductive Decoded where
  /-- a legal command -/
  | instr (i : Instr)
  /-- step 1 fails: `word[31:26]` is unassigned (R97) -/
  | illegalOp
  /-- step 2 fails: a field is illegal (R98) -/
  | illegalField
  deriving DecidableEq, Repr

/-- Step 2 of 30_encoding R95: the operands of an assigned opcode, refused where a field is illegal. -/
def legalFields : Option Instr → Decoded
  | some i => if i.wellFormed then .instr i else .illegalField
  | none => .illegalField

/-- Decoding of a command word, total (30_encoding R94, R95). -/
def decode (c : Command) : Decoded :=
  match c.op.toNat with
  | 0x01 => legalFields do
      let d ← wdOf c.f1; let a ← wsOf c.f2; let b ← wsOf c.f3; let m ← wsOf c.f4; unused c.imm6
      return .addm d a b m
  | 0x02 => legalFields do
      let d ← wdOf c.f1; let a ← wsOf c.f2; let b ← wsOf c.f3; let m ← wsOf c.f4; unused c.imm6
      return .subm d a b m
  | 0x03 => legalFields do
      let d ← wdOf c.f1; let a ← wsOf c.f2; let b ← wsOf c.f3; let m ← wsOf c.f4; unused c.imm6
      return .mulm d a b m
  | 0x04 => legalFields do
      let d ← wdOf c.f1; let a ← wsOf c.f2; unused c.f3; let m ← wsOf c.f4; unused c.imm6
      return .sqrm d a m
  | 0x05 => legalFields do
      let d ← wdOf c.f1; let a ← wsOf c.f2; unused c.f3; let m ← wsOf c.f4; unused c.imm6
      return .redm d a m
  | 0x06 => legalFields do
      let d ← wdOf c.f1; let a ← wsOf c.f2; unused c.f3; let m ← wsOf c.f4; unused c.imm6
      return .invm d a m
  | 0x07 => legalFields do
      let d ← wdOf c.f1; let a ← wsOf c.f2; unused c.f3; unused c.f4; unused c.imm6
      return .movw d a
  | 0x08 => legalFields do
      let d ← wdOf c.f1
      return .liw d c.imm21
  | 0x10 => legalFields do
      let d ← jOf c.f1; let a ← jOf c.f2; unused c.f3; unused c.f4; unused c.imm6
      return .pdbl d a
  | 0x11 => legalFields do
      let d ← jOf c.f1; let a ← jOf c.f2; let b ← asOf c.f3; unused c.f4; unused c.imm6
      return .pmadd d a b
  | 0x12 => legalFields do
      let d ← jOf c.f1; let a ← jOf c.f2; let b ← jOf c.f3; unused c.f4; unused c.imm6
      return .pjadd d a b
  | 0x13 => legalFields do
      let d ← adOf c.f1; let a ← jOf c.f2; unused c.f3; unused c.f4; unused c.imm6
      return .paff d a
  | 0x14 => legalFields do
      let d ← jOf c.f1; let k ← wsOf c.f2; let b ← asOf c.f3; unused c.f4; unused c.imm6
      return .psmul d k b
  | 0x15 => legalFields do
      let d ← jOf c.f1; let a ← asOf c.f2; unused c.f3; unused c.f4; unused c.imm6
      return .plift d a
  | 0x16 => legalFields do
      let d ← jOf c.f1; let x ← wsOf c.f2; let y ← wsOf c.f3; let z ← wsOf c.f4; unused c.imm6
      return .jset d x y z
  | 0x17 => legalFields do
      let d ← jOf c.f1; unused c.f2; unused c.f3; unused c.f4; unused c.imm6
      return .jinf d
  | 0x18 => legalFields do
      let d ← wdOf c.f1; let a ← jOf c.f2; unused c.f3; unused c.f4; unused c.imm6
      return .jgetx d a
  | 0x19 => legalFields do
      let d ← wdOf c.f1; let a ← jOf c.f2; unused c.f3; unused c.f4; unused c.imm6
      return .jgety d a
  | 0x1A => legalFields do
      let d ← wdOf c.f1; let a ← jOf c.f2; unused c.f3; unused c.f4; unused c.imm6
      return .jgetz d a
  | 0x1B => legalFields do
      let d ← adOf c.f1; let x ← wsOf c.f2; let y ← wsOf c.f3; unused c.f4; unused c.imm6
      return .aset d x y
  | 0x1C => legalFields do
      let d ← adOf c.f1; unused c.f2; unused c.f3; unused c.f4; unused c.imm6
      return .aabs d
  | 0x1D => legalFields do
      let d ← wdOf c.f1; let a ← asOf c.f2; unused c.f3; unused c.f4; unused c.imm6
      return .agetx d a
  | 0x1E => legalFields do
      let d ← wdOf c.f1; let a ← asOf c.f2; unused c.f3; unused c.f4; unused c.imm6
      return .agety d a
  | 0x20 => legalFields do
      let d ← wdOf c.f1; let a ← wsOf c.f2; let b ← wsOf c.f3; unused c.f4; unused c.imm6
      return .xorw d a b
  | 0x21 => legalFields do
      let d ← wdOf c.f1; let a ← wsOf c.f2; let b ← wsOf c.f3; unused c.f4; unused c.imm6
      return .addw d a b
  | 0x22 => legalFields do
      let d ← wdOf c.f1; let a ← wsOf c.f2; unused c.f3; unused c.f4; unused c.imm6
      return .lps d a
  | 0x23 => legalFields do
      let d ← wdOf c.f1; let a ← wsOf c.f2; unused c.f3; unused c.f4
      return .knxt d a c.imm6
  | 0x24 => legalFields do
      let d ← wdOf c.f1; let k ← wsOf c.f2; let m ← wsOf c.f3; unused c.f4; unused c.imm6
      return .eenc d k m
  | 0x25 => legalFields do
      let d ← wdOf c.f1; let n ← wsOf c.f2; let h ← wsOf c.f3; let m ← wsOf c.f4; unused c.imm6
      return .gcmp d n h m
  | 0x28 => legalFields do
      unused c.f1; unused c.f2; unused c.f3; unused c.f4; unused c.imm6
      return .hinit
  | 0x29 => legalFields do
      unused c.f1; let m ← wsOf c.f2; unused c.f3; unused c.f4; unused c.imm6
      return .hblk m
  | 0x2A => legalFields do
      let d ← wdOf c.f1; let m ← wsOf c.f2; unused c.f3; unused c.f4
      return .hfin d m c.imm6
  | 0x2B => legalFields do
      let d ← wdOf c.f1; unused c.f2; unused c.f3; unused c.f4; unused c.imm6
      return .hash d
  | 0x30 => legalFields do
      let d ← wdOf c.f1; let p ← adOf c.f2; unused c.f3; unused c.f4; unused c.imm6
      return .keygen d p
  | 0x31 => legalFields do
      let r ← wdOf c.f1; let s ← wdOf c.f2; let d ← wsOf c.f3; unused c.f4; unused c.imm6
      return .sign r s d
  | 0x32 => legalFields do
      let d ← wdOf c.f1; let r ← wsOf c.f2; let s ← wsOf c.f3; let p ← asOf c.f4; unused c.imm6
      return .verify d r s p
  | _ => .illegalOp

/-! ## The encoder -/

/-- Format R (30_encoding R91): `op || f1 || f2 || f3 || f4 || imm6`. -/
def formatR (op : BitVec 6) (f1 f2 f3 f4 : BitVec 5) (imm6 : BitVec 6) : Command :=
  op ++ f1 ++ f2 ++ f3 ++ f4 ++ imm6

/-- Format I (30_encoding R91): `op || f1 || imm21`. -/
def formatI (op : BitVec 6) (f1 : BitVec 5) (imm21 : BitVec 21) : Command :=
  op ++ f1 ++ imm21

/-- The field of a `Wd` operand. -/
def wdField (r : WDst) : BitVec 5 := BitVec.ofNat 5 r.val

/-- The wide index of a wide source (10_state R21). -/
def wideIndex : WSrc → Nat
  | .gen i => i.val
  | .cp => 16
  | .ca => 17
  | .cb => 18
  | .cq => 19
  | .cgx => 20
  | .cgy => 21
  | .hh => 22
  | .hn => 23
  | .hs => 24

/-- The field of a `Ws` operand. -/
def wsField (r : WSrc) : BitVec 5 := BitVec.ofNat 5 (wideIndex r)

/-- The field of a `Jd` or `Js` operand. -/
def jField (r : JReg) : BitVec 5 := BitVec.ofNat 5 r.val

/-- The field of an `Ad` operand. -/
def adField (r : ADst) : BitVec 5 := BitVec.ofNat 5 r.val

/-- The field of an `As` operand (10_state R29). -/
def asField : ASrc → BitVec 5
  | .reg i => BitVec.ofNat 5 i.val
  | .ag => 4

/-- The word of a command (30_encoding R91, R94). -/
def encode : Instr → Command
  | .addm d a b m => formatR 0x01 (wdField d) (wsField a) (wsField b) (wsField m) 0
  | .subm d a b m => formatR 0x02 (wdField d) (wsField a) (wsField b) (wsField m) 0
  | .mulm d a b m => formatR 0x03 (wdField d) (wsField a) (wsField b) (wsField m) 0
  | .sqrm d a m => formatR 0x04 (wdField d) (wsField a) 0 (wsField m) 0
  | .redm d a m => formatR 0x05 (wdField d) (wsField a) 0 (wsField m) 0
  | .invm d a m => formatR 0x06 (wdField d) (wsField a) 0 (wsField m) 0
  | .movw d a => formatR 0x07 (wdField d) (wsField a) 0 0 0
  | .liw d imm => formatI 0x08 (wdField d) imm
  | .pdbl d a => formatR 0x10 (jField d) (jField a) 0 0 0
  | .pmadd d a b => formatR 0x11 (jField d) (jField a) (asField b) 0 0
  | .pjadd d a b => formatR 0x12 (jField d) (jField a) (jField b) 0 0
  | .paff d a => formatR 0x13 (adField d) (jField a) 0 0 0
  | .psmul d k b => formatR 0x14 (jField d) (wsField k) (asField b) 0 0
  | .plift d a => formatR 0x15 (jField d) (asField a) 0 0 0
  | .jset d x y z => formatR 0x16 (jField d) (wsField x) (wsField y) (wsField z) 0
  | .jinf d => formatR 0x17 (jField d) 0 0 0 0
  | .jgetx d a => formatR 0x18 (wdField d) (jField a) 0 0 0
  | .jgety d a => formatR 0x19 (wdField d) (jField a) 0 0 0
  | .jgetz d a => formatR 0x1A (wdField d) (jField a) 0 0 0
  | .aset d x y => formatR 0x1B (adField d) (wsField x) (wsField y) 0 0
  | .aabs d => formatR 0x1C (adField d) 0 0 0 0
  | .agetx d a => formatR 0x1D (wdField d) (asField a) 0 0 0
  | .agety d a => formatR 0x1E (wdField d) (asField a) 0 0 0
  | .xorw d a b => formatR 0x20 (wdField d) (wsField a) (wsField b) 0 0
  | .addw d a b => formatR 0x21 (wdField d) (wsField a) (wsField b) 0 0
  | .lps d a => formatR 0x22 (wdField d) (wsField a) 0 0 0
  | .knxt d a imm => formatR 0x23 (wdField d) (wsField a) 0 0 imm
  | .eenc d k m => formatR 0x24 (wdField d) (wsField k) (wsField m) 0 0
  | .gcmp d n h m => formatR 0x25 (wdField d) (wsField n) (wsField h) (wsField m) 0
  | .hinit => formatR 0x28 0 0 0 0 0
  | .hblk m => formatR 0x29 0 (wsField m) 0 0 0
  | .hfin d m imm => formatR 0x2A (wdField d) (wsField m) 0 0 imm
  | .hash d => formatR 0x2B (wdField d) 0 0 0 0
  | .keygen d p => formatR 0x30 (wdField d) (adField p) 0 0 0
  | .sign r s d => formatR 0x31 (wdField r) (wdField s) (wsField d) 0 0
  | .verify d r s p => formatR 0x32 (wdField d) (wsField r) (wsField s) (asField p) 0

/-- The host's question: the instruction read from the `nbits` low bits of `w`, all higher bits zero. The
command word is the 32-bit data of one write, so no byte order enters (20_memory R65). -/
def decodeTableWord (nbits w : Nat) : Option Instr :=
  match decode (BitVec.ofNat 32 (w % 2 ^ nbits)) with
  | .instr i => some i
  | .illegalOp => none
  | .illegalField => none

end Sys2Proof
end

