-- ==== Sys2Proof/Config.lean ====
section
/-!
DEFINITION. What is fixed for one instance of the block: the parameters of 00_scope R8 that the spec leaves
OPEN (93_implementation_defined section 1). They are data, held by `Machine.State` and changed by no step, so
a statement about every state is a statement about every CURVE, MSG_CAP and SIGN_ATTEMPT_CAP.
The two free values, which nothing constrains: the answers of an unbounded random stream, and how many of them a
SIGN that never completes has used when a reset ends it. The spec leaves no result of a command open.
-/

namespace Sys2Proof

/-- The parameter `CURVE` (00_scope R8): the values the six constant registers read as (10_state R23). -/
structure Curve where
  /-- the field modulus, register `CP` -/
  P : Wide
  /-- the curve coefficient A, register `CA` -/
  A : Wide
  /-- the curve coefficient B, register `CB` -/
  B : Wide
  /-- the group order, register `CQ` -/
  Q : Wide
  /-- the base point's x, register `CGX` -/
  GX : Wide
  /-- the base point's y, register `CGY` -/
  GY : Wide
  deriving DecidableEq, Repr

/-- The parameters of one instance (00_scope R8; 10_state R43): not state of the block, fixed before the
first step (70_reset_and_hazards R331). -/
structure Params where
  /-- `CURVE` -/
  curve : Curve
  /-- `MSG_CAP`, the size of the message memory in bytes -/
  msgCap : Nat
  /-- `SIGN_ATTEMPT_CAP`; `none` means unbounded -/
  signCap : Option Nat
  deriving DecidableEq, Repr

/-- The constraints 00_scope R8 puts on the parameters: `P >= 2`, `Q >= 2`, `MSG_CAP` a multiple of 4 in
`4..32768`, `SIGN_ATTEMPT_CAP` either `none` or at least 1 (93_implementation_defined section 1). -/
def Params.wf (p : Params) : Bool :=
  2 ≤ p.curve.P.toNat && 2 ≤ p.curve.Q.toNat &&
  p.msgCap % 4 == 0 && 4 ≤ p.msgCap && p.msgCap ≤ 32768 &&
  p.signCap != some 0

/-- One answer of the random source (43_protocol R261). -/
inductive Draw where
  | value (x : Wide)
  | fail
  deriving DecidableEq, Repr, Inhabited

/-- The answers of an unbounded random stream, in order: any infinite sequence (43_protocol R261).
A free value (log 3). -/
opaque Config.freeDraw : Nat → Draw

/-- How many draws a SIGN that never completes has made when a reset ends it; the argument numbers the issue.
A free value (log 9). -/
opaque Config.stuckDraws : Nat → Nat

/-- The recommended value of `CURVE` (93_implementation_defined U1).
DESIGN CHOICE, unsafe (log 7): only `State.reset` uses it; the spec leaves `CURVE` open. -/
def Curve.recommended : Curve where
  P := 0x4531ACD1FE0023C7550D267B6B2FEE80922B14B2FFB90F04D4EB7C09B5D2D15DF1D852741AF4704A0458047E80E4546D35B8336FAC224DD81664BBF528BE6373#512
  A := 0x7#512
  B := 0x1CFF0806A31116DA29D8CFA54E57EB748BC5F377E49400FDD788B649ECA1AC4361834013B2AD7322480A89CA58E0CF74BC9E540C2ADD6897FAD0A3084F302ADC#512
  Q := 0x4531ACD1FE0023C7550D267B6B2FEE80922B14B2FFB90F04D4EB7C09B5D2D15DA82F2D7ECB1DBAC719905C5EECC423F1D86E25EDBE23C595D644AAF187E6E6DF#512
  GX := 0x24D19CC64572EE30F396BF6EBBFD7A6C5213B3B3D7057CC825F91093A68CD762FD60611262CD838DC6B60AA7EEE804E28BC849977FAC33B4B530F1B120248A9A#512
  GY := 0x2BB312A43BD2CE6E0D020613C857ACDDCFBF061E91E5F2C3F32447C259F39B2C83AB156D77F1496BF7EB3351E1EE4E43DC1A18B91B24640B6DBB92CB1ADD371E#512

/-- The parameters `State.reset` has: the recommended curve and the defaults of 00_scope R8.
DESIGN CHOICE, unsafe (log 7). -/
def Params.default : Params where
  curve := Curve.recommended
  msgCap := 4096
  signCap := none

end Sys2Proof
end

