-- ==== Sys2Proof/Machine/State.lean ====
section
/-!
DEFINITION. The state of the block (10_state R20) and of its environment, all of it plain data; the reasons a
step can stop; the state after reset (10_state R44; 70_reset_and_hazards R330).
-/

namespace Sys2Proof.Machine

/-- The message memory `msg[0..MSG_CAP-1]` (10_state R40): pairs of a message offset and its byte, offsets
strictly rising, holding no entry equal to what an unlisted offset reads as. -/
abbrev Memory := List Host.Cell

/-- A Jacobian record (10_state R25). -/
structure Jacobian where
  X : Wide
  Y : Wide
  Z : Wide
  /-- the infinity flag -/
  inf : Bool
  deriving DecidableEq, Repr

/-- The canonical identity `IDENT` (10_state R27; 41_point R161). -/
def Jacobian.ident : Jacobian := { X := 1, Y := 1, Z := 0, inf := true }

/-- An affine record (10_state R28). -/
structure Affine where
  X : Wide
  Y : Wide
  /-- the register holds no point -/
  absent : Bool
  deriving DecidableEq, Repr

/-- The canonical absent record (10_state R28). -/
def Affine.none : Affine := { X := 0, Y := 0, absent := true }

/-- What the random source answers after the answers it has ahead (43_protocol R261; log 3). -/
inductive SourceTail where
  /-- the stream is finite: used up, it answers `fail` to every further call -/
  | fails
  /-- `d` and then `ds`, over and over -/
  | repeats (d : Draw) (ds : List Draw)
  /-- any infinite sequence: the free answers from number `n` on -/
  | free (n : Nat)
  deriving DecidableEq, Repr

/-- The rest of the random source's stream (43_protocol R261; 10_state R42): the answers of `ahead` in order,
then those of `tail`. The MODEL's own field (log 3): the stream belongs to the environment. -/
structure RandomSource where
  ahead : List Draw
  tail : SourceTail
  deriving DecidableEq, Repr

/-- A `SIGN` whose `CMD` write never completes, by its operands (43_protocol R265, R266;
93_implementation_defined U7). -/
structure Signing where
  wr : WDst
  ws : WDst
  wd : WSrc
  deriving DecidableEq, Repr

/-- What the outside can do to the block (20_memory R60): the two host-port transactions, and reset
(70_reset_and_hazards R330). -/
inductive HostEvent where
  | read (addr : HostAddr)
  | write (addr : HostAddr) (data : BusWord)
  | reset
  deriving DecidableEq, Repr

/-- The port's answer to one transaction (20_memory R60). -/
inductive Reply where
  /-- a read returned this value (R63) -/
  | data (d : BusWord)
  /-- a write was taken (R64); a command's fault is no bus error (60_exceptions R293), and a dropped command
  is silent (R297) -/
  | ok
  /-- the transaction was refused (R70) -/
  | busError
  deriving DecidableEq, Repr

/-- The state of one instance and its environment. -/
structure State where
  /-- the instance's parameters; `CP`, `CA`, `CB`, `CQ`, `CGX`, `CGY` and `ag` read from `params.curve`
  (10_state R23, R29) -/
  params : Params
  /-- `w0`..`w15` (10_state R22) -/
  w : Vector Wide 16
  /-- `HH` (10_state R24) -/
  hh : Wide
  /-- `HN` (10_state R24) -/
  hn : Wide
  /-- `HS` (10_state R24) -/
  hs : Wide
  /-- `j0`..`j3` (10_state R25) -/
  j : Vector Jacobian 4
  /-- `a0`..`a3` (10_state R28) -/
  a : Vector Affine 4
  /-- `STATUS.ERR` (10_state R33) -/
  err : Bool
  /-- `ERRCODE.CODE` (10_state R34) -/
  errCode : BitVec 8
  /-- `ERRCMD` (10_state R35) -/
  errCmd : Command
  /-- `MLEN` (10_state R39) -/
  mlen : BusWord
  /-- the message memory (10_state R40) -/
  msg : Memory
  /-- the random source's remaining stream (10_state R42): the environment's -/
  source : RandomSource
  /-- the `SIGN` that never completes, if one was issued: the MODEL's own field (log 9) -/
  signing : Option Signing
  /-- the host events not yet served, the next one first: the environment's (log 1) -/
  pending : List HostEvent
  /-- what the port has answered, the latest first: the block's output (log 2) -/
  replies : List Reply
  deriving DecidableEq, Repr

/-- The kinds of command fault (60_exceptions R291). A command fault is a NEXT state with the error registers
set, not a stop of the machine. -/
inductive ErrorKind where
  | illegalOp
  | illegalField
  | modulusZero
  | notInvertible
  | absent
  | domain
  | randomness
  | msgLen
  deriving DecidableEq, Repr

/-- Why a step stops the machine: nothing does, so there is no reason. A command fault and a bus error are next
states (log 16), and a SIGN that never completes is a next state, in progress for ever (log 9). -/
inductive Fault : Type where
  deriving DecidableEq, Repr

/-- Why a step refuses. -/
inductive Refusal where
  /-- a command that has no meaning yet, raised by `exec`'s arm only; safe: no state follows. No arm of this
  model raises it. -/
  | notModelled (mnemonic : String)
  deriving DecidableEq, Repr

/-- The state right after reset of an instance with the parameters `p`, with the environment `source`,
`pending`, `replies` (10_state R44; 70_reset_and_hazards R330, R331).
DESIGN CHOICE, unsafe: `w0`..`w15` are zero (log 5) and no message byte is written (log 6), where R44 says
unspecified. -/
def State.resetOf (p : Params) (source : RandomSource) (pending : List HostEvent) (replies : List Reply) :
    State where
  params := p
  w := Vector.replicate 16 0
  hh := 0
  hn := 0
  hs := 0
  j := Vector.replicate 4 Jacobian.ident
  a := Vector.replicate 4 Affine.none
  err := false
  errCode := 0
  errCmd := 0
  mlen := 0
  msg := []
  source := source
  signing := none
  pending := pending
  replies := replies

/-- The machine right after reset: nothing pending, nothing answered.
DESIGN CHOICE, unsafe: the parameters are `Params.default` (log 7) and the random stream is empty (log 4). -/
def State.reset : State :=
  State.resetOf Params.default { ahead := [], tail := .fails } [] []

end Sys2Proof.Machine
end

