-- ==== Sys2Proof/Machine/Ops.lean ====
section
/-!
DEFINITION. The named operations over memory and registers, fault entry and the return from it.
-/

namespace Sys2Proof.Machine

/-! ## The message memory (10_state R40; 20_memory R62) -/

/-- What a message byte that nothing has written reads as.
DESIGN CHOICE, unsafe (log 6): 10_state R44 leaves it unspecified. -/
def unwrittenByte : Byte := 0

/-- The byte at message offset `k`. -/
def Memory.read : Memory → Nat → Byte
  | [], _ => unwrittenByte
  | (k', b') :: m, k => if k = k' then b' else Memory.read m k

/-- `m` with the byte at offset `k` set to `b`, in canonical form. -/
def Memory.write : Memory → Nat → Byte → Memory
  | [], k, b => if b = unwrittenByte then [] else [(k, b)]
  | (k', b') :: m, k, b =>
    if k < k' then
      if b = unwrittenByte then (k', b') :: m else (k, b) :: (k', b') :: m
    else if k = k' then
      if b = unwrittenByte then m else (k, b) :: m
    else (k', b') :: Memory.write m k b

/-- The canonical form: offsets strictly rising, no entry equal to what an unlisted offset reads as. -/
def Memory.wf : Memory → Bool
  | [] => true
  | [(_, b)] => b != unwrittenByte
  | (k, b) :: (k', b') :: m => b != unwrittenByte && decide (k < k') && Memory.wf ((k', b') :: m)

/-- `MemRead(k, n)`: the bytes `msg[k..k+n-1]` in rising address order (20_memory R62). -/
def memRead (m : Memory) (k n : Nat) : List Byte := (List.range n).map fun i => m.read (k + i)

/-- The bus word at message offset `k`: `msg[k] || msg[k+1] || msg[k+2] || msg[k+3]` (20_memory R63). -/
def Memory.readBus (m : Memory) (k : Nat) : BusWord :=
  m.read k ++ m.read (k + 1) ++ m.read (k + 2) ++ m.read (k + 3)

/-- `m` with the four bytes from offset `k` set from `d`, `msg[k]` from bits 31:24 (20_memory R64). -/
def Memory.writeBus (m : Memory) (k : Nat) (d : BusWord) : Memory :=
  (((m.write k (d.extractLsb' 24 8)).write (k + 1) (d.extractLsb' 16 8)).write
    (k + 2) (d.extractLsb' 8 8)).write (k + 3) (d.extractLsb' 0 8)

/-! ## Register writes (00_scope R12) -/

/-- `w[i] <- v` for a general wide register. -/
def State.setW (s : State) (i : WDst) (v : Wide) : State := { s with w := s.w.set i.val v }

/-- `j[i] <- rec`. -/
def State.setJ (s : State) (i : JReg) (r : Jacobian) : State := { s with j := s.j.set i.val r }

/-- `a[i] <- rec`. -/
def State.setA (s : State) (i : ADst) (r : Affine) : State := { s with a := s.a.set i.val r }

/-- The three hash state registers set together (70_reset_and_hazards R340). -/
def State.setHash (s : State) (h n sg : Wide) : State := { s with hh := h, hn := n, hs := sg }

/-- `HH <- 0; HN <- 0; HS <- 0` (42_hash R231, R233, R234; 43_protocol R266, R268). -/
def State.zeroHash (s : State) : State := s.setHash 0 0 0

/-- The stream with the draws of a command consumed (10_state R42; 43_protocol R261). -/
def State.setSource (s : State) (r : RandomSource) : State := { s with source := r }

/-- The `SIGN` that never completes (93_implementation_defined U7; log 9). -/
def State.setSigning (s : State) (g : Option Signing) : State := { s with signing := g }

/-! ## Fault entry and return (60_exceptions R291, R293, R297) -/

/-- The fault codes (60_exceptions R291). -/
def ErrorKind.code : ErrorKind → BitVec 8
  | .illegalOp => 1
  | .illegalField => 2
  | .modulusZero => 3
  | .notInvertible => 4
  | .absent => 5
  | .domain => 6
  | .randomness => 7
  | .msgLen => 8

/-- `raise ERR_x(word)`: fault entry (60_exceptions R293). Nothing else changes. -/
def State.raise (s : State) (e : ErrorKind) (word : Command) : State :=
  { s with err := true, errCode := e.code, errCmd := word }

/-- The host's acknowledgement of a fault (10_state R36; 60_exceptions R297). -/
def State.clearError (s : State) : State := { s with err := false, errCode := 0, errCmd := 0 }

/-- What a meaning answers. -/
abbrev Result := Host.Outcome State Fault Refusal

/-- The end of a command by a fault: the word recorded is the command's own, `encode i`, since a command has
exactly one word (30_encoding R98; log 15). -/
def trap (i : Instr) (e : ErrorKind) (s : State) : Result := .next (s.raise e (encode i))

end Sys2Proof.Machine
end

