-- ==== Sys2Proof/Machine/Operands.lean ====
section
/-!
DEFINITION. Reading the operands of a command, every form of 30_encoding R92, and the two operand checks shared
by several commands: a zero modulus (40_field R128) and an absent affine operand (60_exceptions R291 code 5).
-/

namespace Sys2Proof.Machine

/-- `w[i]` for a wide source (10_state R21): a general register, a curve constant or a hash state register. -/
def State.wide (s : State) : WSrc → Wide
  | .gen i => s.w[i]
  | .cp => s.params.curve.P
  | .ca => s.params.curve.A
  | .cb => s.params.curve.B
  | .cq => s.params.curve.Q
  | .cgx => s.params.curve.GX
  | .cgy => s.params.curve.GY
  | .hh => s.hh
  | .hn => s.hn
  | .hs => s.hs

/-- `j[i]` (10_state R25). -/
def State.jac (s : State) (i : JReg) : Jacobian := s.j[i]

/-- `a[i]`, with index 4 the constant `ag` (10_state R29). -/
def State.aff (s : State) : ASrc → Affine
  | .reg i => s.a[i]
  | .ag => { X := s.params.curve.GX, Y := s.params.curve.GY, absent := false }

/-- The value of a modulus operand, or the fault `ERR_MODULUS_ZERO` of command `i` (40_field R128). -/
def withModulus (i : Instr) (wm : WSrc) (s : State) (k : Nat → Result) : Result :=
  if (s.wide wm).toNat = 0 then trap i .modulusZero s else k (s.wide wm).toNat

/-- The coordinates of an affine operand, or the fault `ERR_ABSENT` of command `i` (41_point R178, R181, R189,
R190, R192; 43_protocol R268). -/
def withPoint (i : Instr) (ap : ASrc) (s : State) (k : Wide → Wide → Result) : Result :=
  if (s.aff ap).absent then trap i .absent s else k (s.aff ap).X (s.aff ap).Y

/-- The message `msg[0 .. MLEN-1]` (43_protocol R263), or the fault `ERR_MSGLEN` of command `i` (42_hash R234).
-/
def withMessage (i : Instr) (s : State) (k : List Byte → Result) : Result :=
  if s.params.msgCap < s.mlen.toNat then trap i .msgLen s else k (memRead s.msg 0 s.mlen.toNat)

end Sys2Proof.Machine
end

