-- ==== Sys2Proof/Machine/Field.lean ====
section
/-!
DEFINITION. The commands of the field arithmetic unit (40_field section 2).
-/

namespace Sys2Proof.Machine

/-- `ADDM` (40_field R131). -/
def execAddm (wd : WDst) (wa wb wm : WSrc) (s : State) : Result :=
  withModulus (.addm wd wa wb wm) wm s fun m =>
    .next (s.setW wd (BitVec.ofNat 512 (addMod (s.wide wa).toNat (s.wide wb).toNat m)))

/-- `SUBM` (40_field R132). -/
def execSubm (wd : WDst) (wa wb wm : WSrc) (s : State) : Result :=
  withModulus (.subm wd wa wb wm) wm s fun m =>
    .next (s.setW wd (BitVec.ofNat 512 (subMod (s.wide wa).toNat (s.wide wb).toNat m)))

/-- `MULM` (40_field R133). -/
def execMulm (wd : WDst) (wa wb wm : WSrc) (s : State) : Result :=
  withModulus (.mulm wd wa wb wm) wm s fun m =>
    .next (s.setW wd (BitVec.ofNat 512 (mulMod (s.wide wa).toNat (s.wide wb).toNat m)))

/-- `SQRM` (40_field R134). -/
def execSqrm (wd : WDst) (wa wm : WSrc) (s : State) : Result :=
  withModulus (.sqrm wd wa wm) wm s fun m =>
    .next (s.setW wd (BitVec.ofNat 512 (sqMod (s.wide wa).toNat m)))

/-- `REDM` (40_field R135). -/
def execRedm (wd : WDst) (wa wm : WSrc) (s : State) : Result :=
  withModulus (.redm wd wa wm) wm s fun m =>
    .next (s.setW wd (BitVec.ofNat 512 (redMod (s.wide wa).toNat m)))

/-- `INVM` (40_field R136). -/
def execInvm (wd : WDst) (wa wm : WSrc) (s : State) : Result :=
  withModulus (.invm wd wa wm) wm s fun m =>
    match invMod (s.wide wa).toNat m with
    | none => trap (.invm wd wa wm) .notInvertible s
    | some v => .next (s.setW wd (BitVec.ofNat 512 v))

/-- `MOVW` (40_field R137). -/
def execMovw (wd : WDst) (wa : WSrc) (s : State) : Result := .next (s.setW wd (s.wide wa))

/-- `LIW` (40_field R138). -/
def execLiw (wd : WDst) (imm21 : BitVec 21) (s : State) : Result :=
  .next (s.setW wd (imm21.setWidth 512))

end Sys2Proof.Machine
end

