-- ==== Sys2Proof/Machine/Views.lean ====
section
/-!
DEFINITION. The three views of one wide value: bytes, 64-bit words and 32-bit bus words, all big-endian
(00_scope R11; 20_memory R65, R66; 42_hash R210).
-/

namespace Sys2Proof.Machine

/-- Byte `k` of the byte view: `v[511-8k : 504-8k]`, byte 0 the most significant (00_scope R11). -/
def byteOf (v : Wide) (k : Nat) : Byte := v.extractLsb' (504 - 8 * k) 8

/-- Word `k` of the word view: `v[511-64k : 448-64k]` (00_scope R11). -/
def wordOf (v : Wide) (k : Nat) : HashWord := v.extractLsb' (448 - 64 * k) 64

/-- Bus word `k`: `v[511-32k : 480-32k]` (00_scope R11; 20_memory R63). -/
def busWordOf (v : Wide) (k : Nat) : BusWord := v.extractLsb' (480 - 32 * k) 32

/-- `v` with bus word `k` replaced by `d`, the other 480 bits unchanged (20_memory R64). -/
def setBusWord (v : Wide) (k : Nat) (d : BusWord) : Wide :=
  (v &&& ~~~((0xFFFFFFFF#512) <<< (480 - 32 * k))) ||| (d.setWidth 512 <<< (480 - 32 * k))

/-- `be(bytes)`: the unsigned integer whose big-endian byte string is `bytes`, 0 for the empty string
(00_scope R11). -/
def be (bytes : List Byte) : Nat := bytes.foldl (fun acc b => acc * 256 + b.toNat) 0

/-- The wide value with the given byte view, byte 0 first (42_hash R210). -/
def ofBytes (bytes : List Byte) : Wide := BitVec.ofNat 512 (be bytes)

/-- The wide value with the given word view, word 0 first (42_hash R210). -/
def ofWords (words : List HashWord) : Wide :=
  BitVec.ofNat 512 (words.foldl (fun acc q => acc * 2 ^ 64 + q.toNat) 0)

end Sys2Proof.Machine
end

