-- ==== Sys2Proof/Machine/Streebog.lean ====
section
/-!
DEFINITION. The functions of the hash core (42_hash section 3).
-/

namespace Sys2Proof.Machine

/-- `S(v)`: `PI` on every byte (42_hash R216). -/
def subst (v : Wide) : Wide :=
  ofBytes ((List.range 64).map fun j => piOf (byteOf v j))

/-- `Pm(v)`: byte `j` of the result is byte `TAU[j]` of `v` (42_hash R217). -/
def permute (v : Wide) : Wide :=
  ofBytes ((List.range 64).map fun j => byteOf v (tauOf j))

/-- The XOR of the rows whose selecting bit of `x` is 1, the first row selected by bit `n`, the next by bit
`n - 1`, and so on (42_hash R219). -/
def linRows (x : HashWord) : List HashWord → Nat → HashWord
  | [], _ => 0
  | row :: rows, n =>
    if x.getLsbD n then row ^^^ linRows x rows (n - 1) else linRows x rows (n - 1)

/-- `lin(x)`: bit `63 - i` of `x` selects `AMAT[i]` (42_hash R219). -/
def lin (x : HashWord) : HashWord := linRows x amat 63

/-- `L(v)`: `lin` on each of the eight words (42_hash R219). -/
def linear (v : Wide) : Wide :=
  ofWords ((List.range 8).map fun j => lin (wordOf v j))

/-- `LPS(v) = L(Pm(S(v)))` (42_hash R220). -/
def lpsOf (v : Wide) : Wide := linear (permute (subst v))

/-- `add512(x, y)`: the carry out of bit 511 is dropped (42_hash R218). -/
def add512 (x y : Wide) : Wide := BitVec.ofNat 512 (x.toNat + y.toNat)

/-- The next round subkey from `k` and a round constant (42_hash R221, R227). -/
def nextKey (k c : Wide) : Wide := lpsOf (k ^^^ c)

/-- The rounds of `E`, one for each round constant, on the state `st` and the running key `k`
(42_hash R221). -/
def rounds : List Wide → Wide → Wide → Wide
  | [], st, _ => st
  | c :: cs, st, k => rounds cs (lpsOf st ^^^ nextKey k c) (nextKey k c)

/-- `E(K, m)` (42_hash R221; 90_conflicts C2: the block is XORed with the first key before round 1). -/
def cipher (k m : Wide) : Wide := rounds crnd (k ^^^ m) k

/-- `g(N, h, m)` (42_hash R222). -/
def compress (n h m : Wide) : Wide := cipher (lpsOf (h ^^^ n)) m ^^^ h ^^^ m

/-- `padblock(n, x)` (42_hash R223; 90_conflicts C3). -/
def padblock (n : Nat) (x : Wide) : Wide := BitVec.ofNat 512 (2 ^ (8 * n) + x.toNat % 2 ^ (8 * n))

/-- The document's `HashState` (10_state R24). -/
structure Accum where
  h : Wide
  n : Wide
  sg : Wide
  deriving DecidableEq, Repr

/-- The hash state at the start of a computation (42_hash R229, R231). -/
def Accum.zero : Accum := { h := 0, n := 0, sg := 0 }

/-- The update for a block `m` that carries `bits` message bits (42_hash R229, R232, R233); `g` reads `N`
before it is advanced. -/
def Accum.absorb (st : Accum) (m : Wide) (bits : Nat) : Accum :=
  { h := compress st.n st.h m, n := add512 st.n (BitVec.ofNat 512 bits), sg := add512 st.sg m }

/-- The final partial block of `n` bytes, right-aligned in `x`, and the two finalising compressions
(42_hash R229, R233). -/
def Accum.finish (st : Accum) (n : Nat) (x : Wide) : Wide :=
  let st' := st.absorb (padblock n x) (8 * n)
  compress 0 (compress 0 st'.h st'.n) st'.sg

/-- The full blocks of `hash512`, taken from the end of the message: `q` of them, leaving the leading bytes
(42_hash R229). -/
def hashBlocks : Nat → List Byte → Accum → Accum × List Byte
  | 0, M, st => (st, M)
  | q + 1, M, st =>
    hashBlocks q (M.take (M.length - 64)) (st.absorb (ofBytes (M.drop (M.length - 64))) 512)

/-- `hash512(M)` (42_hash R229). -/
def hash512 (M : List Byte) : Wide :=
  let r := hashBlocks (M.length / 64) M Accum.zero
  r.1.finish r.2.length (ofBytes r.2)

end Sys2Proof.Machine
end

