-- ==== Sys2Proof/Machine/Hash.lean ====
section
/-!
DEFINITION. The commands of the hash core (42_hash section 4).
-/

namespace Sys2Proof.Machine

/-- The hash state registers as the document's `HashState` (10_state R24). -/
def State.accum (s : State) : Accum := { h := s.hh, n := s.hn, sg := s.hs }

/-- `XORW` (42_hash R224). -/
def execXorw (wd : WDst) (wa wb : WSrc) (s : State) : Result :=
  .next (s.setW wd (s.wide wa ^^^ s.wide wb))

/-- `ADDW` (42_hash R225). -/
def execAddw (wd : WDst) (wa wb : WSrc) (s : State) : Result :=
  .next (s.setW wd (add512 (s.wide wa) (s.wide wb)))

/-- `LPS` (42_hash R226). -/
def execLps (wd : WDst) (wa : WSrc) (s : State) : Result := .next (s.setW wd (lpsOf (s.wide wa)))

/-- `KNXT` (42_hash R227). A round number outside 1..12 is no legal word: its fault is the decoder's
(30_encoding R98; log 15). -/
def execKnxt (wd : WDst) (wa : WSrc) (imm6 : BitVec 6) (s : State) : Result :=
  if imm6.toNat < 1 ∨ 12 < imm6.toNat then trap (.knxt wd wa imm6) .illegalField s
  else .next (s.setW wd (nextKey (s.wide wa) (crndOf imm6.toNat)))

/-- `EENC` (42_hash R228). -/
def execEenc (wd : WDst) (wk wm : WSrc) (s : State) : Result :=
  .next (s.setW wd (cipher (s.wide wk) (s.wide wm)))

/-- `GCMP` (42_hash R230). -/
def execGcmp (wd : WDst) (wn wh wm : WSrc) (s : State) : Result :=
  .next (s.setW wd (compress (s.wide wn) (s.wide wh) (s.wide wm)))

/-- `HINIT` (42_hash R231). -/
def execHinit (s : State) : Result := .next s.zeroHash

/-- `HBLK` (42_hash R232). -/
def execHblk (wm : WSrc) (s : State) : Result :=
  .next (s.setHash (s.accum.absorb (s.wide wm) 512).h (s.accum.absorb (s.wide wm) 512).n
    (s.accum.absorb (s.wide wm) 512).sg)

/-- `HFIN` (42_hash R233). -/
def execHfin (wd : WDst) (wm : WSrc) (imm6 : BitVec 6) (s : State) : Result :=
  .next (s.setW wd (s.accum.finish imm6.toNat (s.wide wm))).zeroHash

/-- `HASH` (42_hash R234). -/
def execHash (wd : WDst) (s : State) : Result :=
  withMessage (.hash wd) s fun M => .next (s.setW wd (hash512 M)).zeroHash

end Sys2Proof.Machine
end

