-- ==== Sys2Proof/Machine/Curves.lean ====
section
/-!
DEFINITION. The point functions (41_point section 1). Every sum, difference, product and power is taken modulo
the field modulus `P` (41_point R160); none checks that a point is on the curve.
The formulas are the spec's, which marks them as general knowledge (log 13).
-/

namespace Sys2Proof.Machine

/-- A Jacobian record of coordinates already reduced, with `inf = 0`. -/
def Jacobian.ofNats (x y z : Nat) : Jacobian :=
  { X := BitVec.ofNat 512 x, Y := BitVec.ofNat 512 y, Z := BitVec.ofNat 512 z, inf := false }

/-- `lift(x, y)`: coordinates copied as they are (41_point R172). -/
def lift (x y : Wide) : Jacobian := { X := x, Y := y, Z := 1, inf := false }

/-- `double(J)` (41_point R171). -/
def double (c : Curve) (J : Jacobian) : Jacobian :=
  let p := c.P.toNat
  if J.inf = true ∨ J.Y.toNat % p = 0 then Jacobian.ident
  else
    let x := J.X.toNat
    let y := J.Y.toNat
    let z := J.Z.toNat
    let yy := sqMod y p
    let s := mulMod 4 (mulMod x yy p) p
    let m := addMod (mulMod 3 (sqMod x p) p) (mulMod c.A.toNat (sqMod (sqMod z p) p) p) p
    let x3 := subMod (sqMod m p) (mulMod 2 s p) p
    let y3 := subMod (mulMod m (subMod s x3 p) p) (mulMod 8 (sqMod yy p) p) p
    let z3 := mulMod 2 (mulMod y z p) p
    Jacobian.ofNats x3 y3 z3

/-- The sum of two Jacobian records with different X after normalization, from
`u1`, `s1` (the first point's scaled coordinates), the differences `h`, `r`, and the product `z` of the two Z
(41_point R173, R175). -/
def chordSum (p u1 s1 h r z : Nat) : Jacobian :=
  let hh := sqMod h p
  let hhh := mulMod hh h p
  let v := mulMod u1 hh p
  let x3 := subMod (subMod (sqMod r p) hhh p) (mulMod 2 v p) p
  let y3 := subMod (mulMod r (subMod v x3 p) p) (mulMod s1 hhh p) p
  let z3 := mulMod h z p
  Jacobian.ofNats x3 y3 z3

/-- `mixed_add(J, (x2, y2))` (41_point R173). -/
def mixedAdd (c : Curve) (J : Jacobian) (x2 y2 : Wide) : Jacobian :=
  if J.inf then lift x2 y2
  else
    let p := c.P.toNat
    let z := J.Z.toNat
    let zz := sqMod z p
    let u2 := mulMod x2.toNat zz p
    let s2 := mulMod y2.toNat (mulMod zz z p) p
    let h := subMod u2 J.X.toNat p
    let r := subMod s2 J.Y.toNat p
    if h = 0 then if r = 0 then double c J else Jacobian.ident
    else chordSum p J.X.toNat J.Y.toNat h r z

/-- `jacobi_add(J1, J2)` (41_point R175); that it adds the multiples of the base point is R193. -/
def jacobiAdd (c : Curve) (J1 J2 : Jacobian) : Jacobian :=
  if J1.inf then J2
  else if J2.inf then J1
  else
    let p := c.P.toNat
    let z1 := J1.Z.toNat
    let z2 := J2.Z.toNat
    let zz1 := sqMod z1 p
    let zz2 := sqMod z2 p
    let u1 := mulMod J1.X.toNat zz2 p
    let u2 := mulMod J2.X.toNat zz1 p
    let s1 := mulMod J1.Y.toNat (mulMod zz2 z2 p) p
    let s2 := mulMod J2.Y.toNat (mulMod zz1 z1 p) p
    let h := subMod u2 u1 p
    let r := subMod s2 s1 p
    if h = 0 then if r = 0 then double c J1 else Jacobian.ident
    else chordSum p u1 s1 h r (mulMod z1 z2 p)

/-- `to_affine(J)`; `none` is "no representation" (41_point R176), as of the identity (R193). -/
def toAffine (c : Curve) (J : Jacobian) : Option (Wide × Wide) :=
  let p := c.P.toNat
  if J.inf = true ∨ J.Z.toNat % p = 0 then none
  else match invMod J.Z.toNat p with
    | none => none
    | some zi =>
      let zz := sqMod zi p
      some (BitVec.ofNat 512 (mulMod J.X.toNat zz p),
            BitVec.ofNat 512 (mulMod J.Y.toNat (mulMod zz zi p) p))

/-- The bit loop of `scalar_mult` from bit `n - 1` down to bit 0, on the running result (41_point R191). -/
def scalarLoop (c : Curve) (k : Nat) (x y : Wide) : Nat → Jacobian → Jacobian
  | 0, R => R
  | n + 1, R =>
    scalarLoop c k x y n (if k.testBit n then mixedAdd c (double c R) x y else double c R)

/-- `len(k)`: the number of bits of `k`, 0 for 0 (41_point R191). -/
def bitLength (k : Nat) : Nat := if k = 0 then 0 else Nat.log2 k + 1

/-- `scalar_mult(k, (x, y))`; the scalar is not reduced (41_point R191). The properties 41_point R193 asks of it
are stated by `Obligations.MultiplesOfTheBasePointAdd`. -/
def scalarMult (c : Curve) (k : Nat) (x y : Wide) : Jacobian :=
  scalarLoop c k x y (bitLength k) Jacobian.ident

end Sys2Proof.Machine
end

