-- ==== Sys2Proof/Machine/Flags.lean ====
section
/-!
DEFINITION. The flags of the machine (10_state R30) and the words the host reads them in (10_state R31). There
are no condition codes; a command's only flags are the `inf` and `absent` bits of the records it writes.
-/

namespace Sys2Proof.Machine

/-- `STATUS`: `ERR` in bit 0, bits 31:1 zero (10_state R31, R33). -/
def State.statusWord (s : State) : BusWord := if s.err then 1 else 0

/-- `ERRCODE`: `CODE` in bits 7:0, bits 31:8 zero (10_state R31, R34). -/
def State.errCodeWord (s : State) : BusWord := s.errCode.setWidth 32

/-- One flag in bit `n` of a bus word. -/
def flagBit (b : Bool) (n : Nat) : BusWord := if b then 1#32 <<< n else 0

/-- `PFLAGS`: bit `i` is `j[i].inf`, bit `8+i` is `a[i].absent`, every other bit 0 (10_state R37). -/
def State.pflags (s : State) : BusWord :=
  flagBit s.j[0].inf 0 ||| flagBit s.j[1].inf 1 ||| flagBit s.j[2].inf 2 ||| flagBit s.j[3].inf 3 |||
  flagBit s.a[0].absent 8 ||| flagBit s.a[1].absent 9 ||| flagBit s.a[2].absent 10 |||
  flagBit s.a[3].absent 11

/-- The affine record of a conversion's result: absent where there is no representation (41_point R180). -/
def affineOf : Option (Wide × Wide) → Affine
  | some (x, y) => { X := x, Y := y, absent := false }
  | none => Affine.none

end Sys2Proof.Machine
end

