-- ==== Sys2Proof/Machine/Point.lean ====
section
/-!
DEFINITION. The commands of the point arithmetic engine (41_point section 2). The flags `inf` and `absent` a
command writes are part of the record it writes (10_state R30).
-/

namespace Sys2Proof.Machine

/-- `PDBL` (41_point R177). -/
def execPdbl (jd ja : JReg) (s : State) : Result :=
  .next (s.setJ jd (double s.params.curve (s.jac ja)))

/-- `PMADD` (41_point R178). -/
def execPmadd (jd ja : JReg) (ab : ASrc) (s : State) : Result :=
  withPoint (.pmadd jd ja ab) ab s fun x y =>
    .next (s.setJ jd (mixedAdd s.params.curve (s.jac ja) x y))

/-- `PJADD` (41_point R179). -/
def execPjadd (jd ja jb : JReg) (s : State) : Result :=
  .next (s.setJ jd (jacobiAdd s.params.curve (s.jac ja) (s.jac jb)))

/-- `PAFF` (41_point R180). -/
def execPaff (ad : ADst) (ja : JReg) (s : State) : Result :=
  .next (s.setA ad (affineOf (toAffine s.params.curve (s.jac ja))))

/-- `PSMUL` (41_point R190). -/
def execPsmul (jd : JReg) (wk : WSrc) (ab : ASrc) (s : State) : Result :=
  withPoint (.psmul jd wk ab) ab s fun x y =>
    .next (s.setJ jd (scalarMult s.params.curve (s.wide wk).toNat x y))

/-- `PLIFT` (41_point R181). -/
def execPlift (jd : JReg) (aa : ASrc) (s : State) : Result :=
  withPoint (.plift jd aa) aa s fun x y => .next (s.setJ jd (lift x y))

/-- `JSET` (41_point R182). -/
def execJset (jd : JReg) (wx wy wz : WSrc) (s : State) : Result :=
  .next (s.setJ jd { X := s.wide wx, Y := s.wide wy, Z := s.wide wz, inf := false })

/-- `JINF` (41_point R183). -/
def execJinf (jd : JReg) (s : State) : Result := .next (s.setJ jd Jacobian.ident)

/-- `JGETX` (41_point R184). -/
def execJgetx (wd : WDst) (ja : JReg) (s : State) : Result := .next (s.setW wd (s.jac ja).X)

/-- `JGETY` (41_point R185). -/
def execJgety (wd : WDst) (ja : JReg) (s : State) : Result := .next (s.setW wd (s.jac ja).Y)

/-- `JGETZ` (41_point R186). -/
def execJgetz (wd : WDst) (ja : JReg) (s : State) : Result := .next (s.setW wd (s.jac ja).Z)

/-- `ASET` (41_point R187). -/
def execAset (ad : ADst) (wx wy : WSrc) (s : State) : Result :=
  .next (s.setA ad { X := s.wide wx, Y := s.wide wy, absent := false })

/-- `AABS` (41_point R188). -/
def execAabs (ad : ADst) (s : State) : Result := .next (s.setA ad Affine.none)

/-- `AGETX` (41_point R189). -/
def execAgetx (wd : WDst) (aa : ASrc) (s : State) : Result :=
  withPoint (.agetx wd aa) aa s fun x _ => .next (s.setW wd x)

/-- `AGETY` (41_point R192). -/
def execAgety (wd : WDst) (aa : ASrc) (s : State) : Result :=
  withPoint (.agety wd aa) aa s fun _ y => .next (s.setW wd y)

end Sys2Proof.Machine
end

