-- ==== Sys2Proof/Machine/Signature.lean ====
section
/-!
DEFINITION. The random source's draws and the functions of the signature protocol (43_protocol section 1).
-/

namespace Sys2Proof.Machine

/-- `Draw()`: the next answer of the source, and the rest of its stream (43_protocol R261). -/
def RandomSource.draw (r : RandomSource) : Draw × RandomSource :=
  match r.ahead with
  | d :: ds => (d, { r with ahead := ds })
  | [] =>
    match r.tail with
    | .fails => (.fail, r)
    | .repeats d ds => (d, { r with ahead := ds })
    | .free n => (Config.freeDraw n, { r with tail := .free (n + 1) })

/-- The next `n` answers of the source, and the stream after them. -/
def drawMany : Nat → RandomSource → List Draw × RandomSource
  | 0, r => ([], r)
  | n + 1, r => (r.draw.1 :: (drawMany n r.draw.2).1, (drawMany n r.draw.2).2)

/-- `DrawRange()`: a value of `[1, Q-1]`, or nothing where it raises `ERR_RANDOMNESS`; the draw is consumed
either way (43_protocol R261; 93_implementation_defined U10). -/
def drawRange (c : Curve) (r : RandomSource) : Option Wide × RandomSource :=
  match r.draw with
  | (.fail, r') => (none, r')
  | (.value x, r') =>
    (if x.toNat < 1 ∨ c.Q.toNat - 1 < x.toNat then none else some x, r')

/-- `e_of(H)` (43_protocol R262). -/
def eOf (c : Curve) (H : Wide) : Nat :=
  if redMod H.toNat c.Q.toNat = 0 then 1 else redMod H.toNat c.Q.toNat

/-- One attempt of the signing loop with the draw `k`; `none` is a retry (43_protocol R265). -/
def signAttempt (c : Curve) (d e : Nat) (k : Wide) : Option (Wide × Wide) :=
  let q := c.Q.toNat
  match toAffine c (scalarMult c k.toNat c.GX c.GY) with
  | none => none
  | some (x, _) =>
    let r := redMod x.toNat q
    if r = 0 then none
    else
      let s := addMod (mulMod r d q) (mulMod k.toNat e q) q
      if s = 0 then none else some (BitVec.ofNat 512 r, BitVec.ofNat 512 s)

/-- How the signing loop ends. -/
inductive SignEnd where
  /-- a signature, and the stream after the draws made -/
  | signed (r s : Wide) (rest : RandomSource)
  /-- `ERR_RANDOMNESS`, and the stream after the draws made -/
  | failed (rest : RandomSource)
  /-- never: every draw leads to a retry (93_implementation_defined U7) -/
  | endless
  deriving DecidableEq, Repr

/-- The signing loop, at most `n` attempts; `whenSpent` says what it is to have made them all
(43_protocol R265). -/
def signLoop (c : Curve) (d e : Nat) (whenSpent : RandomSource → SignEnd) : Nat → RandomSource → SignEnd
  | 0, src => whenSpent src
  | n + 1, src =>
    match drawRange c src with
    | (none, src') => .failed src'
    | (some k, src') =>
      match signAttempt c d e k with
      | some (r, s) => .signed r s src'
      | none => signLoop c d e whenSpent n src'

/-- The signing loop with no bound on the attempts (43_protocol R265): nothing where it never ends, which is what
the least fixed point of the loop's own equation says. -/
def signFrom (c : Curve) (d e : Nat) (src : RandomSource) : Option SignEnd :=
  match drawRange c src with
  | (none, src') => some (.failed src')
  | (some k, src') =>
    match signAttempt c d e k with
    | some (r, s) => some (.signed r s src')
    | none => signFrom c d e src'
partial_fixpoint

/-- `sign(d)` on the digest `H` (43_protocol R265). With `SIGN_ATTEMPT_CAP` set, its exhaustion is
`ERR_RANDOMNESS`; unset, the loop has no bound, and its first attempts are written out so that a finite stream
can be evaluated to its end. -/
def signOf (c : Curve) (cap : Option Nat) (d : Nat) (H : Wide) (src : RandomSource) : SignEnd :=
  match cap with
  | some n => signLoop c d (eOf c H) .failed n src
  | none =>
    signLoop c d (eOf c H) (fun rest => (signFrom c d (eOf c H) rest).getD .endless)
      (src.ahead.length + 1) src

/-- `verify(r, s, (xq, yq))` on the digest `H` (43_protocol R267). -/
def verifyOf (c : Curve) (H r s xq yq : Wide) : Bool :=
  let q := c.Q.toNat
  if r.toNat < 1 ∨ q - 1 < r.toNat ∨ s.toNat < 1 ∨ q - 1 < s.toNat then false
  else
    match invMod (eOf c H) q with
    | none => false
    | some v =>
      let z1 := mulMod s.toNat v q
      let z2 := q - mulMod r.toNat v q
      match toAffine c (jacobiAdd c (scalarMult c z1 c.GX c.GY) (scalarMult c z2 xq yq)) with
      | none => false
      | some (x, _) => decide (redMod x.toNat q = r.toNat)

end Sys2Proof.Machine
end

