-- ==== Sys2Proof/Machine/Protocol.lean ====
section
/-!
DEFINITION. The commands of the signature sequencer (43_protocol section 2). They use hidden temporaries, not
the point registers, and leave behind their destinations, the hash state and the position of the stream
(43_protocol R260).
-/

namespace Sys2Proof.Machine

/-- `KEYGEN` (43_protocol R264). -/
def execKeygen (wd : WDst) (ad : ADst) (s : State) : Result :=
  match drawRange s.params.curve s.source with
  | (none, rest) => trap (.keygen wd ad) .randomness (s.setSource rest)
  | (some d, rest) =>
    match toAffine s.params.curve
        (scalarMult s.params.curve d.toNat s.params.curve.GX s.params.curve.GY) with
    | none => trap (.keygen wd ad) .domain (s.setSource rest)
    | some (x, y) =>
      .next (((s.setSource rest).setW wd d).setA ad { X := x, Y := y, absent := false })

/-- `SIGN` (43_protocol R266). One destination named twice is no legal word: its fault is the decoder's
(30_encoding R98; log 15). Where the loop never ends the command is in progress for ever: it writes nothing but
the draws it has made (93_implementation_defined U7), a free number of them (log 9). -/
def execSign (wr ws : WDst) (wd : WSrc) (s : State) : Result :=
  if wr = ws then trap (.sign wr ws wd) .illegalField s
  else withMessage (.sign wr ws wd) s fun M =>
    match signOf s.params.curve s.params.signCap (s.wide wd).toNat (hash512 M) s.source with
    | .signed r sg rest => .next (((s.setSource rest).setW wr r).setW ws sg).zeroHash
    | .failed rest => trap (.sign wr ws wd) .randomness (s.setSource rest)
    | .endless =>
      .next ((s.setSource (drawMany (Config.stuckDraws s.pending.length) s.source).2).setSigning
        (some { wr := wr, ws := ws, wd := wd }))

/-- `VERIFY` (43_protocol R268): `ERR_ABSENT` is checked before `ERR_MSGLEN`. -/
def execVerify (wd : WDst) (wr ws : WSrc) (ap : ASrc) (s : State) : Result :=
  withPoint (.verify wd wr ws ap) ap s fun xq yq =>
    withMessage (.verify wd wr ws ap) s fun M =>
      .next (s.setW wd
        (if verifyOf s.params.curve (hash512 M) (s.wide wr) (s.wide ws) xq yq then 1 else 0)).zeroHash

end Sys2Proof.Machine
end

