-- ==== Sys2Proof/Machine/Dispatch.lean ====
section
/-! DEFINITION. One arm per command: the meaning of each (30_encoding R94). -/

namespace Sys2Proof.Machine

def exec (i : Instr) (s : State) : Host.Outcome State Fault Refusal :=
  match i with
  | .addm wd wa wb wm => Sys2Proof.Machine.execAddm wd wa wb wm s
  | .subm wd wa wb wm => Sys2Proof.Machine.execSubm wd wa wb wm s
  | .mulm wd wa wb wm => Sys2Proof.Machine.execMulm wd wa wb wm s
  | .sqrm wd wa wm => Sys2Proof.Machine.execSqrm wd wa wm s
  | .redm wd wa wm => Sys2Proof.Machine.execRedm wd wa wm s
  | .invm wd wa wm => Sys2Proof.Machine.execInvm wd wa wm s
  | .movw wd wa => Sys2Proof.Machine.execMovw wd wa s
  | .liw wd imm21 => Sys2Proof.Machine.execLiw wd imm21 s
  | .pdbl jd ja => Sys2Proof.Machine.execPdbl jd ja s
  | .pmadd jd ja ab => Sys2Proof.Machine.execPmadd jd ja ab s
  | .pjadd jd ja jb => Sys2Proof.Machine.execPjadd jd ja jb s
  | .paff ad ja => Sys2Proof.Machine.execPaff ad ja s
  | .psmul jd wk ab => Sys2Proof.Machine.execPsmul jd wk ab s
  | .plift jd aa => Sys2Proof.Machine.execPlift jd aa s
  | .jset jd wx wy wz => Sys2Proof.Machine.execJset jd wx wy wz s
  | .jinf jd => Sys2Proof.Machine.execJinf jd s
  | .jgetx wd ja => Sys2Proof.Machine.execJgetx wd ja s
  | .jgety wd ja => Sys2Proof.Machine.execJgety wd ja s
  | .jgetz wd ja => Sys2Proof.Machine.execJgetz wd ja s
  | .aset ad wx wy => Sys2Proof.Machine.execAset ad wx wy s
  | .aabs ad => Sys2Proof.Machine.execAabs ad s
  | .agetx wd aa => Sys2Proof.Machine.execAgetx wd aa s
  | .agety wd aa => Sys2Proof.Machine.execAgety wd aa s
  | .xorw wd wa wb => Sys2Proof.Machine.execXorw wd wa wb s
  | .addw wd wa wb => Sys2Proof.Machine.execAddw wd wa wb s
  | .lps wd wa => Sys2Proof.Machine.execLps wd wa s
  | .knxt wd wa imm6 => Sys2Proof.Machine.execKnxt wd wa imm6 s
  | .eenc wd wk wm => Sys2Proof.Machine.execEenc wd wk wm s
  | .gcmp wd wn wh wm => Sys2Proof.Machine.execGcmp wd wn wh wm s
  | .hinit => Sys2Proof.Machine.execHinit s
  | .hblk wm => Sys2Proof.Machine.execHblk wm s
  | .hfin wd wm imm6 => Sys2Proof.Machine.execHfin wd wm imm6 s
  | .hash wd => Sys2Proof.Machine.execHash wd s
  | .keygen wd ad => Sys2Proof.Machine.execKeygen wd ad s
  | .sign wr ws wd => Sys2Proof.Machine.execSign wr ws wd s
  | .verify wd wr ws ap => Sys2Proof.Machine.execVerify wd wr ws ap s

end Sys2Proof.Machine
end

