-- ==== Sys2Proof/Machine/Port.lean ====
section
/-!
DEFINITION. The host port (20_memory sections 1 to 3): the address map, the two transactions, the issue of a
command, and the reset event.
-/

namespace Sys2Proof.Machine

/-- What stands at a mapped address (20_memory R61). -/
inductive PortSlot where
  | cmd
  | status
  | errCode
  | errCmd
  | errClr
  | pflags
  | mlen
  /-- bus word `k` of a wide index -/
  | wide (r : WSrc) (k : Nat)
  /-- the four message bytes from offset `k` -/
  | msg (k : Nat)
  deriving DecidableEq, Repr

/-- The address map (20_memory R61), on a block with `MSG_CAP = cap`: nothing for a misaligned or an unmapped
address (R67, R70). -/
def slotOf (cap : Nat) (addr : HostAddr) : Option PortSlot :=
  let n := addr.toNat
  if n % 4 ≠ 0 then none
  else if n = 0x0000 then some .cmd
  else if n = 0x0004 then some .status
  else if n = 0x0008 then some .errCode
  else if n = 0x000C then some .errCmd
  else if n = 0x0010 then some .errClr
  else if n = 0x0014 then some .pflags
  else if n = 0x0018 then some .mlen
  else if 0x0400 ≤ n ∧ n < 0x0A40 then
    (wideOfIndex ((n - 0x0400) / 64)).map fun r => .wide r ((n - 0x0400) % 64 / 4)
  else if 0x8000 ≤ n ∧ n - 0x8000 + 3 < cap then some (.msg (n - 0x8000))
  else none

/-- The value a read of a slot returns; nothing where the slot is write-only (20_memory R63; 10_state R31). -/
def slotRead (s : State) : PortSlot → Option BusWord
  | .cmd => none
  | .status => some s.statusWord
  | .errCode => some s.errCodeWord
  | .errCmd => some s.errCmd
  | .errClr => none
  | .pflags => some s.pflags
  | .mlen => some s.mlen
  | .wide r k => some (busWordOf (s.wide r) k)
  | .msg k => some (s.msg.readBus k)

/-- `HostRead32(addr)` (20_memory R63): its answer; it changes no state (R69). -/
def hostRead (s : State) (addr : HostAddr) : Reply :=
  match (slotOf s.params.msgCap addr).bind (slotRead s) with
  | some d => .data d
  | none => .busError

/-- A word written to `CMD` (10_state R32; 30_encoding R95; 60_exceptions R296): dropped while `ERR = 1`, a
decode fault, or the command's own rule. -/
def issue (word : Command) (s : State) : Result :=
  if s.err then .next s
  else match decode word with
    | .illegalOp => .next (s.raise .illegalOp word)
    | .illegalField => .next (s.raise .illegalField word)
    | .instr i => exec i s

/-- The effect of a write to a slot; nothing where the slot is read-only (20_memory R64). -/
def slotWrite (s : State) (data : BusWord) : PortSlot → Option Result
  | .cmd => some (issue data s)
  | .status => none
  | .errCode => none
  | .errCmd => none
  | .errClr => some (.next (if data.getLsbD 0 then s.clearError else s))
  | .pflags => none
  | .mlen => some (.next { s with mlen := data })
  | .wide (.gen i) k => some (.next (s.setW i (setBusWord s.w[i] k data)))
  | .wide _ _ => none
  | .msg k => some (.next { s with msg := s.msg.writeBus k data })

/-- The port's answer recorded. -/
def State.answer (s : State) (r : Reply) : State := { s with replies := r :: s.replies }

/-- The end of a write that was taken: it is answered `ok`, a command's fault included (60_exceptions R293). A
write whose SIGN never completes is not answered (93_implementation_defined U7). -/
def completeWrite : Result → Result
  | .next t => .next (if t.signing.isSome then t else t.answer .ok)
  | .fault r => .fault r
  | .refused r => .refused r

/-- `HostWrite32(addr, data)` (20_memory R64): a refused write changes nothing (R70). -/
def hostWrite (s : State) (addr : HostAddr) (data : BusWord) : Result :=
  match (slotOf s.params.msgCap addr).bind (slotWrite s data) with
  | some r => completeWrite r
  | none => .next (s.answer .busError)

/-- A reset event (70_reset_and_hazards R330, R331); a command in progress writes nothing afterwards (R332). -/
def resetEvent (s : State) : Result := .next (State.resetOf s.params s.source s.pending s.replies)

/-- One host event served (20_memory R60; 70_reset_and_hazards R330, R331). -/
def serve (e : HostEvent) (s : State) : Result :=
  match e with
  | .read addr => .next (s.answer (hostRead s addr))
  | .write addr data => hostWrite s addr data
  | .reset => resetEvent s

/-- Behind a SIGN that never completes no later transaction is performed; reset ends it
(93_implementation_defined U7; 70_reset_and_hazards R332). -/
def stuckStep (s : State) : Result :=
  match s.pending with
  | .reset :: rest => resetEvent { s with pending := rest }
  | _ => .next s

/-- One step: the next host event is taken off the list, unless a SIGN that never completes stands in its way;
with none pending the block holds its state (70_reset_and_hazards R330; 60_exceptions R315). -/
def serveNext (s : State) : Result :=
  match s.signing with
  | some _ => stuckStep s
  | none =>
    match s.pending with
    | [] => .next s
    | e :: rest => serve e { s with pending := rest }

/-- The state in which the very next step issues the command word `word`: the write of `word` to `CMD` is the
next host event, no command is in progress, and no earlier fault is left to drop it (log 1). -/
def State.withCommand (s : State) (word : Command) : State :=
  { s.clearError with signing := none, pending := .write 0x0000 word :: s.pending }

end Sys2Proof.Machine
end

