-- ==== Sys2Proof/Machine/Step.lean ====
section
/-! DEFINITION. The step: one host-port transaction, one reset event (00_scope R4; 70_reset_and_hazards R332); or none,
where nothing is pending or a SIGN that never completes stands in the way. -/

namespace Sys2Proof.Machine

/-- One step of the machine. -/
def step (s : State) : Host.Outcome State Fault Refusal := serveNext s

/-- The state in which the next step runs the command word `w` (its bits above `nbits` zero). -/
def State.withFetchWord (s : State) (nbits w : Nat) : State :=
  s.withCommand (BitVec.ofNat 32 (w % 2 ^ nbits))

end Sys2Proof.Machine
end

