-- ==== Sys2Proof/Machine/OpcodeTable.lean ====
section
/-!
DEFINITION. The opcode map of 30_encoding R94 as a table of rows, read independently of the decoder: the class
of each field and what is legal in it (R92, R98). Statements hold the decoder against it.
-/

namespace Sys2Proof.Machine

/-- The classes of a register field (30_encoding R92). -/
inductive FieldClass where
  | wd | ws | j | ad | as | zero
  deriving DecidableEq, Repr

/-- The values of `imm6` a row accepts (30_encoding R93, R98). -/
inductive ImmClass where
  | zero | round | count
  deriving DecidableEq, Repr

/-- A row of the table. -/
inductive OpRow where
  | formatR (f1 f2 f3 f4 : FieldClass) (imm6 : ImmClass)
  /-- SIGN's row, whose `f1` and `f2` must differ -/
  | formatRDistinct (f1 f2 f3 f4 : FieldClass) (imm6 : ImmClass)
  | formatI (f1 : FieldClass)
  deriving DecidableEq, Repr

/-- The row of an opcode, nothing where it is unassigned (30_encoding R94, R97). -/
def rowOf : Nat → Option OpRow
  | 0x01 => some (.formatR .wd .ws .ws .ws .zero) -- ADDM
  | 0x02 => some (.formatR .wd .ws .ws .ws .zero) -- SUBM
  | 0x03 => some (.formatR .wd .ws .ws .ws .zero) -- MULM
  | 0x04 => some (.formatR .wd .ws .zero .ws .zero) -- SQRM
  | 0x05 => some (.formatR .wd .ws .zero .ws .zero) -- REDM
  | 0x06 => some (.formatR .wd .ws .zero .ws .zero) -- INVM
  | 0x07 => some (.formatR .wd .ws .zero .zero .zero) -- MOVW
  | 0x08 => some (.formatI .wd) -- LIW
  | 0x10 => some (.formatR .j .j .zero .zero .zero) -- PDBL
  | 0x11 => some (.formatR .j .j .as .zero .zero) -- PMADD
  | 0x12 => some (.formatR .j .j .j .zero .zero) -- PJADD
  | 0x13 => some (.formatR .ad .j .zero .zero .zero) -- PAFF
  | 0x14 => some (.formatR .j .ws .as .zero .zero) -- PSMUL
  | 0x15 => some (.formatR .j .as .zero .zero .zero) -- PLIFT
  | 0x16 => some (.formatR .j .ws .ws .ws .zero) -- JSET
  | 0x17 => some (.formatR .j .zero .zero .zero .zero) -- JINF
  | 0x18 => some (.formatR .wd .j .zero .zero .zero) -- JGETX
  | 0x19 => some (.formatR .wd .j .zero .zero .zero) -- JGETY
  | 0x1A => some (.formatR .wd .j .zero .zero .zero) -- JGETZ
  | 0x1B => some (.formatR .ad .ws .ws .zero .zero) -- ASET
  | 0x1C => some (.formatR .ad .zero .zero .zero .zero) -- AABS
  | 0x1D => some (.formatR .wd .as .zero .zero .zero) -- AGETX
  | 0x1E => some (.formatR .wd .as .zero .zero .zero) -- AGETY
  | 0x20 => some (.formatR .wd .ws .ws .zero .zero) -- XORW
  | 0x21 => some (.formatR .wd .ws .ws .zero .zero) -- ADDW
  | 0x22 => some (.formatR .wd .ws .zero .zero .zero) -- LPS
  | 0x23 => some (.formatR .wd .ws .zero .zero .round) -- KNXT
  | 0x24 => some (.formatR .wd .ws .ws .zero .zero) -- EENC
  | 0x25 => some (.formatR .wd .ws .ws .ws .zero) -- GCMP
  | 0x28 => some (.formatR .zero .zero .zero .zero .zero) -- HINIT
  | 0x29 => some (.formatR .zero .ws .zero .zero .zero) -- HBLK
  | 0x2A => some (.formatR .wd .ws .zero .zero .count) -- HFIN
  | 0x2B => some (.formatR .wd .zero .zero .zero .zero) -- HASH
  | 0x30 => some (.formatR .wd .ad .zero .zero .zero) -- KEYGEN
  | 0x31 => some (.formatRDistinct .wd .wd .ws .zero .zero) -- SIGN
  | 0x32 => some (.formatR .wd .ws .ws .as .zero) -- VERIFY
  | _ => none

/-- The number of legal values of a class: they are those below it (30_encoding R92, R98). -/
def FieldClass.bound : FieldClass → Nat
  | .wd => 16
  | .ws => 25
  | .j => 4
  | .ad => 4
  | .as => 5
  | .zero => 1

/-- `imm6` is legal (30_encoding R93, R98). -/
def ImmClass.legal : ImmClass → Nat → Prop
  | .zero, n => n = 0
  | .round, n => 1 ≤ n ∧ n ≤ 12
  | .count, _ => True

/-- Bits `lo + len - 1` down to `lo` of a command word, as a number (30_encoding R91). -/
def bitsOf (c : Command) (lo len : Nat) : Nat := c.toNat / 2 ^ lo % 2 ^ len

/-- The fields of the word are legal for the row (30_encoding R98). -/
def OpRow.legal (c : Command) : OpRow → Prop
  | .formatR f1 f2 f3 f4 imm =>
    bitsOf c 21 5 < f1.bound ∧ bitsOf c 16 5 < f2.bound ∧ bitsOf c 11 5 < f3.bound ∧
    bitsOf c 6 5 < f4.bound ∧ imm.legal (bitsOf c 0 6)
  | .formatRDistinct f1 f2 f3 f4 imm =>
    bitsOf c 21 5 < f1.bound ∧ bitsOf c 16 5 < f2.bound ∧ bitsOf c 11 5 < f3.bound ∧
    bitsOf c 6 5 < f4.bound ∧ imm.legal (bitsOf c 0 6) ∧ bitsOf c 21 5 ≠ bitsOf c 16 5
  | .formatI f1 => bitsOf c 21 5 < f1.bound

end Sys2Proof.Machine
end

