-- ==== Sys2Proof/Safety.lean ====
section
/-!
DEFINITION. What counts as a safe run, and the terms the statements use: the invariant of the state, the frames
of a command, how a command ends, which commands touch what, the points a record represents, and the draws.
-/

namespace Sys2Proof.Machine

/-! ## Draws (43_protocol section 1) -/

/-- A draw inside the range the block asks for (43_protocol R261). -/
def InRange (c : Curve) (k : Wide) : Prop := 1 ≤ k.toNat ∧ k.toNat ≤ c.Q.toNat - 1

/-- The answer number `n` of the source, counted from 0. -/
def RandomSource.answer : Nat → RandomSource → Draw
  | 0, r => r.draw.1
  | n + 1, r => RandomSource.answer n r.draw.2

/-- A draw that makes the signing loop retry with private scalar `d` and hash value `e`: a value of the range
whose point has no affine form, or gives `r = 0`, or gives `s = 0` (43_protocol R265). -/
def Retries (c : Curve) (d e : Nat) (z : Draw) : Prop :=
  ∃ k, z = .value k ∧ InRange c k ∧
    (toAffine c (scalarMult c k.toNat c.GX c.GY) = none ∨
     ∃ x y, toAffine c (scalarMult c k.toNat c.GX c.GY) = some (x, y) ∧
      (x.toNat % c.Q.toNat = 0 ∨
       (x.toNat % c.Q.toNat * d + k.toNat * e) % c.Q.toNat = 0))

/-! ## The invariant -/

/-- What every reachable state satisfies: the parameters meet 00_scope R8; the memory is canonical and holds
only offsets of the message memory (10_state R40); an identity flag marks the canonical identity (41_point
R161) and an absent marker the canonical absent record (10_state R28); the error registers are zero while no
fault is recorded (10_state R34, R35) and hold one of the codes 1 to 8 while one is (60_exceptions R291); a
command in progress is a SIGN that passed its checks, with no attempt cap and no draw left that would end it
(93_implementation_defined U7). -/
structure State.Inv (s : State) : Prop where
  params : s.params.wf = true
  memory : s.msg.wf = true
  offsets : ∀ c ∈ s.msg, c.1 < s.params.msgCap
  identity : ∀ i : JReg, s.j[i].inf = true → s.j[i] = Jacobian.ident
  absent : ∀ i : ADst, s.a[i].absent = true → s.a[i] = Affine.none
  clear : s.err = false → s.errCode = 0 ∧ s.errCmd = 0
  faulted : s.err = true → 1 ≤ s.errCode.toNat ∧ s.errCode.toNat ≤ 8
  progress : ∀ g, s.signing = some g → s.err = false ∧ g.wr ≠ g.ws ∧ s.mlen.toNat ≤ s.params.msgCap ∧
    s.params.signCap = none ∧ ∀ n, Retries s.params.curve (s.wide g.wd).toNat
      (eOf s.params.curve (hash512 (memRead s.msg 0 s.mlen.toNat))) (s.source.answer n)

/-! ## Frames -/

/-- What may differ between a state and the next. -/
structure Scope where
  wide : List WDst := []
  jac : List JReg := []
  aff : List ADst := []
  hash : Bool := false
  error : Bool := false
  source : Bool := false
  signing : Bool := false
  deriving DecidableEq, Repr

/-- Outside the scope `f` nothing differs: every register, flag, error register and byte of the message memory,
the parameters and the environment. -/
structure Frame (f : Scope) (s t : State) : Prop where
  params : t.params = s.params
  wide : ∀ i : WDst, i ∉ f.wide → t.w[i] = s.w[i]
  jac : ∀ i : JReg, i ∉ f.jac → t.j[i] = s.j[i]
  aff : ∀ i : ADst, i ∉ f.aff → t.a[i] = s.a[i]
  hash : f.hash = false → t.hh = s.hh ∧ t.hn = s.hn ∧ t.hs = s.hs
  error : f.error = false → t.err = s.err ∧ t.errCode = s.errCode ∧ t.errCmd = s.errCmd
  source : f.source = false → t.source = s.source
  signing : f.signing = false → t.signing = s.signing
  mlen : t.mlen = s.mlen
  msg : ∀ k, t.msg.read k = s.msg.read k
  pending : t.pending = s.pending
  replies : t.replies = s.replies

/-- Only the general wide register `wd` differs, and it holds `v`. -/
def WritesWide (wd : WDst) (v : Wide) (s t : State) : Prop :=
  t.w[wd] = v ∧ Frame { wide := [wd] } s t

/-- Only the Jacobian register `jd` differs, and it holds `r`. -/
def WritesJac (jd : JReg) (r : Jacobian) (s t : State) : Prop :=
  t.j[jd] = r ∧ Frame { jac := [jd] } s t

/-- Only the affine register `ad` differs, and it holds `r`. -/
def WritesAff (ad : ADst) (r : Affine) (s t : State) : Prop :=
  t.a[ad] = r ∧ Frame { aff := [ad] } s t

/-- The hash state registers hold zero. -/
def HashZero (t : State) : Prop := t.hh = 0 ∧ t.hn = 0 ∧ t.hs = 0

/-- The fault `e` of a command whose word is `word` is recorded (60_exceptions R293). -/
def Records (e : ErrorKind) (word : Command) (t : State) : Prop :=
  t.err = true ∧ t.errCode = e.code ∧ t.errCmd = word

/-- Command `i` faults with `e` and nothing but the error registers differs (60_exceptions R293). -/
def Traps (i : Instr) (e : ErrorKind) (s t : State) : Prop :=
  Records e (encode i) t ∧ Frame { error := true } s t

/-- Command `i` is in progress for ever, with `rest` left of the stream, and nothing else differs: only a SIGN
that never completes is ever in progress (93_implementation_defined U7). -/
def StaysInProgress (i : Instr) (rest : RandomSource) (s t : State) : Prop :=
  (∃ g, t.signing = some g ∧ i = .sign g.wr g.ws g.wd) ∧ t.source = rest ∧
    Frame { source := true, signing := true } s t

/-- As `Traps`, for a fault after draws: the stream's rest is `rest`. -/
def TrapsAfterDraws (i : Instr) (e : ErrorKind) (rest : RandomSource) (s t : State) : Prop :=
  Records e (encode i) t ∧ t.source = rest ∧ Frame { error := true, source := true } s t

end Sys2Proof.Machine

namespace Sys2Proof

open Sys2Proof.Machine

/-! ## What a command may touch -/

/-- The destinations of a command and the other state its rule writes on completion (10_state R22, R24, R25,
R28; 43_protocol R260). -/
def Instr.scope : Instr → Scope
  | .addm wd _ _ _ => { wide := [wd] }
  | .subm wd _ _ _ => { wide := [wd] }
  | .mulm wd _ _ _ => { wide := [wd] }
  | .sqrm wd _ _ => { wide := [wd] }
  | .redm wd _ _ => { wide := [wd] }
  | .invm wd _ _ => { wide := [wd] }
  | .movw wd _ => { wide := [wd] }
  | .liw wd _ => { wide := [wd] }
  | .pdbl jd _ => { jac := [jd] }
  | .pmadd jd _ _ => { jac := [jd] }
  | .pjadd jd _ _ => { jac := [jd] }
  | .paff ad _ => { aff := [ad] }
  | .psmul jd _ _ => { jac := [jd] }
  | .plift jd _ => { jac := [jd] }
  | .jset jd _ _ _ => { jac := [jd] }
  | .jinf jd => { jac := [jd] }
  | .jgetx wd _ => { wide := [wd] }
  | .jgety wd _ => { wide := [wd] }
  | .jgetz wd _ => { wide := [wd] }
  | .aset ad _ _ => { aff := [ad] }
  | .aabs ad => { aff := [ad] }
  | .agetx wd _ => { wide := [wd] }
  | .agety wd _ => { wide := [wd] }
  | .xorw wd _ _ => { wide := [wd] }
  | .addw wd _ _ => { wide := [wd] }
  | .lps wd _ => { wide := [wd] }
  | .knxt wd _ _ => { wide := [wd] }
  | .eenc wd _ _ => { wide := [wd] }
  | .gcmp wd _ _ _ => { wide := [wd] }
  | .hinit => { hash := true }
  | .hblk _ => { hash := true }
  | .hfin wd _ _ => { wide := [wd], hash := true }
  | .hash wd => { wide := [wd], hash := true }
  | .keygen wd ad => { wide := [wd], aff := [ad], source := true }
  | .sign wr ws _ => { wide := [wr, ws], hash := true, source := true }
  | .verify wd _ _ _ => { wide := [wd], hash := true }

/-- The faults a command can raise besides the two decode faults (60_exceptions R292). -/
def Instr.faults : Instr → List ErrorKind
  | .addm _ _ _ _ => [.modulusZero]
  | .subm _ _ _ _ => [.modulusZero]
  | .mulm _ _ _ _ => [.modulusZero]
  | .sqrm _ _ _ => [.modulusZero]
  | .redm _ _ _ => [.modulusZero]
  | .invm _ _ _ => [.modulusZero, .notInvertible]
  | .movw _ _ => []
  | .liw _ _ => []
  | .pdbl _ _ => []
  | .pmadd _ _ _ => [.absent]
  | .pjadd _ _ _ => []
  | .paff _ _ => []
  | .psmul _ _ _ => [.absent]
  | .plift _ _ => [.absent]
  | .jset _ _ _ _ => []
  | .jinf _ => []
  | .jgetx _ _ => []
  | .jgety _ _ => []
  | .jgetz _ _ => []
  | .aset _ _ _ => []
  | .aabs _ => []
  | .agetx _ _ => [.absent]
  | .agety _ _ => [.absent]
  | .xorw _ _ _ => []
  | .addw _ _ _ => []
  | .lps _ _ => []
  | .knxt _ _ _ => []
  | .eenc _ _ _ => []
  | .gcmp _ _ _ _ => []
  | .hinit => []
  | .hblk _ => []
  | .hfin _ _ _ => []
  | .hash _ => [.msgLen]
  | .keygen _ _ => [.randomness, .domain]
  | .sign _ _ _ => [.msgLen, .randomness]
  | .verify _ _ _ _ => [.absent, .msgLen]

/-- The commands that draw from the random source (43_protocol R271). -/
def Instr.draws (i : Instr) : Bool := i.scope.source

end Sys2Proof

namespace Sys2Proof.Machine

/-! ## Runs, the port and the points -/

/-- `n` steps, as far as they answer a next state. -/
def stepMany : Nat → State → Result
  | 0, s => .next s
  | n + 1, s =>
    match step s with
    | .next t => stepMany n t
    | .fault r => .fault r
    | .refused r => .refused r

/-- A list of commands run one after the other, as the data of successive `CMD` writes: a command issued after
a fault is dropped (10_state R32). -/
def issueAll : List Instr → State → Result
  | [], s => .next s
  | i :: is, s =>
    match issue (encode i) s with
    | .next t => issueAll is t
    | .fault r => .fault r
    | .refused r => .refused r

/-- An address `HostRead32` answers with data (20_memory R61, R63). -/
def readable (cap : Nat) (addr : HostAddr) : Prop :=
  addr.toNat % 4 = 0 ∧
    (addr.toNat ∈ [0x0004, 0x0008, 0x000C, 0x0014, 0x0018] ∨
     (0x0400 ≤ addr.toNat ∧ addr.toNat < 0x0A40) ∨
     (0x8000 ≤ addr.toNat ∧ addr.toNat < 0x8000 + cap))

/-- An address `HostWrite32` takes (20_memory R61, R64). -/
def writable (cap : Nat) (addr : HostAddr) : Prop :=
  addr.toNat % 4 = 0 ∧
    (addr.toNat ∈ [0x0000, 0x0010, 0x0018] ∨
     (0x0400 ≤ addr.toNat ∧ addr.toNat < 0x0800) ∨
     (0x8000 ≤ addr.toNat ∧ addr.toNat < 0x8000 + cap))

/-- Feeding blocks to HBLK, each first loaded into the general register `w[wm]` by the host (42_hash R235). -/
def feedBlocks (wm : WDst) : List Wide → State → Result
  | [], s => .next s
  | b :: bs, s =>
    match exec (.hblk (.gen wm)) (s.setW wm b) with
    | .next t => feedBlocks wm bs t
    | .fault r => .fault r
    | .refused r => .refused r

/-- The sixty-four bytes of a wide value, byte 0 first (00_scope R11). -/
def bytesOf (v : Wide) : List Byte := (List.range 64).map (byteOf v)

/-- Montgomery reduction with `R = 2^512`, `m' = -m^-1 mod R` (40_field R129). -/
def redc (m m' T : Nat) : Nat :=
  if m ≤ (T + T % 2 ^ 512 * m' % 2 ^ 512 * m) / 2 ^ 512 then
    (T + T % 2 ^ 512 * m' % 2 ^ 512 * m) / 2 ^ 512 - m
  else (T + T % 2 ^ 512 * m' % 2 ^ 512 * m) / 2 ^ 512

/-- A Jacobian record on the curve, `Y² ≡ X³ + A·X·Z⁴ + B·Z⁶ (mod P)`, or the identity: the affine equation
of 41_point R160 under the representation of 10_state R26. -/
def OnCurve (c : Curve) (J : Jacobian) : Prop :=
  J.inf = true ∨
    (J.Y.toNat ^ 2) % c.P.toNat =
      (J.X.toNat ^ 3 + c.A.toNat * J.X.toNat * J.Z.toNat ^ 4 + c.B.toNat * J.Z.toNat ^ 6) % c.P.toNat

/-- The curve `y² = x³ + A·x + B` over the integers modulo `P` (41_point R160). -/
def weierstrass (c : Curve) : WeierstrassCurve (ZMod c.P.toNat) where
  a₁ := 0
  a₂ := 0
  a₃ := 0
  a₄ := c.A.toNat
  a₆ := c.B.toNat

/-- The Jacobian record `J` represents the point `p` of the curve (10_state R26, R27): the identity with its
flag, any other point as the fractions `X / Z²` and `Y / Z³`. -/
def Represents (c : Curve) (J : Jacobian) (p : (weierstrass c).toAffine.Point) : Prop :=
  (J.inf = true ∧ p = .zero) ∨
  (J.inf = false ∧ ∃ x y h, p = .some x y h ∧ (J.Z.toNat : ZMod c.P.toNat) ≠ 0 ∧
    x * (J.Z.toNat : ZMod c.P.toNat) ^ 2 = J.X.toNat ∧ y * (J.Z.toNat : ZMod c.P.toNat) ^ 3 = J.Y.toNat)

/-- The residue of an integer modulo the field modulus, as a coordinate (41_point R160). -/
def residue (c : Curve) (x : Int) : Wide := BitVec.ofNat 512 (x % (c.P.toNat : Int)).toNat

/-- The record of three integer coordinates taken modulo the field modulus (41_point R160). -/
def residues (c : Curve) (x y z : Int) : Jacobian :=
  { X := residue c x, Y := residue c y, Z := residue c z, inf := false }

/-- The sum of two points from the first point's scaled coordinates `u1`, `s1`, the differences `h`, `r` and
the third coordinate `z`, as integers (the last lines of 41_point R173 and R175). -/
def sumRecord (c : Curve) (u1 s1 h r z : Int) : Jacobian :=
  residues c (r ^ 2 - h ^ 3 - 2 * u1 * h ^ 2)
    (r * (u1 * h ^ 2 - (r ^ 2 - h ^ 3 - 2 * u1 * h ^ 2)) - s1 * h ^ 3) z

end Sys2Proof.Machine
end

