-- ==== Sys2Proof/Certificates/Slice0/Obligations.lean ====
section
/-!
DEFINITION. The statements for the provers. `s.w[i]`, `s.j[i]`, `s.a[i]` read a register; a `Frame` says that
nothing outside its scope differs; `Traps` says that only the error registers differ.
-/

open Sys2Proof Sys2Proof.Machine

/-! ## Encoding (30_encoding) -/

/-- 30_encoding R94, R95: the word of a legal command decodes to that command, with every operand. -/
def Obligations.DecodeOfEncodeIsTheCommand : Prop :=
  ∀ i : Instr, i.wellFormed = true → decode (encode i) = .instr i

/-- 30_encoding R94, R98: a command has one word; a word that decodes is the encoding of what it decodes to. -/
def Obligations.DecodedWordIsItsEncoding : Prop :=
  ∀ (c : Command) (i : Instr), decode c = .instr i → encode i = c ∧ i.wellFormed = true

/-- 30_encoding R94, R95: a word with an assigned opcode and legal fields is a command. -/
def Obligations.LegalWordIsACommand : Prop :=
  ∀ (c : Command) (row : OpRow), rowOf (bitsOf c 26 6) = some row → row.legal c →
    ∃ i, decode c = .instr i

/-- 30_encoding R97. -/
def Obligations.UnassignedOpcodeFaults : Prop :=
  ∀ (c : Command) (s : State), s.err = false →
    bitsOf c 26 6 ∈ [0x00, 0x09, 0x0A, 0x0B, 0x0C, 0x0D, 0x0E, 0x0F, 0x1F, 0x26, 0x27, 0x2C, 0x2D, 0x2E, 0x2F,
      0x33, 0x34, 0x35, 0x36, 0x37, 0x38, 0x39, 0x3A, 0x3B, 0x3C, 0x3D, 0x3E, 0x3F] →
    ∃ t, issue c s = .next t ∧ Records .illegalOp c t ∧ Frame { error := true } s t

/-- 30_encoding R98. -/
def Obligations.IllegalFieldFaults : Prop :=
  ∀ (c : Command) (s : State) (row : OpRow), s.err = false →
    rowOf (bitsOf c 26 6) = some row → ¬ row.legal c →
    ∃ t, issue c s = .next t ∧ Records .illegalField c t ∧ Frame { error := true } s t

/-- Words the spec writes out: eight examples of the command rules, the HFIN word of program P3 (95_test_vectors
section 9), and two illegal words (30_encoding R98, R97; 95_test_vectors sections 7 and 8). -/
def Obligations.WordsOfTheSpecDecode : Prop :=
  decode 0x044008C0 = .instr (.addm 2 (.gen 0) (.gen 1) (.gen 3)) ∧
  decode 0x1CB30000 = .instr (.movw 5 .cq) ∧
  decode 0x201FFFFF = .instr (.liw 0 0x1FFFFF) ∧
  decode 0x44202000 = .instr (.pmadd 1 0 .ag) ∧
  decode 0x58000880 = .instr (.jset 0 (.gen 0) (.gen 1) (.gen 2)) ∧
  decode 0x9477B080 = .instr (.gcmp 3 .hn .hh (.gen 2)) ∧
  decode 0xA8410008 = .instr (.hfin 2 (.gen 1) 8) ∧
  decode 0xC4220000 = .instr (.sign 1 2 (.gen 0)) ∧
  decode 0xC8611000 = .instr (.verify 3 (.gen 1) (.gen 2) (.reg 0)) ∧
  decode 0x8C20000D = .illegalField ∧
  decode 0xFFFFFFFF = .illegalOp

/-! ## The step and the host port (10_state, 20_memory, 60_exceptions) -/

/-- 10_state R32; the decode faults by 60_exceptions R293. The write is answered when its command has ended, in
the one step; a SIGN that never completes is not answered (93_implementation_defined U7). -/
def Obligations.CommandWriteRunsTheCommand : Prop :=
  (∀ (s : State) (word : Command) (rest : List HostEvent),
    s.signing = none → s.pending = .write 0x0000 word :: rest →
    (s.err = true → step s = .next { s with pending := rest, replies := .ok :: s.replies }) ∧
    (s.err = false →
      (∀ i, decode word = .instr i →
        ∃ t, exec i { s with pending := rest } = .next t ∧
          (t.signing = none → step s = .next { t with replies := .ok :: s.replies }) ∧
          (t.signing ≠ none → step s = .next t)) ∧
      (decode word = .illegalOp →
        step s = .next (State.raise { s with pending := rest, replies := .ok :: s.replies }
          .illegalOp word)) ∧
      (decode word = .illegalField →
        step s = .next (State.raise { s with pending := rest, replies := .ok :: s.replies }
          .illegalField word)))) ∧
  (∀ (s : State) (rest : List HostEvent), s.signing = none → s.pending = .read 0x0000 :: rest →
    step s = .next { s with pending := rest, replies := .busError :: s.replies })

/-- 70_reset_and_hazards R330, 60_exceptions R315: with no command in progress and no host event the block holds
its state. -/
def Obligations.IdleStepHoldsTheState : Prop :=
  ∀ s : State, s.signing = none → s.pending = [] → step s = .next s

/-- 93_implementation_defined U7: behind a SIGN that never completes no later transaction is performed; only reset
is taken. That the model steps on in the same state is its choice, log 9. -/
def Obligations.StuckSignServesNoTransaction : Prop :=
  ∀ (s : State) (g : Signing), s.signing = some g → (∀ rest, s.pending ≠ .reset :: rest) →
    step s = .next s

/-- 20_memory R63, with R69: what a read answers, and that it changes nothing. -/
def Obligations.HostReadAnswersTheMappedValue : Prop :=
  ∀ s : State, s.params.wf = true →
    (∀ addr rest, s.signing = none → s.pending = .read addr :: rest →
      step s = .next { s with pending := rest, replies := hostRead s addr :: s.replies }) ∧
    (∀ addr, ¬ readable s.params.msgCap addr → hostRead s addr = .busError) ∧
    hostRead s 0x0004 = .data (if s.err then 1 else 0) ∧
    hostRead s 0x0008 = .data (s.errCode.setWidth 32) ∧
    hostRead s 0x000C = .data s.errCmd ∧
    hostRead s 0x0014 = .data s.pflags ∧
    hostRead s 0x0018 = .data s.mlen ∧
    (∀ (r : WSrc) (k : Nat), k < 16 →
      hostRead s (BitVec.ofNat 16 (0x0400 + 64 * wideIndex r + 4 * k)) =
        .data ((s.wide r).extractLsb' (480 - 32 * k) 32)) ∧
    (∀ k : Nat, k % 4 = 0 → k + 3 < s.params.msgCap →
      hostRead s (BitVec.ofNat 16 (0x8000 + k)) =
        .data (s.msg.read k ++ s.msg.read (k + 1) ++ s.msg.read (k + 2) ++ s.msg.read (k + 3)))

/-- 20_memory R64: what a write stores, and that it changes nothing else. -/
def Obligations.HostWriteStoresTheWord : Prop :=
  ∀ (s : State) (addr : HostAddr) (d : BusWord) (rest : List HostEvent),
    s.params.wf = true → s.msg.wf = true → s.signing = none → s.pending = .write addr d :: rest →
    (¬ writable s.params.msgCap addr →
      step s = .next { s with pending := rest, replies := .busError :: s.replies }) ∧
    (addr = 0x0000 → ∃ t, issue d { s with pending := rest } = .next t ∧
      (t.signing = none → step s = .next { t with replies := .ok :: s.replies }) ∧
      (t.signing ≠ none → step s = .next t)) ∧
    (addr = 0x0010 → step s =
      .next (if d.getLsbD 0 then
          { s with pending := rest, replies := .ok :: s.replies, err := false, errCode := 0, errCmd := 0 }
        else { s with pending := rest, replies := .ok :: s.replies })) ∧
    (addr = 0x0018 → step s =
      .next { s with pending := rest, replies := .ok :: s.replies, mlen := d }) ∧
    (∀ (i : WDst) (k : Nat), k < 16 → addr = BitVec.ofNat 16 (0x0400 + 64 * i.val + 4 * k) →
      ∃ t, step s = .next t ∧
        (∀ n, n < 512 → t.w[i].getLsbD n =
          if 480 - 32 * k ≤ n ∧ n < 512 - 32 * k then d.getLsbD (n - (480 - 32 * k))
          else s.w[i].getLsbD n) ∧
        Frame { wide := [i] } { s with pending := rest, replies := .ok :: s.replies } t) ∧
    (∀ k : Nat, k % 4 = 0 → k + 3 < s.params.msgCap → addr = BitVec.ofNat 16 (0x8000 + k) →
      ∃ m : Memory,
        step s = .next { s with pending := rest, replies := .ok :: s.replies, msg := m } ∧
        m.read k = d.extractLsb' 24 8 ∧ m.read (k + 1) = d.extractLsb' 16 8 ∧
        m.read (k + 2) = d.extractLsb' 8 8 ∧ m.read (k + 3) = d.extractLsb' 0 8 ∧
        ∀ a, a < k ∨ k + 3 < a → m.read a = s.msg.read a)

/-- 20_memory R70: a transaction is refused exactly for the addresses named, and a refusal changes nothing. -/
def Obligations.BusErrorExactlyForRefusedAddresses : Prop :=
  ∀ (s : State) (addr : HostAddr) (d : BusWord) (rest : List HostEvent),
    s.params.wf = true → s.signing = none →
    (s.pending = .read addr :: rest →
      (readable s.params.msgCap addr →
        ∃ v, step s = .next { s with pending := rest, replies := .data v :: s.replies }) ∧
      (¬ readable s.params.msgCap addr →
        step s = .next { s with pending := rest, replies := .busError :: s.replies })) ∧
    (s.pending = .write addr d :: rest →
      (writable s.params.msgCap addr → ∃ t, step s = .next t ∧
        (t.signing = none → t.replies = .ok :: s.replies) ∧
        (t.signing ≠ none → t.replies = s.replies)) ∧
      (¬ writable s.params.msgCap addr →
        step s = .next { s with pending := rest, replies := .busError :: s.replies }))

/-- 10_state R36. -/
def Obligations.ErrclrClearsTheErrorState : Prop :=
  (∀ (s : State) (d : BusWord) (rest : List HostEvent),
    s.signing = none → s.pending = .write 0x0010 d :: rest →
    (d.getLsbD 0 = true → step s = .next { s with
      pending := rest, replies := .ok :: s.replies, err := false, errCode := 0, errCmd := 0 }) ∧
    (d.getLsbD 0 = false → step s = .next { s with pending := rest, replies := .ok :: s.replies })) ∧
  (∀ (s : State) (rest : List HostEvent), s.signing = none → s.pending = .read 0x0010 :: rest →
    step s = .next { s with pending := rest, replies := .busError :: s.replies })

/-- 10_state R37. -/
def Obligations.PflagsShowsTheFlags : Prop :=
  ∀ s : State,
    (∀ i : JReg, s.pflags.getLsbD i.val = s.j[i].inf) ∧
    (∀ i : ADst, s.pflags.getLsbD (8 + i.val) = s.a[i].absent) ∧
    (∀ n, (4 ≤ n ∧ n < 8) ∨ 12 ≤ n → s.pflags.getLsbD n = false) ∧
    (∀ rest, s.signing = none → s.pending = .read 0x0014 :: rest →
      step s = .next { s with pending := rest, replies := .data s.pflags :: s.replies }) ∧
    (∀ d rest, s.signing = none → s.pending = .write 0x0014 d :: rest →
      step s = .next { s with pending := rest, replies := .busError :: s.replies })

/-- 10_state R33, 60_exceptions R297: a recorded fault stays, with its code and word, until the host clears it
or the block is reset. -/
def Obligations.RecordedFaultStaysUntilCleared : Prop :=
  ∀ s t : State, s.err = true → step s = .next t →
    (t.err = true ∧ t.errCode = s.errCode ∧ t.errCmd = s.errCmd) ∨
    (∃ rest, s.pending = .reset :: rest) ∨
    (∃ d rest, s.pending = .write 0x0010 d :: rest ∧ d.getLsbD 0 = true)

/-! ## Whole-machine rules -/

/-- The invariant of the state is kept by every step. -/
def Obligations.StepKeepsTheInvariant : Prop :=
  ∀ s t : State, s.Inv → step s = .next t → t.Inv

/-- The reset state of every legal instance has the invariant, `State.reset` among them. -/
def Obligations.ResetHasTheInvariant : Prop :=
  (∀ p source pending replies, p.wf = true → (State.resetOf p source pending replies).Inv) ∧
  State.reset.Inv

/-- 70_reset_and_hazards R331 (what reset leaves), with the values 10_state R44 gives, whether or not a command is
in progress (R332). Nothing is said of
`w0`..`w15` and `msg`, which R44 leaves unspecified (the model's choice is log 5 and log 6). -/
def Obligations.ResetLeavesTheStatedValues : Prop :=
  ∀ (s : State) (rest : List HostEvent), s.pending = .reset :: rest →
    ∃ t, step s = .next t ∧
      t.params = s.params ∧ t.aff .ag = s.aff .ag ∧ t.source = s.source ∧
      HashZero t ∧ (∀ i : JReg, t.j[i] = Jacobian.ident) ∧ (∀ i : ADst, t.a[i] = Affine.none) ∧
      t.err = false ∧ t.errCode = 0 ∧ t.errCmd = 0 ∧ t.mlen = 0 ∧ t.pflags = 0x00000F0F ∧
      t.signing = none ∧ t.pending = rest

/-- 10_state R23: the curve constants read as CURVE and no step changes them. -/
def Obligations.CurveConstantsNeverChange : Prop :=
  (∀ s : State, s.wide .cp = s.params.curve.P ∧ s.wide .ca = s.params.curve.A ∧
    s.wide .cb = s.params.curve.B ∧ s.wide .cq = s.params.curve.Q ∧
    s.wide .cgx = s.params.curve.GX ∧ s.wide .cgy = s.params.curve.GY) ∧
  (∀ s t : State, step s = .next t → t.params = s.params)

/-- 10_state R24: the only steps that change the hash state. -/
def Obligations.OnlyHashCommandsWriteTheHashState : Prop :=
  ∀ s t : State, step s = .next t → (t.hh ≠ s.hh ∨ t.hn ≠ s.hn ∨ t.hs ≠ s.hs) →
    (∃ rest, s.pending = .reset :: rest) ∨
    (∃ word rest i, s.pending = .write 0x0000 word :: rest ∧ s.err = false ∧ decode word = .instr i ∧
      (i = .hinit ∨ (∃ wm, i = .hblk wm) ∨ (∃ wd wm n, i = .hfin wd wm n) ∨ (∃ wd, i = .hash wd) ∨
       (∃ wr ws wd, i = .sign wr ws wd) ∨ (∃ wd wr ws ap, i = .verify wd wr ws ap)))

/-- 20_memory R62, 10_state R39: no command writes the message memory or MLEN. -/
def Obligations.NoCommandWritesTheMessage : Prop :=
  ∀ (i : Instr) (s t : State), exec i s = .next t → t.msg = s.msg ∧ t.mlen = s.mlen

/-- 43_protocol R271: only KEYGEN and SIGN draw. -/
def Obligations.OnlyKeygenAndSignDraw : Prop :=
  ∀ (i : Instr) (s t : State), exec i s = .next t → t.source ≠ s.source →
    (∃ wd ad, i = .keygen wd ad) ∨ (∃ wr ws wd, i = .sign wr ws wd)

/-- 20_memory R62: message bytes at or beyond MLEN do not influence any command. -/
def Obligations.BytesBeyondMlenDoNotMatter : Prop :=
  ∀ (i : Instr) (s t : State) (m : Memory),
    (∀ k, k < s.mlen.toNat → m.read k = s.msg.read k) →
    exec i s = .next t → exec i { s with msg := m } = .next { t with msg := m }

/-- 60_exceptions R294, R293: a command completes and touches only what its rule writes, or faults and touches
only the error registers (the draws of KEYGEN and SIGN stay consumed); or it is a SIGN that never completes and
has only drawn (93_implementation_defined U7). -/
def Obligations.CommandCompletesOrFaults : Prop :=
  ∀ (i : Instr) (s t : State), exec i s = .next t →
    Frame i.scope s t ∨
    (∃ e, Records e (encode i) t ∧ Frame { error := true, source := i.draws } s t) ∨
    ∃ rest, StaysInProgress i rest s t

/-- 60_exceptions R292. -/
def Obligations.CommandFaultsAreTheListedOnes : Prop :=
  ∀ (i : Instr) (s t : State), i.wellFormed = true → s.err = false → exec i s = .next t → t.err = true →
    ∃ e ∈ i.faults, Records e (encode i) t

/-- No command and no step of the machine stops, in any state (60_exceptions R293, R299;
93_implementation_defined U7 by log 9). -/
def Obligations.EveryStepAnswersANextState : Prop :=
  (∀ (i : Instr) (s : State), ∃ t, exec i s = .next t) ∧ (∀ s : State, ∃ t, step s = .next t)

/-! ## Field unit (40_field) -/

/-- 40_field R120 to R124: each result is the one value of `[0, m)` congruent to the exact integer. -/
def Obligations.FieldFunctionsGiveTheResidue : Prop :=
  ∀ a b m : Nat, 1 ≤ m →
    (addMod a b m < m ∧ (addMod a b m : Int) ≡ a + b [ZMOD m]) ∧
    (subMod a b m < m ∧ (subMod a b m : Int) ≡ a - b [ZMOD m]) ∧
    (mulMod a b m < m ∧ (mulMod a b m : Int) ≡ a * b [ZMOD m]) ∧
    (sqMod a m < m ∧ (sqMod a m : Int) ≡ a * a [ZMOD m]) ∧
    (redMod a m < m ∧ (redMod a m : Int) ≡ a [ZMOD m])

/-- 40_field R125. -/
def Obligations.InverseFunctionGivesTheInverse : Prop :=
  ∀ a m : Nat, 1 ≤ m →
    (Nat.gcd (a % m) m = 1 → ∃ v, invMod a m = some v ∧ v < m ∧ a * v % m = 1 % m ∧
      ∀ u, u < m → a * u % m = 1 % m → u = v) ∧
    (Nat.gcd (a % m) m ≠ 1 → invMod a m = none)

/-- 40_field R131 to R135. -/
def Obligations.FieldCommandsWriteTheResidue : Prop :=
  ∀ (wd : WDst) (wa wb wm : WSrc) (s : State),
    encode (.addm wd wa wb wm) = formatR 0x01 (wdField wd) (wsField wa) (wsField wb) (wsField wm) 0 ∧
    encode (.subm wd wa wb wm) = formatR 0x02 (wdField wd) (wsField wa) (wsField wb) (wsField wm) 0 ∧
    encode (.mulm wd wa wb wm) = formatR 0x03 (wdField wd) (wsField wa) (wsField wb) (wsField wm) 0 ∧
    encode (.sqrm wd wa wm) = formatR 0x04 (wdField wd) (wsField wa) 0 (wsField wm) 0 ∧
    encode (.redm wd wa wm) = formatR 0x05 (wdField wd) (wsField wa) 0 (wsField wm) 0 ∧
    (∀ f3, f3 ≠ 0 →
      decode (formatR 0x04 (wdField wd) (wsField wa) f3 (wsField wm) 0) = .illegalField ∧
      decode (formatR 0x05 (wdField wd) (wsField wa) f3 (wsField wm) 0) = .illegalField) ∧
    (s.wide wm ≠ 0 →
      (∃ t, exec (.addm wd wa wb wm) s = .next t ∧ WritesWide wd (BitVec.ofNat 512
        (((s.wide wa).toNat + (s.wide wb).toNat) % (s.wide wm).toNat)) s t) ∧
      (∃ t, exec (.subm wd wa wb wm) s = .next t ∧ WritesWide wd (BitVec.ofNat 512
        (((s.wide wa).toNat - (s.wide wb).toNat : Int) % (s.wide wm).toNat).toNat) s t) ∧
      (∃ t, exec (.mulm wd wa wb wm) s = .next t ∧ WritesWide wd (BitVec.ofNat 512
        ((s.wide wa).toNat * (s.wide wb).toNat % (s.wide wm).toNat)) s t) ∧
      (∃ t, exec (.sqrm wd wa wm) s = .next t ∧ WritesWide wd (BitVec.ofNat 512
        ((s.wide wa).toNat * (s.wide wa).toNat % (s.wide wm).toNat)) s t) ∧
      (∃ t, exec (.redm wd wa wm) s = .next t ∧ WritesWide wd (BitVec.ofNat 512
        ((s.wide wa).toNat % (s.wide wm).toNat)) s t)) ∧
    (s.wide wm = 0 →
      (∃ t, exec (.addm wd wa wb wm) s = .next t ∧ Traps (.addm wd wa wb wm) .modulusZero s t) ∧
      (∃ t, exec (.subm wd wa wb wm) s = .next t ∧ Traps (.subm wd wa wb wm) .modulusZero s t) ∧
      (∃ t, exec (.mulm wd wa wb wm) s = .next t ∧ Traps (.mulm wd wa wb wm) .modulusZero s t) ∧
      (∃ t, exec (.sqrm wd wa wm) s = .next t ∧ Traps (.sqrm wd wa wm) .modulusZero s t) ∧
      (∃ t, exec (.redm wd wa wm) s = .next t ∧ Traps (.redm wd wa wm) .modulusZero s t))

/-- 40_field R136. -/
def Obligations.InvmWritesTheInverse : Prop :=
  ∀ (wd : WDst) (wa wm : WSrc) (s : State),
    encode (.invm wd wa wm) = formatR 0x06 (wdField wd) (wsField wa) 0 (wsField wm) 0 ∧
    (∀ f3, f3 ≠ 0 →
      decode (formatR 0x06 (wdField wd) (wsField wa) f3 (wsField wm) 0) = .illegalField) ∧
    (s.wide wm = 0 → ∃ t, exec (.invm wd wa wm) s = .next t ∧ Traps (.invm wd wa wm) .modulusZero s t) ∧
    (s.wide wm ≠ 0 → Nat.gcd ((s.wide wa).toNat % (s.wide wm).toNat) (s.wide wm).toNat ≠ 1 →
      ∃ t, exec (.invm wd wa wm) s = .next t ∧ Traps (.invm wd wa wm) .notInvertible s t) ∧
    (s.wide wm ≠ 0 → Nat.gcd ((s.wide wa).toNat % (s.wide wm).toNat) (s.wide wm).toNat = 1 →
      ∃ t v, exec (.invm wd wa wm) s = .next t ∧ v < (s.wide wm).toNat ∧
        (s.wide wa).toNat * v % (s.wide wm).toNat = 1 % (s.wide wm).toNat ∧
        WritesWide wd (BitVec.ofNat 512 v) s t)

/-- 40_field R137, R138. -/
def Obligations.MoveCommandsCopyTheValue : Prop :=
  ∀ (wd : WDst) (wa : WSrc) (imm : BitVec 21) (s : State),
    encode (.movw wd wa) = formatR 0x07 (wdField wd) (wsField wa) 0 0 0 ∧
    encode (.liw wd imm) = formatI 0x08 (wdField wd) imm ∧
    (∀ f1 : BitVec 5, 16 ≤ f1.toNat → decode (formatI 0x08 f1 imm) = .illegalField) ∧
    (∃ t, exec (.movw wd wa) s = .next t ∧ WritesWide wd (s.wide wa) s t) ∧
    (∃ t, exec (.liw wd imm) s = .next t ∧ WritesWide wd (BitVec.ofNat 512 imm.toNat) s t)

/-- 95_test_vectors V13 on the commands: SUBM takes back what ADDM added, up to the reduction. -/
def Obligations.SubmUndoesAddm : Prop :=
  ∀ (wd : WDst) (wa wb wm : WSrc) (s : State), s.err = false → s.wide wm ≠ 0 →
    wb ≠ .gen wd → wm ≠ .gen wd →
    ∃ t, issueAll [.addm wd wa wb wm, .subm wd (.gen wd) wb wm] s = .next t ∧
      WritesWide wd (BitVec.ofNat 512 ((s.wide wa).toNat % (s.wide wm).toNat)) s t

/-- 40_field R129: for an odd modulus, two Montgomery reductions give the multiplier's contract. -/
def Obligations.MontgomeryReductionGivesTheProduct : Prop :=
  ∀ a b m m' : Nat, m % 2 = 1 → m < 2 ^ 512 → m * m' % 2 ^ 512 = 2 ^ 512 - 1 →
    (∀ T, T < 2 ^ 512 * m → redc m m' T < m ∧ redc m m' T * 2 ^ 512 % m = T % m) ∧
    mulMod a b m = redc m m' (redc m m' (a % m * (b % m)) * (2 ^ 1024 % m))

/-! ## Point engine (41_point) -/

/-- 41_point R181 to R189, R192. -/
def Obligations.PointMoveCommandsCopyTheFields : Prop :=
  ∀ (wd : WDst) (jd ja : JReg) (ad : ADst) (aa : ASrc) (wx wy wz : WSrc) (s : State),
    (encode (.plift jd aa) = formatR 0x15 (jField jd) (asField aa) 0 0 0 ∧
      ((s.aff aa).absent = false → ∃ t, exec (.plift jd aa) s = .next t ∧
        WritesJac jd { X := (s.aff aa).X, Y := (s.aff aa).Y, Z := 1, inf := false } s t) ∧
      ((s.aff aa).absent = true → ∃ t, exec (.plift jd aa) s = .next t ∧ Traps (.plift jd aa) .absent s t)) ∧
    (encode (.jset jd wx wy wz) = formatR 0x16 (jField jd) (wsField wx) (wsField wy) (wsField wz) 0 ∧
      ∃ t, exec (.jset jd wx wy wz) s = .next t ∧
        WritesJac jd { X := s.wide wx, Y := s.wide wy, Z := s.wide wz, inf := false } s t) ∧
    (encode (.jinf jd) = formatR 0x17 (jField jd) 0 0 0 0 ∧
      ∃ t, exec (.jinf jd) s = .next t ∧ WritesJac jd { X := 1, Y := 1, Z := 0, inf := true } s t) ∧
    (encode (.jgetx wd ja) = formatR 0x18 (wdField wd) (jField ja) 0 0 0 ∧
      ∃ t, exec (.jgetx wd ja) s = .next t ∧ WritesWide wd s.j[ja].X s t) ∧
    (encode (.jgety wd ja) = formatR 0x19 (wdField wd) (jField ja) 0 0 0 ∧
      ∃ t, exec (.jgety wd ja) s = .next t ∧ WritesWide wd s.j[ja].Y s t) ∧
    (encode (.jgetz wd ja) = formatR 0x1A (wdField wd) (jField ja) 0 0 0 ∧
      ∃ t, exec (.jgetz wd ja) s = .next t ∧ WritesWide wd s.j[ja].Z s t) ∧
    (encode (.aset ad wx wy) = formatR 0x1B (adField ad) (wsField wx) (wsField wy) 0 0 ∧
      ∃ t, exec (.aset ad wx wy) s = .next t ∧
        WritesAff ad { X := s.wide wx, Y := s.wide wy, absent := false } s t) ∧
    (encode (.aabs ad) = formatR 0x1C (adField ad) 0 0 0 0 ∧
      ∃ t, exec (.aabs ad) s = .next t ∧ WritesAff ad { X := 0, Y := 0, absent := true } s t) ∧
    (encode (.agetx wd aa) = formatR 0x1D (wdField wd) (asField aa) 0 0 0 ∧
      ((s.aff aa).absent = false →
        ∃ t, exec (.agetx wd aa) s = .next t ∧ WritesWide wd (s.aff aa).X s t) ∧
      ((s.aff aa).absent = true →
        ∃ t, exec (.agetx wd aa) s = .next t ∧ Traps (.agetx wd aa) .absent s t)) ∧
    (encode (.agety wd aa) = formatR 0x1E (wdField wd) (asField aa) 0 0 0 ∧
      ((s.aff aa).absent = false →
        ∃ t, exec (.agety wd aa) s = .next t ∧ WritesWide wd (s.aff aa).Y s t) ∧
      ((s.aff aa).absent = true →
        ∃ t, exec (.agety wd aa) s = .next t ∧ Traps (.agety wd aa) .absent s t))

/-- 41_point R177 with R171: the doubling formulas, on integers and reduced once. -/
def Obligations.DoublerFollowsTheFormulas : Prop :=
  ∀ (jd ja : JReg) (s : State), s.params.wf = true →
    encode (.pdbl jd ja) = formatR 0x10 (jField jd) (jField ja) 0 0 0 ∧
    (s.j[ja].inf = true ∨ s.j[ja].Y.toNat % s.params.curve.P.toNat = 0 →
      ∃ t, exec (.pdbl jd ja) s = .next t ∧ WritesJac jd Jacobian.ident s t) ∧
    (s.j[ja].inf = false → s.j[ja].Y.toNat % s.params.curve.P.toNat ≠ 0 →
      ∀ X Y Z A S M : Int, X = s.j[ja].X.toNat → Y = s.j[ja].Y.toNat → Z = s.j[ja].Z.toNat →
        A = s.params.curve.A.toNat → S = 4 * X * Y ^ 2 → M = 3 * X ^ 2 + A * Z ^ 4 →
        ∃ t, exec (.pdbl jd ja) s = .next t ∧
          WritesJac jd (residues s.params.curve (M ^ 2 - 2 * S)
            (M * (S - (M ^ 2 - 2 * S)) - 8 * Y ^ 4) (2 * Y * Z)) s t)

/-- 41_point R178 with R173. -/
def Obligations.MixedAdderFollowsTheFormulas : Prop :=
  ∀ (jd ja : JReg) (ab : ASrc) (s : State), s.params.wf = true →
    encode (.pmadd jd ja ab) = formatR 0x11 (jField jd) (jField ja) (asField ab) 0 0 ∧
    ((s.aff ab).absent = true →
      ∃ t, exec (.pmadd jd ja ab) s = .next t ∧ Traps (.pmadd jd ja ab) .absent s t) ∧
    ((s.aff ab).absent = false → s.j[ja].inf = true →
      ∃ t, exec (.pmadd jd ja ab) s = .next t ∧
        WritesJac jd { X := (s.aff ab).X, Y := (s.aff ab).Y, Z := 1, inf := false } s t) ∧
    ((s.aff ab).absent = false → s.j[ja].inf = false →
      ∀ X Y Z x2 y2 H R : Int, X = s.j[ja].X.toNat → Y = s.j[ja].Y.toNat → Z = s.j[ja].Z.toNat →
        x2 = (s.aff ab).X.toNat → y2 = (s.aff ab).Y.toNat →
        H = x2 * Z ^ 2 - X → R = y2 * Z ^ 3 - Y →
        ((s.params.curve.P.toNat : Int) ∣ H → (s.params.curve.P.toNat : Int) ∣ R →
          ∃ t, exec (.pmadd jd ja ab) s = .next t ∧
            WritesJac jd (double s.params.curve s.j[ja]) s t) ∧
        ((s.params.curve.P.toNat : Int) ∣ H → ¬ (s.params.curve.P.toNat : Int) ∣ R →
          ∃ t, exec (.pmadd jd ja ab) s = .next t ∧ WritesJac jd Jacobian.ident s t) ∧
        (¬ (s.params.curve.P.toNat : Int) ∣ H →
          ∃ t, exec (.pmadd jd ja ab) s = .next t ∧
            WritesJac jd (sumRecord s.params.curve X Y H R (Z * H)) s t))

/-- 41_point R179 with R175. -/
def Obligations.GeneralAdderFollowsTheFormulas : Prop :=
  ∀ (jd ja jb : JReg) (s : State), s.params.wf = true →
    encode (.pjadd jd ja jb) = formatR 0x12 (jField jd) (jField ja) (jField jb) 0 0 ∧
    (s.j[ja].inf = true → ∃ t, exec (.pjadd jd ja jb) s = .next t ∧ WritesJac jd s.j[jb] s t) ∧
    (s.Inv → s.j[ja].inf = true → s.j[jb].inf = true →
      ∃ t, exec (.pjadd jd ja jb) s = .next t ∧ WritesJac jd Jacobian.ident s t) ∧
    (s.j[ja].inf = false → s.j[jb].inf = true →
      ∃ t, exec (.pjadd jd ja jb) s = .next t ∧ WritesJac jd s.j[ja] s t) ∧
    (s.j[ja].inf = false → s.j[jb].inf = false →
      ∀ X1 Y1 Z1 X2 Y2 Z2 H R : Int,
        X1 = s.j[ja].X.toNat → Y1 = s.j[ja].Y.toNat → Z1 = s.j[ja].Z.toNat →
        X2 = s.j[jb].X.toNat → Y2 = s.j[jb].Y.toNat → Z2 = s.j[jb].Z.toNat →
        H = X2 * Z1 ^ 2 - X1 * Z2 ^ 2 → R = Y2 * Z1 ^ 3 - Y1 * Z2 ^ 3 →
        ((s.params.curve.P.toNat : Int) ∣ H → (s.params.curve.P.toNat : Int) ∣ R →
          ∃ t, exec (.pjadd jd ja jb) s = .next t ∧
            WritesJac jd (double s.params.curve s.j[ja]) s t) ∧
        ((s.params.curve.P.toNat : Int) ∣ H → ¬ (s.params.curve.P.toNat : Int) ∣ R →
          ∃ t, exec (.pjadd jd ja jb) s = .next t ∧ WritesJac jd Jacobian.ident s t) ∧
        (¬ (s.params.curve.P.toNat : Int) ∣ H →
          ∃ t, exec (.pjadd jd ja jb) s = .next t ∧
            WritesJac jd (sumRecord s.params.curve (X1 * Z2 ^ 2) (Y1 * Z2 ^ 3) H R (H * Z1 * Z2)) s t))

/-- 41_point R180 with R176. -/
def Obligations.AffineConverterRecoversTheCoordinates : Prop :=
  ∀ (ad : ADst) (ja : JReg) (s : State), s.params.wf = true →
    encode (.paff ad ja) = formatR 0x13 (adField ad) (jField ja) 0 0 0 ∧
    (s.j[ja].inf = true ∨ Nat.gcd (s.j[ja].Z.toNat % s.params.curve.P.toNat) s.params.curve.P.toNat ≠ 1 →
      ∃ t, exec (.paff ad ja) s = .next t ∧ WritesAff ad { X := 0, Y := 0, absent := true } s t) ∧
    (s.j[ja].inf = false →
      Nat.gcd (s.j[ja].Z.toNat % s.params.curve.P.toNat) s.params.curve.P.toNat = 1 →
      ∃ t zi, exec (.paff ad ja) s = .next t ∧ zi < s.params.curve.P.toNat ∧
        s.j[ja].Z.toNat * zi % s.params.curve.P.toNat = 1 ∧
        WritesAff ad {
          X := BitVec.ofNat 512 (s.j[ja].X.toNat * zi ^ 2 % s.params.curve.P.toNat),
          Y := BitVec.ofNat 512 (s.j[ja].Y.toNat * zi ^ 3 % s.params.curve.P.toNat),
          absent := false } s t)

/-- 41_point R190. -/
def Obligations.PsmulWritesTheMultiple : Prop :=
  ∀ (jd : JReg) (wk : WSrc) (ab : ASrc) (s : State),
    encode (.psmul jd wk ab) = formatR 0x14 (jField jd) (wsField wk) (asField ab) 0 0 ∧
    ((s.aff ab).absent = true →
      ∃ t, exec (.psmul jd wk ab) s = .next t ∧ Traps (.psmul jd wk ab) .absent s t) ∧
    ((s.aff ab).absent = false →
      ∃ t, exec (.psmul jd wk ab) s = .next t ∧
        WritesJac jd (scalarMult s.params.curve (s.wide wk).toNat (s.aff ab).X (s.aff ab).Y) s t)

/-- 41_point R191: double-and-add over the bits of the scalar, most significant first; started at bit 511 it
gives the same record. -/
def Obligations.ScalarMultFollowsTheBits : Prop :=
  ∀ (c : Curve) (x y : Wide),
    scalarMult c 0 x y = Jacobian.ident ∧ scalarMult c 1 x y = lift x y ∧
    (∀ k, 1 ≤ k → scalarMult c (2 * k) x y = double c (scalarMult c k x y)) ∧
    (∀ k, scalarMult c (2 * k + 1) x y = mixedAdd c (double c (scalarMult c k x y)) x y) ∧
    (∀ k, k < 2 ^ 512 → scalarLoop c k x y 512 Jacobian.ident = scalarMult c k x y)

/-- 41_point R174, as far as the curve equation: the point functions never leave the curve. -/
def Obligations.PointFunctionsStayOnTheCurve : Prop :=
  ∀ c : Curve, 1 ≤ c.P.toNat →
    (∀ J, OnCurve c J → OnCurve c (double c J)) ∧
    (∀ J x y, OnCurve c J → OnCurve c (lift x y) → OnCurve c (mixedAdd c J x y)) ∧
    (∀ J1 J2, OnCurve c J1 → OnCurve c J2 → OnCurve c (jacobiAdd c J1 J2)) ∧
    (∀ k x y, OnCurve c (lift x y) → OnCurve c (scalarMult c k x y)) ∧
    (∀ J x y, OnCurve c J → toAffine c J = some (x, y) → OnCurve c (lift x y))

/-- 41_point R174: on points of the curve the functions are the group law. (The points of `weierstrass c` are
the nonsingular ones, so no condition on the discriminant is needed.) -/
def Obligations.PointFunctionsAreTheGroupLaw : Prop :=
  ∀ (c : Curve) [Fact c.P.toNat.Prime], 3 < c.P.toNat →
    (∀ J p, Represents c J p → Represents c (double c J) (2 • p)) ∧
    (∀ J x y p q, Represents c J p → Represents c (lift x y) q →
      Represents c (mixedAdd c J x y) (p + q)) ∧
    (∀ J1 J2 p q, Represents c J1 p → Represents c J2 q → Represents c (jacobiAdd c J1 J2) (p + q)) ∧
    (∀ J p, Represents c J p →
      (p = 0 → toAffine c J = none) ∧
      (∀ x y h, p = .some x y h → ∃ X Y : Wide, toAffine c J = some (X, Y) ∧
        X.toNat < c.P.toNat ∧ Y.toNat < c.P.toNat ∧
        (X.toNat : ZMod c.P.toNat) = x ∧ (Y.toNat : ZMod c.P.toNat) = y)) ∧
    (∀ k x y q, Represents c (lift x y) q → Represents c (scalarMult c k x y) (k • q))

/-- 41_point R193, on a CURVE with a prime modulus above 3, a discriminant that is not zero and its base point on
the curve: equal after `toAffine`, or both the identity. -/
def Obligations.MultiplesOfTheBasePointAdd : Prop :=
  ∀ c : Curve, c.P.toNat.Prime → 3 < c.P.toNat →
    ¬ c.P.toNat ∣ 4 * c.A.toNat ^ 3 + 27 * c.B.toNat ^ 2 → OnCurve c (lift c.GX c.GY) →
    scalarMult c 0 c.GX c.GY = Jacobian.ident ∧ toAffine c Jacobian.ident = none ∧
    scalarMult c 1 c.GX c.GY = lift c.GX c.GY ∧
    toAffine c (lift c.GX c.GY) = some (BitVec.ofNat 512 (c.GX.toNat % c.P.toNat),
      BitVec.ofNat 512 (c.GY.toNat % c.P.toNat)) ∧
    ∀ k1 k2 : Nat, ∀ K S : Jacobian, K = scalarMult c (k1 + k2) c.GX c.GY →
      S = jacobiAdd c (scalarMult c k1 c.GX c.GY) (scalarMult c k2 c.GX c.GY) →
      K.inf = S.inf ∧ toAffine c K = toAffine c S

/-! ## Hash core (42_hash) -/

/-- 42_hash R224 to R228, R230. -/
def Obligations.HashDataCommandsWriteTheFunction : Prop :=
  ∀ (wd : WDst) (wa wb wm : WSrc) (n : BitVec 6) (s : State),
    (encode (.xorw wd wa wb) = formatR 0x20 (wdField wd) (wsField wa) (wsField wb) 0 0 ∧
      ∃ t, exec (.xorw wd wa wb) s = .next t ∧ WritesWide wd (s.wide wa ^^^ s.wide wb) s t) ∧
    (encode (.addw wd wa wb) = formatR 0x21 (wdField wd) (wsField wa) (wsField wb) 0 0 ∧
      ∃ t, exec (.addw wd wa wb) s = .next t ∧ WritesWide wd (BitVec.ofNat 512
        (((s.wide wa).toNat + (s.wide wb).toNat) % 2 ^ 512)) s t) ∧
    (encode (.lps wd wa) = formatR 0x22 (wdField wd) (wsField wa) 0 0 0 ∧
      ∃ t, exec (.lps wd wa) s = .next t ∧
        WritesWide wd (linear (permute (subst (s.wide wa)))) s t) ∧
    (encode (.knxt wd wa n) = formatR 0x23 (wdField wd) (wsField wa) 0 0 n ∧
      (n.toNat = 0 ∨ 12 < n.toNat → decode (encode (.knxt wd wa n)) = .illegalField) ∧
      (1 ≤ n.toNat → n.toNat ≤ 12 → ∃ t, exec (.knxt wd wa n) s = .next t ∧
        WritesWide wd (linear (permute (subst (s.wide wa ^^^ crndOf n.toNat)))) s t)) ∧
    (encode (.eenc wd wa wb) = formatR 0x24 (wdField wd) (wsField wa) (wsField wb) 0 0 ∧
      ∃ t, exec (.eenc wd wa wb) s = .next t ∧ WritesWide wd (cipher (s.wide wa) (s.wide wb)) s t) ∧
    (encode (.gcmp wd wa wb wm) = formatR 0x25 (wdField wd) (wsField wa) (wsField wb) (wsField wm) 0 ∧
      ∃ t, exec (.gcmp wd wa wb wm) s = .next t ∧ WritesWide wd
        (cipher (linear (permute (subst (s.wide wb ^^^ s.wide wa)))) (s.wide wm) ^^^ s.wide wb ^^^
          s.wide wm) s t)

/-- 42_hash R221: the twelve rounds of `E`, with the XOR of the block and the first key before them. -/
def Obligations.CipherIsTheTwelveRounds : Prop :=
  ∀ (K m : Wide) (st kc : Nat → Wide), st 0 = K ^^^ m → kc 0 = K →
    (∀ i, i < 12 → kc (i + 1) = lpsOf (kc i ^^^ crndOf (i + 1)) ∧
      st (i + 1) = lpsOf (st i) ^^^ kc (i + 1)) →
    cipher K m = st 12

/-- 42_hash R228: EENC gives what its rounds give one at a time by MOVW, XORW, LPS and KNXT. -/
def Obligations.EencEqualsTheRoundCommands : Prop :=
  ∀ (wd kd : WDst) (wk wm : WSrc) (s : State), s.err = false → kd ≠ wd → wm ≠ .gen kd →
    ∃ t u, exec (.eenc wd wk wm) s = .next t ∧
      issueAll (.movw kd wk :: .xorw wd (.gen kd) wm ::
        (List.range 12).flatMap fun i =>
          [.lps wd (.gen wd), .knxt kd (.gen kd) (BitVec.ofNat 6 (i + 1)), .xorw wd (.gen wd) (.gen kd)]) s =
        .next u ∧
      u.w[wd] = t.w[wd] ∧ Frame { wide := [wd, kd] } s u

/-- 42_hash R216, R217 (with R212's permutation): the byte layers. -/
def Obligations.ByteLayersActOnTheBytes : Prop :=
  (∀ (v : Wide) (j : Nat), j < 64 →
    byteOf (subst v) j = piOf (byteOf v j) ∧ byteOf (permute v) j = byteOf v (8 * (j % 8) + j / 8)) ∧
  (∀ v : Wide, permute (permute v) = v ∧ permute (subst v) = subst (permute v)) ∧
  Function.Injective piOf

/-- 42_hash R219: `L` acts on each word by a linear map that sends bit `63 - i` to `AMAT[i]`. -/
def Obligations.LinearLayerIsTheMatrix : Prop :=
  (∀ (v : Wide) (j : Nat), j < 8 → wordOf (linear v) j = lin (wordOf v j)) ∧
  (∀ x y : HashWord, lin (x ^^^ y) = lin x ^^^ lin y) ∧
  (∀ i : Nat, i < 64 → lin (BitVec.twoPow 64 (63 - i)) = amat.getD i 0)

/-- 42_hash R223: the bytes of a padded block. -/
def Obligations.PaddedBlockBytes : Prop :=
  ∀ (n j : Nat) (x : Wide), n < 64 → j < 64 →
    byteOf (padblock n x) j = if j < 63 - n then 0 else if j = 63 - n then 1 else byteOf x j

/-- 42_hash R231 to R233. -/
def Obligations.StreamingCommandsUpdateTheHashState : Prop :=
  ∀ (wd : WDst) (wm : WSrc) (n : BitVec 6) (s : State),
    (encode .hinit = 0xA0000000 ∧
      ∃ t, exec .hinit s = .next t ∧ HashZero t ∧ Frame { hash := true } s t) ∧
    (encode (.hblk wm) = formatR 0x29 0 (wsField wm) 0 0 0 ∧
      ∃ t, exec (.hblk wm) s = .next t ∧ t.hh = compress s.hn s.hh (s.wide wm) ∧
        t.hn = s.hn + 512 ∧ t.hs = s.hs + s.wide wm ∧ Frame { hash := true } s t) ∧
    (encode (.hfin wd wm n) = formatR 0x2A (wdField wd) (wsField wm) 0 0 n ∧
      ∀ m h1 : Wide, m = padblock n.toNat (s.wide wm) → h1 = compress s.hn s.hh m →
        ∃ t, exec (.hfin wd wm n) s = .next t ∧
          t.w[wd] = compress 0 (compress 0 h1 (s.hn + BitVec.ofNat 512 (8 * n.toNat))) (s.hs + m) ∧
          HashZero t ∧ Frame { wide := [wd], hash := true } s t)

/-- 42_hash R234. -/
def Obligations.HashCommandHashesTheMessage : Prop :=
  ∀ (wd : WDst) (s : State),
    encode (.hash wd) = formatR 0x2B (wdField wd) 0 0 0 0 ∧
    (s.params.msgCap < s.mlen.toNat →
      ∃ t, exec (.hash wd) s = .next t ∧ Traps (.hash wd) .msgLen s t) ∧
    (s.mlen.toNat ≤ s.params.msgCap →
      ∃ t, exec (.hash wd) s = .next t ∧
        t.w[wd] = hash512 ((List.range s.mlen.toNat).map fun k => s.msg.read k) ∧
        HashZero t ∧ Frame { wide := [wd], hash := true } s t)

/-- 42_hash R235: HINIT, HBLK on the full blocks from the last to the first, and HFIN on the leading bytes give
`hash512` of the message. -/
def Obligations.StreamingGivesTheHash : Prop :=
  ∀ (s : State) (wd wm : WDst) (lead : List Byte) (blocks : List Wide), lead.length < 64 →
    ∃ t u v, exec .hinit s = .next t ∧ feedBlocks wm blocks t = .next u ∧
      exec (.hfin wd (.gen wm) (BitVec.ofNat 6 lead.length)) (u.setW wm (ofBytes lead)) = .next v ∧
      v.w[wd] = hash512 (lead ++ (blocks.reverse.flatMap bytesOf)) ∧ HashZero v

/-- 00_scope R11: the three views of a wide value agree. -/
def Obligations.ViewsOfAWideValueAgree : Prop :=
  ∀ v : Wide, ofBytes (bytesOf v) = v ∧
    (∀ k, k < 64 → (byteOf v k).toNat = v.toNat / 2 ^ (504 - 8 * k) % 2 ^ 8) ∧
    (∀ k, k < 8 → (wordOf v k).toNat = be ((List.range 8).map fun i => byteOf v (8 * k + i))) ∧
    (∀ k, k < 16 → (busWordOf v k).toNat = be ((List.range 4).map fun i => byteOf v (4 * k + i)))

/-! ## Protocol (43_protocol) -/

/-- 43_protocol R262. -/
def Obligations.HashValueIsReducedAndNeverZero : Prop :=
  ∀ (c : Curve) (H : Wide), 2 ≤ c.Q.toNat →
    (H.toNat % c.Q.toNat = 0 → eOf c H = 1) ∧ (H.toNat % c.Q.toNat ≠ 0 → eOf c H = H.toNat % c.Q.toNat) ∧
    1 ≤ eOf c H ∧ eOf c H < c.Q.toNat

/-- 43_protocol R261: what a draw answers and what it leaves of the stream; the range check, and the fault of the
command that drew. -/
def Obligations.DrawTakesTheNextAnswer : Prop :=
  (∀ d ds tail, RandomSource.draw { ahead := d :: ds, tail := tail } = (d, { ahead := ds, tail := tail })) ∧
  RandomSource.draw { ahead := [], tail := .fails } = (.fail, { ahead := [], tail := .fails }) ∧
  (∀ d ds, RandomSource.draw { ahead := [], tail := .repeats d ds } =
    (d, { ahead := ds, tail := .repeats d ds })) ∧
  (∀ n, RandomSource.draw { ahead := [], tail := .free n } =
    (Config.freeDraw n, { ahead := [], tail := .free (n + 1) })) ∧
  (∀ l : List Draw, drawMany l.length { ahead := l, tail := .fails } = (l, { ahead := [], tail := .fails })) ∧
  (∀ n, (drawMany n { ahead := [], tail := .free 0 }).1 = (List.range n).map Config.freeDraw) ∧
  (∀ (c : Curve) (r rest : RandomSource) (z : Draw), r.draw = (z, rest) →
    (∀ k, z = .value k → InRange c k → drawRange c r = (some k, rest)) ∧
    ((∀ k, z = .value k → ¬ InRange c k) → drawRange c r = (none, rest) ∧
      ∀ (s : State) (wd : WDst) (ad : ADst), s.params.curve = c → s.source = r →
        ∃ t, exec (.keygen wd ad) s = .next t ∧ TrapsAfterDraws (.keygen wd ad) .randomness rest s t))

/-- 43_protocol R264: one draw, whose answer `z` ends in a key pair or in a fault. -/
def Obligations.KeygenWritesTheKeyPair : Prop :=
  ∀ (wd : WDst) (ad : ADst) (s : State) (z : Draw) (rest : RandomSource), s.source.draw = (z, rest) →
    encode (.keygen wd ad) = formatR 0x30 (wdField wd) (adField ad) 0 0 0 ∧
    (∀ k r, z = .value k → InRange s.params.curve k →
      r = toAffine s.params.curve
        (scalarMult s.params.curve k.toNat s.params.curve.GX s.params.curve.GY) →
      (∀ x y, r = some (x, y) → ∃ t, exec (.keygen wd ad) s = .next t ∧ t.w[wd] = k ∧
        t.a[ad] = { X := x, Y := y, absent := false } ∧ t.source = rest ∧
        Frame { wide := [wd], aff := [ad], source := true } s t) ∧
      (r = none → ∃ t, exec (.keygen wd ad) s = .next t ∧
        TrapsAfterDraws (.keygen wd ad) .domain rest s t)) ∧
    ((∀ k, z = .value k → ¬ InRange s.params.curve k) → ∃ t, exec (.keygen wd ad) s = .next t ∧
      TrapsAfterDraws (.keygen wd ad) .randomness rest s t)

/-- 43_protocol R266 with R265: `tries` are the draws that lead to a retry, `z` the draw after them, `rest` the
stream then. However many they are, the one command ends with the draw `z` (00_scope R4). -/
def Obligations.SignFollowsTheLoop : Prop :=
  ∀ (wr ws : WDst) (wd : WSrc) (s : State) (d e r : Nat) (tries : List Draw) (z : Draw)
    (rest : RandomSource),
    encode (.sign wr ws wd) = formatR 0x31 (wdField wr) (wdField ws) (wsField wd) 0 0 ∧
    decode (encode (.sign wr wr wd)) = .illegalField ∧
    (wr ≠ ws → s.params.msgCap < s.mlen.toNat →
      ∃ t, exec (.sign wr ws wd) s = .next t ∧ Traps (.sign wr ws wd) .msgLen s t) ∧
    (wr ≠ ws → s.mlen.toNat ≤ s.params.msgCap → d = (s.wide wd).toNat →
      e = eOf s.params.curve (hash512 (memRead s.msg 0 s.mlen.toNat)) →
      (∀ y ∈ tries, Retries s.params.curve d e y) →
      ((∀ n, s.params.signCap = some n → tries.length < n) →
        drawMany (tries.length + 1) s.source = (tries ++ [z], rest) →
        (∀ k x y, z = .value k → InRange s.params.curve k →
          toAffine s.params.curve
              (scalarMult s.params.curve k.toNat s.params.curve.GX s.params.curve.GY) = some (x, y) →
          r = x.toNat % s.params.curve.Q.toNat → r ≠ 0 →
          (r * d + k.toNat * e) % s.params.curve.Q.toNat ≠ 0 →
          ∃ t, exec (.sign wr ws wd) s = .next t ∧ t.w[wr] = BitVec.ofNat 512 r ∧
            t.w[ws] = BitVec.ofNat 512 ((r * d + k.toNat * e) % s.params.curve.Q.toNat) ∧ HashZero t ∧
            t.source = rest ∧ Frame { wide := [wr, ws], hash := true, source := true } s t) ∧
        ((∀ k, z = .value k → ¬ InRange s.params.curve k) →
          ∃ t, exec (.sign wr ws wd) s = .next t ∧
            TrapsAfterDraws (.sign wr ws wd) .randomness rest s t)) ∧
      (s.params.signCap = some tries.length → drawMany tries.length s.source = (tries, rest) →
        ∃ t, exec (.sign wr ws wd) s = .next t ∧
          TrapsAfterDraws (.sign wr ws wd) .randomness rest s t))

/-- 93_implementation_defined U7 and 00_scope R4: an issued SIGN that passes its checks never completes exactly
when, with no cap, every answer of the stream leads to a retry, and then it stays so, having only drawn a number of
answers that the spec leaves open (log 9); any other SIGN ends, and is answered, in the one step. -/
def Obligations.SignNeverCompletesExactlyWhenEveryDrawRetries : Prop :=
  ∀ (wr ws : WDst) (wd : WSrc) (s : State) (rest : List HostEvent) (endless : Prop),
    s.signing = none → s.err = false → wr ≠ ws →
    s.pending = .write 0x0000 (encode (.sign wr ws wd)) :: rest →
    (endless ↔ s.mlen.toNat ≤ s.params.msgCap ∧ s.params.signCap = none ∧
      ∀ i, Retries s.params.curve (s.wide wd).toNat
        (eOf s.params.curve (hash512 (memRead s.msg 0 s.mlen.toNat))) (s.source.answer i)) →
    (endless → ∃ t n, step s = .next t ∧
      StaysInProgress (.sign wr ws wd) (drawMany n s.source).2 { s with pending := rest } t ∧
      ((∀ later, rest ≠ .reset :: later) → ∀ k, stepMany (k + 1) s = .next t)) ∧
    (¬ endless → ∃ t, step s = .next t ∧ t.signing = none ∧ t.pending = rest ∧
      t.replies = .ok :: s.replies)

/-- 43_protocol R266, corner case: a completed SIGN leaves `1 <= r, s <= Q-1`. -/
def Obligations.SignatureComponentsAreInRange : Prop :=
  ∀ (wr ws : WDst) (wd : WSrc) (s t : State), 2 ≤ s.params.curve.Q.toNat → s.err = false →
    s.signing = none → exec (.sign wr ws wd) s = .next t → t.err = false → t.signing = none →
    InRange s.params.curve t.w[wr] ∧ InRange s.params.curve t.w[ws]

/-- 43_protocol R268 with R267. -/
def Obligations.VerifyWritesTheVerdict : Prop :=
  ∀ (wd : WDst) (wr ws : WSrc) (ap : ASrc) (s : State) (c : Curve) (q r sg e : Nat), s.params.wf = true →
    c = s.params.curve → q = c.Q.toNat → r = (s.wide wr).toNat → sg = (s.wide ws).toNat →
    e = eOf c (hash512 (memRead s.msg 0 s.mlen.toNat)) →
    encode (.verify wd wr ws ap) = formatR 0x32 (wdField wd) (wsField wr) (wsField ws) (asField ap) 0 ∧
    ((s.aff ap).absent = true →
      ∃ t, exec (.verify wd wr ws ap) s = .next t ∧ Traps (.verify wd wr ws ap) .absent s t) ∧
    ((s.aff ap).absent = false → s.params.msgCap < s.mlen.toNat →
      ∃ t, exec (.verify wd wr ws ap) s = .next t ∧ Traps (.verify wd wr ws ap) .msgLen s t) ∧
    ((s.aff ap).absent = false → s.mlen.toNat ≤ s.params.msgCap →
      ∃ t, exec (.verify wd wr ws ap) s = .next t ∧ HashZero t ∧
        Frame { wide := [wd], hash := true } s t ∧
        (r < 1 ∨ q - 1 < r ∨ sg < 1 ∨ q - 1 < sg → t.w[wd] = 0) ∧
        (Nat.gcd (e % q) q ≠ 1 → t.w[wd] = 0) ∧
        (1 ≤ r → r ≤ q - 1 → 1 ≤ sg → sg ≤ q - 1 → ∀ v, v < q → e * v % q = 1 →
          ∀ p, p = toAffine c (jacobiAdd c (scalarMult c (sg * v % q) c.GX c.GY)
              (scalarMult c (q - r * v % q) (s.aff ap).X (s.aff ap).Y)) →
          (∀ x y, p = some (x, y) → t.w[wd] = if x.toNat % q = r then 1 else 0) ∧
          (p = none → t.w[wd] = 0)))
end

