-- ==== Sys2Proof/Laws/Arith.lean ====
section
/-!
SUPPORT. The modular arithmetic seen in the ring of residues, where the point formulas are polynomial
identities, and the bounds of its results.
-/

namespace Sys2Proof.Machine

theorem addMod_lt (a b m : Nat) (h : 1 ≤ m) : addMod a b m < m := Nat.mod_lt _ h

theorem mulMod_lt (a b m : Nat) (h : 1 ≤ m) : mulMod a b m < m := Nat.mod_lt _ h

theorem sqMod_lt (a m : Nat) (h : 1 ≤ m) : sqMod a m < m := Nat.mod_lt _ h

theorem redMod_lt (a m : Nat) (h : 1 ≤ m) : redMod a m < m := Nat.mod_lt _ h

/-- The difference as an integer: the residue of `a - b`. -/
theorem subMod_int (a b m : Nat) (h : 1 ≤ m) : (subMod a b m : Int) = ((a : Int) - b) % m := by
  have : (0 : Int) ≤ ((a : Int) - b) % m := Int.emod_nonneg _ (by omega)
  simp [subMod, Int.toNat_of_nonneg this]

theorem subMod_lt (a b m : Nat) (h : 1 ≤ m) : subMod a b m < m := by
  have h1 := subMod_int a b m h
  have h2 : ((a : Int) - b) % m < m := Int.emod_lt_of_pos _ (by omega)
  omega

section
variable (a b m : Nat)

@[simp] theorem addMod_cast : (addMod a b m : ZMod m) = a + b := by simp [addMod]

@[simp] theorem mulMod_cast : (mulMod a b m : ZMod m) = a * b := by simp [mulMod]

@[simp] theorem sqMod_cast : (sqMod a m : ZMod m) = a * a := by simp [sqMod]

@[simp] theorem redMod_cast : (redMod a m : ZMod m) = a := by simp [redMod]

end

theorem subMod_cast (a b m : Nat) (h : 1 ≤ m) : (subMod a b m : ZMod m) = a - b := by
  have h1 := congrArg (Int.cast (R := ZMod m)) (subMod_int a b m h)
  simpa using h1

/-- A residue below `m` is the remainder of every integer it stands for. -/
theorem eq_emod_of_cast (r : Nat) (x : Int) (m : Nat) (hr : r < m) (h : (r : ZMod m) = (x : ZMod m)) :
    (r : Int) = x % m := by
  have h1 : ((r : Int) : ZMod m) = (x : ZMod m) := by simpa using h
  have h2 := (ZMod.intCast_eq_intCast_iff _ _ _).mp h1
  have h3 : (r : Int) % m = r := Int.emod_eq_of_lt (by omega) (by omega)
  rw [← h3]; exact h2

/-- The difference is zero exactly for congruent operands. -/
theorem subMod_eq_zero (a b m : Nat) (h : 1 ≤ m) : subMod a b m = 0 ↔ (m : Int) ∣ (a : Int) - b := by
  have h1 := subMod_int a b m h
  rw [Int.dvd_iff_emod_eq_zero]
  omega

/-- All that a conversion can answer (41_point R176). -/
theorem toAffine_cases (c : Curve) (J : Jacobian) :
    toAffine c J = none ∨ ∃ zi, J.inf = false ∧ J.Z.toNat % c.P.toNat ≠ 0 ∧
      invMod J.Z.toNat c.P.toNat = some zi ∧
      toAffine c J = some
        (BitVec.ofNat 512 (mulMod J.X.toNat (sqMod zi c.P.toNat) c.P.toNat),
         BitVec.ofNat 512 (mulMod J.Y.toNat (mulMod (sqMod zi c.P.toNat) zi c.P.toNat) c.P.toNat)) := by
  by_cases h : J.inf = true ∨ J.Z.toNat % c.P.toNat = 0
  · left; simp only [toAffine, h, if_true]
  · cases hz : invMod J.Z.toNat c.P.toNat with
    | none => left; simp only [toAffine, h, if_false, hz]
    | some zi =>
      right
      have h' := not_or.mp h
      refine ⟨zi, by simpa using h'.1, h'.2, rfl, ?_⟩
      simp only [toAffine, h, if_false, hz]

/-- The loop over `n + 1` bits, the last bit apart (41_point R191). -/
theorem scalarLoop_succ (c : Curve) (k : Nat) (x y : Wide) (n : Nat) (R : Jacobian) :
    scalarLoop c k x y (n + 1) R =
      if k.testBit 0 then mixedAdd c (double c (scalarLoop c (k / 2) x y n R)) x y
      else double c (scalarLoop c (k / 2) x y n R) := by
  induction n generalizing R with
  | zero => rfl
  | succ n ih =>
    have hb : (k / 2).testBit n = k.testBit (n + 1) := by
      rw [Nat.testBit_add_one]
    rw [scalarLoop, ih]
    simp only [scalarLoop, hb]

end Sys2Proof.Machine
end

