-- ==== Sys2Proof/Laws/Draws.lean ====
section
/-!
SUPPORT. The random source and the signing loop: what one draw answers, which draws retry, and what the loop
does.
-/

namespace Sys2Proof.Machine

/-- A draw from a stream with answers ahead takes the first of them (43_protocol R261). -/
theorem RandomSource.draw_ahead (d : Draw) (ds : List Draw) (tail : SourceTail) :
    RandomSource.draw { ahead := d :: ds, tail := tail } = (d, { ahead := ds, tail := tail }) := rfl

/-- A used-up finite stream answers `fail` and stays used up. -/
theorem RandomSource.draw_fails :
    RandomSource.draw { ahead := [], tail := .fails } = (.fail, { ahead := [], tail := .fails }) := rfl

/-- A stream that repeats starts over. -/
theorem RandomSource.draw_repeats (d : Draw) (ds : List Draw) :
    RandomSource.draw { ahead := [], tail := .repeats d ds } = (d, { ahead := ds, tail := .repeats d ds }) :=
  rfl

/-- An unbounded stream goes on to its next free answer. -/
theorem RandomSource.draw_free (n : Nat) :
    RandomSource.draw { ahead := [], tail := .free n } =
      (Config.freeDraw n, { ahead := [], tail := .free (n + 1) }) := rfl

/-- A stream ends after a draw exactly when it did before. -/
theorem RandomSource.draw_tail (r : RandomSource) : r.draw.2.tail = .fails ↔ r.tail = .fails := by
  obtain ⟨ahead, tail⟩ := r
  cases ahead with
  | cons d ds => rfl
  | nil => cases tail <;> simp [RandomSource.draw]

/-- All that a ranged draw can answer: a value in `[1, Q-1]`, or nothing for a failure or a value outside; the
draw is consumed either way (43_protocol R261). -/
theorem drawRange_cases (c : Curve) (r : RandomSource) :
    (∃ k, r.draw.1 = .value k ∧ InRange c k ∧ drawRange c r = (some k, r.draw.2)) ∨
    ((∀ k, r.draw.1 = .value k → ¬ InRange c k) ∧ drawRange c r = (none, r.draw.2)) := by
  unfold drawRange
  rcases hd : r.draw with ⟨d, r'⟩
  cases d with
  | fail => right; simp
  | value x =>
    by_cases hx : x.toNat < 1 ∨ c.Q.toNat - 1 < x.toNat
    · right
      refine ⟨?_, by simp only [if_pos hx]⟩
      intro k hk
      cases hk
      intro hr
      rcases hx with hx | hx
      · exact absurd hr.1 (by omega)
      · exact absurd hr.2 (by omega)
    · left
      exact ⟨x, rfl, ⟨by omega, by omega⟩, by simp only [if_neg hx]⟩

/-- All that one attempt can do with a draw: retry for one of the three reasons, or give the signature
(43_protocol R265). -/
theorem signAttempt_cases (c : Curve) (d e : Nat) (k : Wide) :
    (toAffine c (scalarMult c k.toNat c.GX c.GY) = none ∧ signAttempt c d e k = none) ∨
    ∃ x y, toAffine c (scalarMult c k.toNat c.GX c.GY) = some (x, y) ∧
      ((x.toNat % c.Q.toNat = 0 ∧ signAttempt c d e k = none) ∨
       (x.toNat % c.Q.toNat ≠ 0 ∧ (x.toNat % c.Q.toNat * d + k.toNat * e) % c.Q.toNat = 0 ∧
        signAttempt c d e k = none) ∨
       (x.toNat % c.Q.toNat ≠ 0 ∧ (x.toNat % c.Q.toNat * d + k.toNat * e) % c.Q.toNat ≠ 0 ∧
        signAttempt c d e k = some (BitVec.ofNat 512 (x.toNat % c.Q.toNat),
          BitVec.ofNat 512 ((x.toNat % c.Q.toNat * d + k.toNat * e) % c.Q.toNat)))) := by
  have hs : ∀ a b : Nat, addMod (mulMod a d c.Q.toNat) (mulMod b e c.Q.toNat) c.Q.toNat =
      (a * d + b * e) % c.Q.toNat := fun a b => (Nat.add_mod ..).symm
  unfold signAttempt
  cases h : toAffine c (scalarMult c k.toNat c.GX c.GY) with
  | none => exact .inl ⟨rfl, rfl⟩
  | some p =>
    refine .inr ⟨p.1, p.2, rfl, ?_⟩
    simp only [redMod, hs]
    by_cases hr : p.1.toNat % c.Q.toNat = 0
    · exact .inl ⟨hr, if_pos hr⟩
    · by_cases h0 : (p.1.toNat % c.Q.toNat * d + k.toNat * e) % c.Q.toNat = 0
      · exact .inr (.inl ⟨hr, h0, (if_neg hr).trans (if_pos h0)⟩)
      · exact .inr (.inr ⟨hr, h0, (if_neg hr).trans (if_neg h0)⟩)

/-- The draws that retry are the values of the range on which the attempt gives nothing. -/
theorem retries_iff (c : Curve) (d e : Nat) (z : Draw) :
    Retries c d e z ↔ ∃ k, z = .value k ∧ InRange c k ∧ signAttempt c d e k = none := by
  unfold Retries
  refine exists_congr fun k => and_congr_right fun _ => and_congr_right fun _ => ?_
  rcases signAttempt_cases c d e k with ⟨h, ha⟩ | ⟨x, y, h, ⟨hr, ha⟩ | ⟨_, h0, ha⟩ | ⟨hr, h0, ha⟩⟩
  · simp [h, ha]
  · simp [h, ha, hr]
  · simp [h, ha, h0]
  · simp [h, ha, hr, h0]

/-- One turn of the signing loop: a failed draw ends it, a signature ends it, anything else is a retry with the
rest of the stream (43_protocol R265). -/
theorem signLoop_succ (c : Curve) (d e : Nat) (f : RandomSource → SignEnd) (n : Nat) (r : RandomSource) :
    signLoop c d e f (n + 1) r =
      match drawRange c r with
      | (none, r') => .failed r'
      | (some k, r') =>
        match signAttempt c d e k with
        | some (x, y) => .signed x y r'
        | none => signLoop c d e f n r' := rfl

/-- A draw that retries is used up, and the loop goes on (43_protocol R265). -/
theorem signLoop_retry (c : Curve) (d e : Nat) (f : RandomSource → SignEnd) (n : Nat) (r : RandomSource)
    (h : Retries c d e r.draw.1) : signLoop c d e f (n + 1) r = signLoop c d e f n r.draw.2 := by
  obtain ⟨k, hk, hr, ha⟩ := (retries_iff c d e _).mp h
  rcases drawRange_cases c r with ⟨k', hk', -, hd⟩ | ⟨hd, -⟩
  · cases hk.symm.trans hk'
    rw [signLoop_succ, hd]
    simp only [ha]
  · exact absurd hr (hd k hk)

/-- Retries at the front of any stream are used up one by one (43_protocol R265). -/
theorem signLoop_retries (c : Curve) (d e : Nat) (f : RandomSource → SignEnd) (m : Nat)
    (tries : List Draw) (h : ∀ z ∈ tries, Retries c d e z) (r rest : RandomSource)
    (hd : drawMany tries.length r = (tries, rest)) :
    signLoop c d e f (tries.length + m) r = signLoop c d e f m rest := by
  induction tries generalizing r with
  | nil =>
    have : r = rest := congrArg Prod.snd hd
    rw [this]
    simp
  | cons z tries ih =>
    have h1 : r.draw.1 = z := (List.cons.inj (congrArg Prod.fst hd)).1
    have h2 : (drawMany tries.length r.draw.2).1 = tries := (List.cons.inj (congrArg Prod.fst hd)).2
    have h3 : (drawMany tries.length r.draw.2).2 = rest := congrArg Prod.snd hd
    have hn : (z :: tries).length + m = (tries.length + m) + 1 := by simp; omega
    rw [hn, signLoop_retry c d e f _ r (h1 ▸ h z (List.mem_cons_self ..))]
    exact ih (fun y hy => h y (List.mem_cons_of_mem _ hy)) _ (Prod.ext h2 h3)

/-- The next `n` answers, and those after them, by their numbers (43_protocol R261). -/
theorem drawMany_answer (n : Nat) (r : RandomSource) :
    (drawMany n r).1 = (List.range n).map (fun i => r.answer i) ∧
      ∀ i, (drawMany n r).2.answer i = r.answer (n + i) := by
  induction n generalizing r with
  | zero => exact ⟨rfl, fun i => by simp [drawMany]⟩
  | succ n ih =>
    refine ⟨?_, fun i => ?_⟩
    · simp only [drawMany, (ih _).1, List.range_succ_eq_map, List.map_cons, List.map_map]
      rfl
    · simp only [drawMany, (ih _).2]
      rw [show n + 1 + i = (n + i) + 1 by omega]
      rfl

/-- One turn of the loop with no bound (43_protocol R265). -/
theorem signFrom_turn (c : Curve) (d e : Nat) (r : RandomSource) :
    signFrom c d e r =
      match drawRange c r with
      | (none, r') => some (.failed r')
      | (some k, r') =>
        match signAttempt c d e k with
        | some (x, y) => some (.signed x y r')
        | none => signFrom c d e r' := signFrom.eq_1 c d e r

/-- A draw that retries is used up, and the loop with no bound goes on. -/
theorem signFrom_retry (c : Curve) (d e : Nat) (r : RandomSource) (h : Retries c d e r.draw.1) :
    signFrom c d e r = signFrom c d e r.draw.2 := by
  obtain ⟨k, hk, hr, ha⟩ := (retries_iff c d e _).mp h
  rcases drawRange_cases c r with ⟨k', hk', -, hd⟩ | ⟨hd, -⟩
  · cases hk.symm.trans hk'
    rw [signFrom_turn, hd]
    simp only [ha]
  · exact absurd hr (hd k hk)

/-- Any other draw ends it. -/
theorem signFrom_isSome (c : Curve) (d e : Nat) (r : RandomSource) (h : ¬ Retries c d e r.draw.1) :
    (signFrom c d e r).isSome := by
  rw [signFrom_turn]
  rcases drawRange_cases c r with ⟨k, hk, hr, hd⟩ | ⟨-, hd⟩
  · rw [hd]
    cases ha : signAttempt c d e k with
    | none => exact absurd ((retries_iff c d e _).mpr ⟨k, hk, hr, ha⟩) h
    | some p => simp only [ha]; rfl
  · rw [hd]; rfl

/-- The loop with no bound never ends exactly when every answer leads to a retry
(93_implementation_defined U7). -/
theorem signFrom_eq_none_iff (c : Curve) (d e : Nat) (r : RandomSource) :
    signFrom c d e r = none ↔ ∀ n, Retries c d e (r.answer n) := by
  constructor
  · intro h n
    induction n generalizing r with
    | zero =>
      by_contra hn
      have := signFrom_isSome c d e r hn
      rw [h] at this
      cases this
    | succ n ih =>
      have h0 : Retries c d e r.draw.1 := by
        by_contra hn
        have := signFrom_isSome c d e r hn
        rw [h] at this
        cases this
      exact ih r.draw.2 ((signFrom_retry c d e r h0).symm.trans h)
  · intro h
    cases hs : signFrom c d e r with
    | none => rfl
    | some x =>
      refine absurd h (signFrom.partial_correctness c d e
        (fun r _ => ¬ ∀ n, Retries c d e (RandomSource.answer n r)) ?_ r x hs)
      intro f ih r y hy hall
      obtain ⟨k, hk, hr, ha⟩ := (retries_iff c d e _).mp (hall 0)
      rcases drawRange_cases c r with ⟨k', hk', -, hd⟩ | ⟨hd, -⟩
      · cases hk.symm.trans hk'
        rw [hd] at hy
        simp only [ha] at hy
        exact ih _ _ hy fun n => hall (n + 1)
      · exact hd k hk hr

/-- Attempts made and then the loop with no bound, are the loop with no bound. -/
theorem signLoop_signFrom (c : Curve) (d e n : Nat) (r : RandomSource) :
    signLoop c d e (fun rest => (signFrom c d e rest).getD .endless) n r =
      (signFrom c d e r).getD .endless := by
  induction n generalizing r with
  | zero => rfl
  | succ n ih =>
    rw [signLoop_succ, signFrom_turn]
    rcases drawRange_cases c r with ⟨k, -, -, hd⟩ | ⟨-, hd⟩
    · rw [hd]
      cases ha : signAttempt c d e k with
      | none => simpa only [ha] using ih r.draw.2
      | some p => simp only [ha]; rfl
    · rw [hd]; rfl

/-- An uncapped `sign` is the loop with no bound (43_protocol R265). -/
theorem signOf_uncapped (c : Curve) (d : Nat) (H : Wide) (r : RandomSource) :
    signOf c none d H r = (signFrom c d (eOf c H) r).getD .endless :=
  signLoop_signFrom c d (eOf c H) _ r

/-- A loop that ends does not end in `endless`. -/
theorem signFrom_ne_endless (c : Curve) (d e : Nat) (r : RandomSource) :
    signFrom c d e r ≠ some .endless := by
  intro h
  refine signFrom.partial_correctness c d e (fun _ x => x ≠ .endless) ?_ r _ h rfl
  intro f ih r y hy
  split at hy
  · cases hy; simp
  · split at hy
    · cases hy; simp
    · exact ih _ _ hy

/-- A capped loop always ends. -/
theorem signLoop_failed_ne_endless (c : Curve) (d e n : Nat) (r : RandomSource) :
    signLoop c d e .failed n r ≠ .endless := by
  induction n generalizing r with
  | zero => simp [signLoop]
  | succ n ih =>
    rw [signLoop_succ]
    split
    · simp
    · split
      · simp
      · exact ih _

/-- `sign` never ends exactly when, with no cap, every answer leads to a retry
(93_implementation_defined U7). -/
theorem signOf_eq_endless_iff (c : Curve) (cap : Option Nat) (d : Nat) (H : Wide) (r : RandomSource) :
    signOf c cap d H r = .endless ↔ cap = none ∧ ∀ n, Retries c d (eOf c H) (r.answer n) := by
  cases cap with
  | some n => simpa [signOf] using signLoop_failed_ne_endless c d (eOf c H) n r
  | none =>
    rw [signOf_uncapped, ← signFrom_eq_none_iff]
    cases hs : signFrom c d (eOf c H) r with
    | none => simp
    | some x =>
      have : x ≠ .endless := fun e => signFrom_ne_endless c d (eOf c H) r (e ▸ hs)
      simp [this]

/-- The end of an attempt loop with nothing left to try. -/
theorem signLoop_zero (c : Curve) (d e : Nat) (f : RandomSource → SignEnd) (r : RandomSource) :
    signLoop c d e f 0 r = f r := rfl

end Sys2Proof.Machine
end

