-- ==== Sys2Proof/Laws/Fields.lean ====
section
/-!
SUPPORT. The fields of a packed word, and the operand classes both ways: a register's field names that register,
and a field that names a register is that register's field.
-/

namespace Sys2Proof

/-! ### Format R (30_encoding R91) -/

section
variable (op : BitVec 6) (f1 f2 f3 f4 : BitVec 5) (imm : BitVec 6)

@[simp] theorem formatR_op : (formatR op f1 f2 f3 f4 imm).op = op := by
  ext i hi
  simp only [Command.op, formatR, BitVec.getElem_extractLsb', BitVec.getLsbD_append]
  have h1 : ¬ 26 + i < 6 := by omega
  have h2 : ¬ 26 + i - 6 < 5 := by omega
  have h3 : ¬ 26 + i - 6 - 5 < 5 := by omega
  have h4 : ¬ 26 + i - 6 - 5 - 5 < 5 := by omega
  have h5 : ¬ 26 + i - 6 - 5 - 5 - 5 < 5 := by omega
  have h6 : 26 + i - 6 - 5 - 5 - 5 - 5 = i := by omega
  simp [h1, h2, h3, h4, h5, h6, hi]

@[simp] theorem formatR_f1 : (formatR op f1 f2 f3 f4 imm).f1 = f1 := by
  ext i hi
  simp only [Command.f1, formatR, BitVec.getElem_extractLsb', BitVec.getLsbD_append]
  have h1 : ¬ 21 + i < 6 := by omega
  have h2 : ¬ 21 + i - 6 < 5 := by omega
  have h3 : ¬ 21 + i - 6 - 5 < 5 := by omega
  have h4 : ¬ 21 + i - 6 - 5 - 5 < 5 := by omega
  have h5 : 21 + i - 6 - 5 - 5 - 5 = i := by omega
  simp [h1, h2, h3, h4, h5, hi]

@[simp] theorem formatR_f2 : (formatR op f1 f2 f3 f4 imm).f2 = f2 := by
  ext i hi
  simp only [Command.f2, formatR, BitVec.getElem_extractLsb', BitVec.getLsbD_append]
  have h1 : ¬ 16 + i < 6 := by omega
  have h2 : ¬ 16 + i - 6 < 5 := by omega
  have h3 : ¬ 16 + i - 6 - 5 < 5 := by omega
  have h4 : 16 + i - 6 - 5 - 5 = i := by omega
  simp [h1, h2, h3, h4, hi]

@[simp] theorem formatR_f3 : (formatR op f1 f2 f3 f4 imm).f3 = f3 := by
  ext i hi
  simp only [Command.f3, formatR, BitVec.getElem_extractLsb', BitVec.getLsbD_append]
  have h1 : ¬ 11 + i < 6 := by omega
  have h2 : ¬ 11 + i - 6 < 5 := by omega
  have h3 : 11 + i - 6 - 5 = i := by omega
  simp [h1, h2, h3, hi]

@[simp] theorem formatR_f4 : (formatR op f1 f2 f3 f4 imm).f4 = f4 := by
  ext i hi
  simp only [Command.f4, formatR, BitVec.getElem_extractLsb', BitVec.getLsbD_append]
  have h1 : ¬ 6 + i < 6 := by omega
  have h2 : 6 + i - 6 = i := by omega
  simp [h1, h2, hi]

@[simp] theorem formatR_imm6 : (formatR op f1 f2 f3 f4 imm).imm6 = imm := by
  ext i hi
  simp only [Command.imm6, formatR, BitVec.getElem_extractLsb', BitVec.getLsbD_append]
  simp [hi]

end

/-- A word is its fields of format R packed. -/
theorem formatR_fields (c : Command) : formatR c.op c.f1 c.f2 c.f3 c.f4 c.imm6 = c := by
  apply BitVec.eq_of_getLsbD_eq
  intro i hi
  simp only [formatR, Command.op, Command.f1, Command.f2, Command.f3, Command.f4, Command.imm6,
    BitVec.getLsbD_append, BitVec.getLsbD_extractLsb']
  split_ifs <;> (rw [decide_eq_true (by omega), Bool.true_and]; congr 1; omega)

/-! ### Format I (30_encoding R91) -/

section
variable (op : BitVec 6) (f1 : BitVec 5) (imm : BitVec 21)

@[simp] theorem formatI_op : (formatI op f1 imm).op = op := by
  ext i hi
  simp only [Command.op, formatI, BitVec.getElem_extractLsb', BitVec.getLsbD_append]
  have h1 : ¬ 26 + i < 21 := by omega
  have h2 : ¬ 26 + i - 21 < 5 := by omega
  have h3 : 26 + i - 21 - 5 = i := by omega
  simp [h1, h2, h3, hi]

@[simp] theorem formatI_f1 : (formatI op f1 imm).f1 = f1 := by
  ext i hi
  simp only [Command.f1, formatI, BitVec.getElem_extractLsb', BitVec.getLsbD_append]
  have h1 : ¬ 21 + i < 21 := by omega
  have h2 : 21 + i - 21 = i := by omega
  simp [h1, h2, hi]

@[simp] theorem formatI_imm21 : (formatI op f1 imm).imm21 = imm := by
  ext i hi
  simp only [Command.imm21, formatI, BitVec.getElem_extractLsb', BitVec.getLsbD_append]
  simp [hi]

end

/-- A word is its fields of format I packed. -/
theorem formatI_fields (c : Command) : formatI c.op c.f1 c.imm21 = c := by
  apply BitVec.eq_of_getLsbD_eq
  intro i hi
  simp only [formatI, Command.op, Command.f1, Command.imm21, BitVec.getLsbD_append,
    BitVec.getLsbD_extractLsb']
  split_ifs <;> (rw [decide_eq_true (by omega), Bool.true_and]; congr 1; omega)

/-! ### The operand classes (30_encoding R92) -/

@[simp] theorem wdOf_wdField (r : WDst) : wdOf (wdField r) = some r := by
  revert r; decide

@[simp] theorem wsOf_wsField (r : WSrc) : wsOf (wsField r) = some r := by
  cases r with
  | gen i => revert i; decide
  | cp => decide
  | ca => decide
  | cb => decide
  | cq => decide
  | cgx => decide
  | cgy => decide
  | hh => decide
  | hn => decide
  | hs => decide

@[simp] theorem jOf_jField (r : JReg) : jOf (jField r) = some r := by
  revert r; decide

@[simp] theorem adOf_adField (r : ADst) : adOf (adField r) = some r := by
  revert r; decide

@[simp] theorem asOf_asField (r : ASrc) : asOf (asField r) = some r := by
  cases r with
  | reg i => revert i; decide
  | ag => decide

@[simp] theorem unused_zero {n : Nat} : unused (0 : BitVec n) = some () := by
  simp [unused]

theorem wdField_of_wdOf (f : BitVec 5) (r : WDst) (h : wdOf f = some r) : wdField r = f := by
  revert f r; decide

theorem wsField_of_wsOf (f : BitVec 5) (r : WSrc) (h : wsOf f = some r) : wsField r = f := by
  have key : ∀ f : BitVec 5, ∀ r ∈ wsOf f, wsField r = f := by decide
  exact key f r (by simp [h])

theorem jField_of_jOf (f : BitVec 5) (r : JReg) (h : jOf f = some r) : jField r = f := by
  revert f r; decide

theorem adField_of_adOf (f : BitVec 5) (r : ADst) (h : adOf f = some r) : adField r = f := by
  revert f r; decide

theorem asField_of_asOf (f : BitVec 5) (r : ASrc) (h : asOf f = some r) : asField r = f := by
  have key : ∀ f : BitVec 5, ∀ r ∈ asOf f, asField r = f := by decide
  exact key f r (by simp [h])

theorem eq_zero_of_unused {n : Nat} (f : BitVec n) (h : unused f = some ()) : f = 0 := by
  unfold unused at h
  split at h
  · assumption
  · cases h

end Sys2Proof
end

