-- ==== Sys2Proof/Laws/Memory.lean ====
section
/-!
SUPPORT. The message memory: what a byte reads as after a write, and that every operation keeps the canonical
form.
-/

namespace Sys2Proof.Machine

/-- Every listed offset lies above `n`. -/
def Memory.Above (n : Nat) (m : Memory) : Prop := ∀ c ∈ m, n < c.1

theorem Memory.wf_cons (c : Host.Cell) (m : Memory) :
    Memory.wf (c :: m) = true ↔ c.2 ≠ unwrittenByte ∧ Memory.Above c.1 m ∧ Memory.wf m = true := by
  induction m generalizing c with
  | nil => simp [Memory.wf, Memory.Above]
  | cons d m ih =>
    obtain ⟨k, b⟩ := c
    obtain ⟨k', b'⟩ := d
    have h := ih (k', b')
    simp only [Memory.wf, Bool.and_eq_true, bne_iff_ne, decide_eq_true_eq, h]
    constructor
    · rintro ⟨⟨hb, hk⟩, hb', ha, hw⟩
      refine ⟨hb, ?_, hb', ha, hw⟩
      intro e he
      rcases List.mem_cons.mp he with rfl | he
      · exact hk
      · exact lt_trans hk (ha e he)
    · rintro ⟨hb, ha, hb', ha', hw⟩
      exact ⟨⟨hb, ha _ (List.mem_cons_self ..)⟩, hb', ha', hw⟩

theorem Memory.read_above (n : Nat) (m : Memory) (h : Memory.Above n m) (k : Nat) (hk : k ≤ n) :
    m.read k = unwrittenByte := by
  induction m with
  | nil => rfl
  | cons c m ih =>
    have hc := h c (List.mem_cons_self ..)
    have : k ≠ c.1 := by omega
    simp only [Memory.read, this, if_false]
    exact ih fun e he => h e (List.mem_cons_of_mem _ he)

/-- Where a write can put an entry. -/
theorem Memory.mem_write (m : Memory) (k : Nat) (b : Byte) (c : Host.Cell) (h : c ∈ m.write k b) :
    c ∈ m ∨ c.1 = k := by
  induction m with
  | nil =>
    simp only [Memory.write] at h
    split at h
    · simp at h
    · simp only [List.mem_singleton] at h; right; rw [h]
  | cons d m ih =>
    obtain ⟨k', b'⟩ := d
    simp only [Memory.write] at h
    split at h
    · split at h
      · exact .inl h
      · rcases List.mem_cons.mp h with rfl | h
        · exact .inr rfl
        · exact .inl h
    · split at h
      · split at h
        · exact .inl (List.mem_cons_of_mem _ h)
        · rcases List.mem_cons.mp h with rfl | h
          · exact .inr rfl
          · exact .inl (List.mem_cons_of_mem _ h)
      · rcases List.mem_cons.mp h with rfl | h
        · exact .inl (List.mem_cons_self ..)
        · rcases ih h with h | h
          · exact .inl (List.mem_cons_of_mem _ h)
          · exact .inr h

/-- A write keeps the canonical form. -/
theorem Memory.write_wf (m : Memory) (k : Nat) (b : Byte) (h : m.wf = true) : (m.write k b).wf = true := by
  induction m with
  | nil =>
    simp only [Memory.write]
    split
    · rfl
    · simpa [Memory.wf]
  | cons d m ih =>
    obtain ⟨k', b'⟩ := d
    have hd := (Memory.wf_cons _ _).mp h
    obtain ⟨hb', ha, hw⟩ := hd
    simp only [Memory.write]
    split
    case isTrue hk =>
      split
      · exact h
      · refine (Memory.wf_cons _ _).mpr ⟨‹_›, ?_, h⟩
        intro e he
        rcases List.mem_cons.mp he with rfl | he
        · exact hk
        · exact lt_trans hk (ha e he)
    case isFalse hk =>
      split
      case isTrue he =>
        split
        · exact hw
        · exact (Memory.wf_cons _ _).mpr ⟨‹_›, by subst he; exact ha, hw⟩
      case isFalse he =>
        refine (Memory.wf_cons _ _).mpr ⟨hb', ?_, ih hw⟩
        intro e hm
        rcases Memory.mem_write m k b e hm with hm | hm
        · exact ha e hm
        · simp only [hm]; omega

/-- The byte read after a write: the byte written at its offset, the old byte at every other. -/
theorem Memory.read_write (m : Memory) (k : Nat) (b : Byte) (h : m.wf = true) (i : Nat) :
    (m.write k b).read i = if i = k then b else m.read i := by
  induction m with
  | nil =>
    simp only [Memory.write]
    split
    · next hb => subst hb; simp [Memory.read]
    · simp [Memory.read]
  | cons d m ih =>
    obtain ⟨k', b'⟩ := d
    obtain ⟨hb', ha, hw⟩ := (Memory.wf_cons _ _).mp h
    simp only at ha hb'
    simp only [Memory.write]
    split
    case isTrue hk =>
      split
      · next hb =>
        subst hb
        by_cases hi : i = k
        · subst hi
          rw [if_pos rfl]
          have : i ≠ k' := by omega
          simp only [Memory.read, this, if_false]
          exact Memory.read_above k' m ha i (by omega)
        · simp [hi]
      · simp [Memory.read]
    case isFalse hk =>
      split
      case isTrue he =>
        subst he
        split
        · next hb =>
          subst hb
          by_cases hi : i = k
          · subst hi; simp [Memory.read_above i m ha i le_rfl]
          · simp [Memory.read, hi]
        · by_cases hi : i = k
          · simp [Memory.read, hi]
          · simp [Memory.read, hi]
      case isFalse he =>
        simp only [Memory.read]
        rw [ih hw]
        by_cases hi : i = k'
        · have : i ≠ k := by omega
          simp [hi]
          intro hh; omega
        · simp [hi]

/-- A bus write keeps the canonical form. -/
theorem Memory.writeBus_wf (m : Memory) (k : Nat) (d : BusWord) (h : m.wf = true) :
    (m.writeBus k d).wf = true :=
  Memory.write_wf _ _ _ (Memory.write_wf _ _ _ (Memory.write_wf _ _ _ (Memory.write_wf _ _ _ h)))

/-- Where a bus write can put an entry. -/
theorem Memory.mem_writeBus (m : Memory) (k : Nat) (d : BusWord) (c : Host.Cell) (h : c ∈ m.writeBus k d) :
    c ∈ m ∨ k ≤ c.1 ∧ c.1 ≤ k + 3 := by
  rcases Memory.mem_write _ _ _ _ h with h | h
  · rcases Memory.mem_write _ _ _ _ h with h | h
    · rcases Memory.mem_write _ _ _ _ h with h | h
      · rcases Memory.mem_write _ _ _ _ h with h | h
        · exact .inl h
        · right; omega
      · right; omega
    · right; omega
  · right; omega

/-- The byte read after a bus write (20_memory R64): `msg[k]` from bits 31:24, `msg[k+1]` from bits 23:16,
`msg[k+2]` from bits 15:8, `msg[k+3]` from bits 7:0, every other byte as before. -/
theorem Memory.read_writeBus (m : Memory) (k : Nat) (d : BusWord) (h : m.wf = true) (i : Nat) :
    (m.writeBus k d).read i =
      if i = k then d.extractLsb' 24 8
      else if i = k + 1 then d.extractLsb' 16 8
      else if i = k + 2 then d.extractLsb' 8 8
      else if i = k + 3 then d.extractLsb' 0 8
      else m.read i := by
  have h1 := Memory.write_wf m k (d.extractLsb' 24 8) h
  have h2 := Memory.write_wf _ (k + 1) (d.extractLsb' 16 8) h1
  have h3 := Memory.write_wf _ (k + 2) (d.extractLsb' 8 8) h2
  simp only [Memory.writeBus, Memory.read_write _ _ _ h3, Memory.read_write _ _ _ h2,
    Memory.read_write _ _ _ h1, Memory.read_write _ _ _ h]
  split_ifs <;> first | rfl | omega

/-- `MemRead` answers as many bytes as it is asked for. -/
@[simp] theorem memRead_length (m : Memory) (k n : Nat) : (memRead m k n).length = n := by
  simp [memRead]

/-- The bytes `MemRead` answers (20_memory R62). -/
theorem memRead_getElem (m : Memory) (k n i : Nat) (h : i < (memRead m k n).length) :
    (memRead m k n)[i] = m.read (k + i) := by
  simp [memRead]

/-- `MemRead` depends on the bytes of its range alone. -/
theorem memRead_congr (m m' : Memory) (k n : Nat) (h : ∀ i, k ≤ i → i < k + n → m.read i = m'.read i) :
    memRead m k n = memRead m' k n := by
  apply List.map_congr_left
  intro i hi
  have := List.mem_range.mp hi
  exact h (k + i) (by omega) (by omega)

/-- The memory of the reset state is canonical. -/
theorem State.resetOf_memory_wf (p : Params) (r : RandomSource) (q : List HostEvent) (l : List Reply) :
    (State.resetOf p r q l).msg.wf = true := rfl

end Sys2Proof.Machine
end

