-- ==== Sys2Proof/Laws/State.lean ====
section
/-!
SUPPORT. The small lemmas of the state's updates: one for each field of each update, so that no later proof
unfolds one; and what reading a register gives after a register write.
-/

namespace Sys2Proof.Machine

/-! ### setW -/

@[simp] theorem State.setW_params (s : State) (i : WDst) (v : Wide) :
    (s.setW i v).params = s.params := rfl

@[simp] theorem State.setW_w (s : State) (i : WDst) (v : Wide) :
    (s.setW i v).w = s.w.set i.val v := rfl

@[simp] theorem State.setW_hh (s : State) (i : WDst) (v : Wide) :
    (s.setW i v).hh = s.hh := rfl

@[simp] theorem State.setW_hn (s : State) (i : WDst) (v : Wide) :
    (s.setW i v).hn = s.hn := rfl

@[simp] theorem State.setW_hs (s : State) (i : WDst) (v : Wide) :
    (s.setW i v).hs = s.hs := rfl

@[simp] theorem State.setW_j (s : State) (i : WDst) (v : Wide) :
    (s.setW i v).j = s.j := rfl

@[simp] theorem State.setW_a (s : State) (i : WDst) (v : Wide) :
    (s.setW i v).a = s.a := rfl

@[simp] theorem State.setW_err (s : State) (i : WDst) (v : Wide) :
    (s.setW i v).err = s.err := rfl

@[simp] theorem State.setW_errCode (s : State) (i : WDst) (v : Wide) :
    (s.setW i v).errCode = s.errCode := rfl

@[simp] theorem State.setW_errCmd (s : State) (i : WDst) (v : Wide) :
    (s.setW i v).errCmd = s.errCmd := rfl

@[simp] theorem State.setW_mlen (s : State) (i : WDst) (v : Wide) :
    (s.setW i v).mlen = s.mlen := rfl

@[simp] theorem State.setW_msg (s : State) (i : WDst) (v : Wide) :
    (s.setW i v).msg = s.msg := rfl

@[simp] theorem State.setW_source (s : State) (i : WDst) (v : Wide) :
    (s.setW i v).source = s.source := rfl

@[simp] theorem State.setW_signing (s : State) (i : WDst) (v : Wide) :
    (s.setW i v).signing = s.signing := rfl

@[simp] theorem State.setW_pending (s : State) (i : WDst) (v : Wide) :
    (s.setW i v).pending = s.pending := rfl

@[simp] theorem State.setW_replies (s : State) (i : WDst) (v : Wide) :
    (s.setW i v).replies = s.replies := rfl

/-! ### setJ -/

@[simp] theorem State.setJ_params (s : State) (i : JReg) (r : Jacobian) :
    (s.setJ i r).params = s.params := rfl

@[simp] theorem State.setJ_w (s : State) (i : JReg) (r : Jacobian) :
    (s.setJ i r).w = s.w := rfl

@[simp] theorem State.setJ_hh (s : State) (i : JReg) (r : Jacobian) :
    (s.setJ i r).hh = s.hh := rfl

@[simp] theorem State.setJ_hn (s : State) (i : JReg) (r : Jacobian) :
    (s.setJ i r).hn = s.hn := rfl

@[simp] theorem State.setJ_hs (s : State) (i : JReg) (r : Jacobian) :
    (s.setJ i r).hs = s.hs := rfl

@[simp] theorem State.setJ_j (s : State) (i : JReg) (r : Jacobian) :
    (s.setJ i r).j = s.j.set i.val r := rfl

@[simp] theorem State.setJ_a (s : State) (i : JReg) (r : Jacobian) :
    (s.setJ i r).a = s.a := rfl

@[simp] theorem State.setJ_err (s : State) (i : JReg) (r : Jacobian) :
    (s.setJ i r).err = s.err := rfl

@[simp] theorem State.setJ_errCode (s : State) (i : JReg) (r : Jacobian) :
    (s.setJ i r).errCode = s.errCode := rfl

@[simp] theorem State.setJ_errCmd (s : State) (i : JReg) (r : Jacobian) :
    (s.setJ i r).errCmd = s.errCmd := rfl

@[simp] theorem State.setJ_mlen (s : State) (i : JReg) (r : Jacobian) :
    (s.setJ i r).mlen = s.mlen := rfl

@[simp] theorem State.setJ_msg (s : State) (i : JReg) (r : Jacobian) :
    (s.setJ i r).msg = s.msg := rfl

@[simp] theorem State.setJ_source (s : State) (i : JReg) (r : Jacobian) :
    (s.setJ i r).source = s.source := rfl

@[simp] theorem State.setJ_signing (s : State) (i : JReg) (r : Jacobian) :
    (s.setJ i r).signing = s.signing := rfl

@[simp] theorem State.setJ_pending (s : State) (i : JReg) (r : Jacobian) :
    (s.setJ i r).pending = s.pending := rfl

@[simp] theorem State.setJ_replies (s : State) (i : JReg) (r : Jacobian) :
    (s.setJ i r).replies = s.replies := rfl

/-! ### setA -/

@[simp] theorem State.setA_params (s : State) (i : ADst) (r : Affine) :
    (s.setA i r).params = s.params := rfl

@[simp] theorem State.setA_w (s : State) (i : ADst) (r : Affine) :
    (s.setA i r).w = s.w := rfl

@[simp] theorem State.setA_hh (s : State) (i : ADst) (r : Affine) :
    (s.setA i r).hh = s.hh := rfl

@[simp] theorem State.setA_hn (s : State) (i : ADst) (r : Affine) :
    (s.setA i r).hn = s.hn := rfl

@[simp] theorem State.setA_hs (s : State) (i : ADst) (r : Affine) :
    (s.setA i r).hs = s.hs := rfl

@[simp] theorem State.setA_j (s : State) (i : ADst) (r : Affine) :
    (s.setA i r).j = s.j := rfl

@[simp] theorem State.setA_a (s : State) (i : ADst) (r : Affine) :
    (s.setA i r).a = s.a.set i.val r := rfl

@[simp] theorem State.setA_err (s : State) (i : ADst) (r : Affine) :
    (s.setA i r).err = s.err := rfl

@[simp] theorem State.setA_errCode (s : State) (i : ADst) (r : Affine) :
    (s.setA i r).errCode = s.errCode := rfl

@[simp] theorem State.setA_errCmd (s : State) (i : ADst) (r : Affine) :
    (s.setA i r).errCmd = s.errCmd := rfl

@[simp] theorem State.setA_mlen (s : State) (i : ADst) (r : Affine) :
    (s.setA i r).mlen = s.mlen := rfl

@[simp] theorem State.setA_msg (s : State) (i : ADst) (r : Affine) :
    (s.setA i r).msg = s.msg := rfl

@[simp] theorem State.setA_source (s : State) (i : ADst) (r : Affine) :
    (s.setA i r).source = s.source := rfl

@[simp] theorem State.setA_signing (s : State) (i : ADst) (r : Affine) :
    (s.setA i r).signing = s.signing := rfl

@[simp] theorem State.setA_pending (s : State) (i : ADst) (r : Affine) :
    (s.setA i r).pending = s.pending := rfl

@[simp] theorem State.setA_replies (s : State) (i : ADst) (r : Affine) :
    (s.setA i r).replies = s.replies := rfl

/-! ### setHash -/

@[simp] theorem State.setHash_params (s : State) (h n sg : Wide) :
    (s.setHash h n sg).params = s.params := rfl

@[simp] theorem State.setHash_w (s : State) (h n sg : Wide) :
    (s.setHash h n sg).w = s.w := rfl

@[simp] theorem State.setHash_hh (s : State) (h n sg : Wide) :
    (s.setHash h n sg).hh = h := rfl

@[simp] theorem State.setHash_hn (s : State) (h n sg : Wide) :
    (s.setHash h n sg).hn = n := rfl

@[simp] theorem State.setHash_hs (s : State) (h n sg : Wide) :
    (s.setHash h n sg).hs = sg := rfl

@[simp] theorem State.setHash_j (s : State) (h n sg : Wide) :
    (s.setHash h n sg).j = s.j := rfl

@[simp] theorem State.setHash_a (s : State) (h n sg : Wide) :
    (s.setHash h n sg).a = s.a := rfl

@[simp] theorem State.setHash_err (s : State) (h n sg : Wide) :
    (s.setHash h n sg).err = s.err := rfl

@[simp] theorem State.setHash_errCode (s : State) (h n sg : Wide) :
    (s.setHash h n sg).errCode = s.errCode := rfl

@[simp] theorem State.setHash_errCmd (s : State) (h n sg : Wide) :
    (s.setHash h n sg).errCmd = s.errCmd := rfl

@[simp] theorem State.setHash_mlen (s : State) (h n sg : Wide) :
    (s.setHash h n sg).mlen = s.mlen := rfl

@[simp] theorem State.setHash_msg (s : State) (h n sg : Wide) :
    (s.setHash h n sg).msg = s.msg := rfl

@[simp] theorem State.setHash_source (s : State) (h n sg : Wide) :
    (s.setHash h n sg).source = s.source := rfl

@[simp] theorem State.setHash_signing (s : State) (h n sg : Wide) :
    (s.setHash h n sg).signing = s.signing := rfl

@[simp] theorem State.setHash_pending (s : State) (h n sg : Wide) :
    (s.setHash h n sg).pending = s.pending := rfl

@[simp] theorem State.setHash_replies (s : State) (h n sg : Wide) :
    (s.setHash h n sg).replies = s.replies := rfl

/-! ### zeroHash -/

@[simp] theorem State.zeroHash_params (s : State) :
    (s.zeroHash).params = s.params := rfl

@[simp] theorem State.zeroHash_w (s : State) :
    (s.zeroHash).w = s.w := rfl

@[simp] theorem State.zeroHash_hh (s : State) :
    (s.zeroHash).hh = 0 := rfl

@[simp] theorem State.zeroHash_hn (s : State) :
    (s.zeroHash).hn = 0 := rfl

@[simp] theorem State.zeroHash_hs (s : State) :
    (s.zeroHash).hs = 0 := rfl

@[simp] theorem State.zeroHash_j (s : State) :
    (s.zeroHash).j = s.j := rfl

@[simp] theorem State.zeroHash_a (s : State) :
    (s.zeroHash).a = s.a := rfl

@[simp] theorem State.zeroHash_err (s : State) :
    (s.zeroHash).err = s.err := rfl

@[simp] theorem State.zeroHash_errCode (s : State) :
    (s.zeroHash).errCode = s.errCode := rfl

@[simp] theorem State.zeroHash_errCmd (s : State) :
    (s.zeroHash).errCmd = s.errCmd := rfl

@[simp] theorem State.zeroHash_mlen (s : State) :
    (s.zeroHash).mlen = s.mlen := rfl

@[simp] theorem State.zeroHash_msg (s : State) :
    (s.zeroHash).msg = s.msg := rfl

@[simp] theorem State.zeroHash_source (s : State) :
    (s.zeroHash).source = s.source := rfl

@[simp] theorem State.zeroHash_signing (s : State) :
    (s.zeroHash).signing = s.signing := rfl

@[simp] theorem State.zeroHash_pending (s : State) :
    (s.zeroHash).pending = s.pending := rfl

@[simp] theorem State.zeroHash_replies (s : State) :
    (s.zeroHash).replies = s.replies := rfl

/-! ### setSource -/

@[simp] theorem State.setSource_params (s : State) (r : RandomSource) :
    (s.setSource r).params = s.params := rfl

@[simp] theorem State.setSource_w (s : State) (r : RandomSource) :
    (s.setSource r).w = s.w := rfl

@[simp] theorem State.setSource_hh (s : State) (r : RandomSource) :
    (s.setSource r).hh = s.hh := rfl

@[simp] theorem State.setSource_hn (s : State) (r : RandomSource) :
    (s.setSource r).hn = s.hn := rfl

@[simp] theorem State.setSource_hs (s : State) (r : RandomSource) :
    (s.setSource r).hs = s.hs := rfl

@[simp] theorem State.setSource_j (s : State) (r : RandomSource) :
    (s.setSource r).j = s.j := rfl

@[simp] theorem State.setSource_a (s : State) (r : RandomSource) :
    (s.setSource r).a = s.a := rfl

@[simp] theorem State.setSource_err (s : State) (r : RandomSource) :
    (s.setSource r).err = s.err := rfl

@[simp] theorem State.setSource_errCode (s : State) (r : RandomSource) :
    (s.setSource r).errCode = s.errCode := rfl

@[simp] theorem State.setSource_errCmd (s : State) (r : RandomSource) :
    (s.setSource r).errCmd = s.errCmd := rfl

@[simp] theorem State.setSource_mlen (s : State) (r : RandomSource) :
    (s.setSource r).mlen = s.mlen := rfl

@[simp] theorem State.setSource_msg (s : State) (r : RandomSource) :
    (s.setSource r).msg = s.msg := rfl

@[simp] theorem State.setSource_source (s : State) (r : RandomSource) :
    (s.setSource r).source = r := rfl

@[simp] theorem State.setSource_signing (s : State) (r : RandomSource) :
    (s.setSource r).signing = s.signing := rfl

@[simp] theorem State.setSource_pending (s : State) (r : RandomSource) :
    (s.setSource r).pending = s.pending := rfl

@[simp] theorem State.setSource_replies (s : State) (r : RandomSource) :
    (s.setSource r).replies = s.replies := rfl

/-! ### setSigning -/

@[simp] theorem State.setSigning_params (s : State) (g : Option Signing) :
    (s.setSigning g).params = s.params := rfl

@[simp] theorem State.setSigning_w (s : State) (g : Option Signing) :
    (s.setSigning g).w = s.w := rfl

@[simp] theorem State.setSigning_hh (s : State) (g : Option Signing) :
    (s.setSigning g).hh = s.hh := rfl

@[simp] theorem State.setSigning_hn (s : State) (g : Option Signing) :
    (s.setSigning g).hn = s.hn := rfl

@[simp] theorem State.setSigning_hs (s : State) (g : Option Signing) :
    (s.setSigning g).hs = s.hs := rfl

@[simp] theorem State.setSigning_j (s : State) (g : Option Signing) :
    (s.setSigning g).j = s.j := rfl

@[simp] theorem State.setSigning_a (s : State) (g : Option Signing) :
    (s.setSigning g).a = s.a := rfl

@[simp] theorem State.setSigning_err (s : State) (g : Option Signing) :
    (s.setSigning g).err = s.err := rfl

@[simp] theorem State.setSigning_errCode (s : State) (g : Option Signing) :
    (s.setSigning g).errCode = s.errCode := rfl

@[simp] theorem State.setSigning_errCmd (s : State) (g : Option Signing) :
    (s.setSigning g).errCmd = s.errCmd := rfl

@[simp] theorem State.setSigning_mlen (s : State) (g : Option Signing) :
    (s.setSigning g).mlen = s.mlen := rfl

@[simp] theorem State.setSigning_msg (s : State) (g : Option Signing) :
    (s.setSigning g).msg = s.msg := rfl

@[simp] theorem State.setSigning_source (s : State) (g : Option Signing) :
    (s.setSigning g).source = s.source := rfl

@[simp] theorem State.setSigning_signing (s : State) (g : Option Signing) :
    (s.setSigning g).signing = g := rfl

@[simp] theorem State.setSigning_pending (s : State) (g : Option Signing) :
    (s.setSigning g).pending = s.pending := rfl

@[simp] theorem State.setSigning_replies (s : State) (g : Option Signing) :
    (s.setSigning g).replies = s.replies := rfl

/-! ### raise -/

@[simp] theorem State.raise_params (s : State) (e : ErrorKind) (word : Command) :
    (s.raise e word).params = s.params := rfl

@[simp] theorem State.raise_w (s : State) (e : ErrorKind) (word : Command) :
    (s.raise e word).w = s.w := rfl

@[simp] theorem State.raise_hh (s : State) (e : ErrorKind) (word : Command) :
    (s.raise e word).hh = s.hh := rfl

@[simp] theorem State.raise_hn (s : State) (e : ErrorKind) (word : Command) :
    (s.raise e word).hn = s.hn := rfl

@[simp] theorem State.raise_hs (s : State) (e : ErrorKind) (word : Command) :
    (s.raise e word).hs = s.hs := rfl

@[simp] theorem State.raise_j (s : State) (e : ErrorKind) (word : Command) :
    (s.raise e word).j = s.j := rfl

@[simp] theorem State.raise_a (s : State) (e : ErrorKind) (word : Command) :
    (s.raise e word).a = s.a := rfl

@[simp] theorem State.raise_err (s : State) (e : ErrorKind) (word : Command) :
    (s.raise e word).err = true := rfl

@[simp] theorem State.raise_errCode (s : State) (e : ErrorKind) (word : Command) :
    (s.raise e word).errCode = e.code := rfl

@[simp] theorem State.raise_errCmd (s : State) (e : ErrorKind) (word : Command) :
    (s.raise e word).errCmd = word := rfl

@[simp] theorem State.raise_mlen (s : State) (e : ErrorKind) (word : Command) :
    (s.raise e word).mlen = s.mlen := rfl

@[simp] theorem State.raise_msg (s : State) (e : ErrorKind) (word : Command) :
    (s.raise e word).msg = s.msg := rfl

@[simp] theorem State.raise_source (s : State) (e : ErrorKind) (word : Command) :
    (s.raise e word).source = s.source := rfl

@[simp] theorem State.raise_signing (s : State) (e : ErrorKind) (word : Command) :
    (s.raise e word).signing = s.signing := rfl

@[simp] theorem State.raise_pending (s : State) (e : ErrorKind) (word : Command) :
    (s.raise e word).pending = s.pending := rfl

@[simp] theorem State.raise_replies (s : State) (e : ErrorKind) (word : Command) :
    (s.raise e word).replies = s.replies := rfl

/-! ### clearError -/

@[simp] theorem State.clearError_params (s : State) :
    (s.clearError).params = s.params := rfl

@[simp] theorem State.clearError_w (s : State) :
    (s.clearError).w = s.w := rfl

@[simp] theorem State.clearError_hh (s : State) :
    (s.clearError).hh = s.hh := rfl

@[simp] theorem State.clearError_hn (s : State) :
    (s.clearError).hn = s.hn := rfl

@[simp] theorem State.clearError_hs (s : State) :
    (s.clearError).hs = s.hs := rfl

@[simp] theorem State.clearError_j (s : State) :
    (s.clearError).j = s.j := rfl

@[simp] theorem State.clearError_a (s : State) :
    (s.clearError).a = s.a := rfl

@[simp] theorem State.clearError_err (s : State) :
    (s.clearError).err = false := rfl

@[simp] theorem State.clearError_errCode (s : State) :
    (s.clearError).errCode = 0 := rfl

@[simp] theorem State.clearError_errCmd (s : State) :
    (s.clearError).errCmd = 0 := rfl

@[simp] theorem State.clearError_mlen (s : State) :
    (s.clearError).mlen = s.mlen := rfl

@[simp] theorem State.clearError_msg (s : State) :
    (s.clearError).msg = s.msg := rfl

@[simp] theorem State.clearError_source (s : State) :
    (s.clearError).source = s.source := rfl

@[simp] theorem State.clearError_signing (s : State) :
    (s.clearError).signing = s.signing := rfl

@[simp] theorem State.clearError_pending (s : State) :
    (s.clearError).pending = s.pending := rfl

@[simp] theorem State.clearError_replies (s : State) :
    (s.clearError).replies = s.replies := rfl

/-! ### answer -/

@[simp] theorem State.answer_params (s : State) (r : Reply) :
    (s.answer r).params = s.params := rfl

@[simp] theorem State.answer_w (s : State) (r : Reply) :
    (s.answer r).w = s.w := rfl

@[simp] theorem State.answer_hh (s : State) (r : Reply) :
    (s.answer r).hh = s.hh := rfl

@[simp] theorem State.answer_hn (s : State) (r : Reply) :
    (s.answer r).hn = s.hn := rfl

@[simp] theorem State.answer_hs (s : State) (r : Reply) :
    (s.answer r).hs = s.hs := rfl

@[simp] theorem State.answer_j (s : State) (r : Reply) :
    (s.answer r).j = s.j := rfl

@[simp] theorem State.answer_a (s : State) (r : Reply) :
    (s.answer r).a = s.a := rfl

@[simp] theorem State.answer_err (s : State) (r : Reply) :
    (s.answer r).err = s.err := rfl

@[simp] theorem State.answer_errCode (s : State) (r : Reply) :
    (s.answer r).errCode = s.errCode := rfl

@[simp] theorem State.answer_errCmd (s : State) (r : Reply) :
    (s.answer r).errCmd = s.errCmd := rfl

@[simp] theorem State.answer_mlen (s : State) (r : Reply) :
    (s.answer r).mlen = s.mlen := rfl

@[simp] theorem State.answer_msg (s : State) (r : Reply) :
    (s.answer r).msg = s.msg := rfl

@[simp] theorem State.answer_source (s : State) (r : Reply) :
    (s.answer r).source = s.source := rfl

@[simp] theorem State.answer_signing (s : State) (r : Reply) :
    (s.answer r).signing = s.signing := rfl

@[simp] theorem State.answer_pending (s : State) (r : Reply) :
    (s.answer r).pending = s.pending := rfl

@[simp] theorem State.answer_replies (s : State) (r : Reply) :
    (s.answer r).replies = r :: s.replies := rfl

/-! ### Reading a register after a write -/

@[simp] theorem State.setW_get_same (s : State) (i : WDst) (v : Wide) : (s.setW i v).w[i] = v := by
  simp

theorem State.setW_get_other (s : State) (i k : WDst) (v : Wide) (h : k ≠ i) :
    (s.setW i v).w[k] = s.w[k] := by
  have : i.val ≠ k.val := fun e => h (Fin.ext e.symm)
  simp [this]

@[simp] theorem State.setJ_get_same (s : State) (i : JReg) (r : Jacobian) : (s.setJ i r).j[i] = r := by
  simp

theorem State.setJ_get_other (s : State) (i k : JReg) (r : Jacobian) (h : k ≠ i) :
    (s.setJ i r).j[k] = s.j[k] := by
  have : i.val ≠ k.val := fun e => h (Fin.ext e.symm)
  simp [this]

@[simp] theorem State.setA_get_same (s : State) (i : ADst) (r : Affine) : (s.setA i r).a[i] = r := by
  simp

theorem State.setA_get_other (s : State) (i k : ADst) (r : Affine) (h : k ≠ i) :
    (s.setA i r).a[k] = s.a[k] := by
  have : i.val ≠ k.val := fun e => h (Fin.ext e.symm)
  simp [this]

/-- A wide source read after a wide register write: the value written for that register, the old value for
every other index. -/
theorem State.wide_setW (s : State) (i : WDst) (v : Wide) (r : WSrc) :
    (s.setW i v).wide r = if r = .gen i then v else s.wide r := by
  cases r with
  | gen k =>
    by_cases h : k = i
    · subst h; simp [State.wide]
    · simp only [State.wide, WSrc.gen.injEq, h, if_false]
      exact State.setW_get_other s i k v h
  | cp => simp [State.wide]
  | ca => simp [State.wide]
  | cb => simp [State.wide]
  | cq => simp [State.wide]
  | cgx => simp [State.wide]
  | cgy => simp [State.wide]
  | hh => simp [State.wide]
  | hn => simp [State.wide]
  | hs => simp [State.wide]

theorem State.jac_setJ (s : State) (i : JReg) (r : Jacobian) (k : JReg) :
    (s.setJ i r).jac k = if k = i then r else s.jac k := by
  by_cases h : k = i
  · subst h; simp [State.jac]
  · simp only [State.jac, h, if_false]; exact State.setJ_get_other s i k r h

end Sys2Proof.Machine
end

