-- ==== Sys2Proof/Laws/Ops.lean ====
section
/-!
SUPPORT. The shared operations, once each: what a checked operand read answers, what ends a command, and the
frame of every update.
-/

namespace Sys2Proof.Machine

/-! ### The operand checks -/

theorem toNat_eq_zero {n : Nat} (v : BitVec n) : v.toNat = 0 ↔ v = 0 :=
  ⟨fun h => BitVec.eq_of_toNat_eq (by simpa using h), fun h => by simp [h]⟩

/-- All that a modulus check can do: the fault of a zero modulus, or the continuation on its value
(40_field R128). -/
theorem withModulus_next {i : Instr} {wm : WSrc} {s t : State} {k : Nat → Result}
    (h : withModulus i wm s k = .next t) :
    (s.wide wm = 0 ∧ t = s.raise .modulusZero (encode i)) ∨
    (s.wide wm ≠ 0 ∧ 1 ≤ (s.wide wm).toNat ∧ k (s.wide wm).toNat = .next t) := by
  unfold withModulus at h
  split at h
  · next hz =>
    refine .inl ⟨(toNat_eq_zero _).mp hz, ?_⟩
    simpa [trap] using h.symm
  · next hz => exact .inr ⟨fun e => hz ((toNat_eq_zero _).mpr e), Nat.pos_of_ne_zero hz, h⟩

theorem withModulus_zero {i : Instr} {wm : WSrc} {s : State} (k : Nat → Result) (h : s.wide wm = 0) :
    withModulus i wm s k = .next (s.raise .modulusZero (encode i)) := by
  exact if_pos ((toNat_eq_zero _).mpr h)

theorem withModulus_pos {i : Instr} {wm : WSrc} {s : State} (k : Nat → Result) (h : s.wide wm ≠ 0) :
    withModulus i wm s k = k (s.wide wm).toNat := by
  exact if_neg fun e => h ((toNat_eq_zero _).mp e)

/-- All that an affine operand check can do (60_exceptions R291 code 5). -/
theorem withPoint_next {i : Instr} {ap : ASrc} {s t : State} {k : Wide → Wide → Result}
    (h : withPoint i ap s k = .next t) :
    ((s.aff ap).absent = true ∧ t = s.raise .absent (encode i)) ∨
    ((s.aff ap).absent = false ∧ k (s.aff ap).X (s.aff ap).Y = .next t) := by
  unfold withPoint at h
  split at h
  · next ha => exact .inl ⟨ha, by simpa [trap] using h.symm⟩
  · next ha => exact .inr ⟨by simpa using ha, h⟩

theorem withPoint_absent {i : Instr} {ap : ASrc} {s : State} (k : Wide → Wide → Result)
    (h : (s.aff ap).absent = true) :
    withPoint i ap s k = .next (s.raise .absent (encode i)) := by
  simp [withPoint, h, trap]

theorem withPoint_present {i : Instr} {ap : ASrc} {s : State} (k : Wide → Wide → Result)
    (h : (s.aff ap).absent = false) :
    withPoint i ap s k = k (s.aff ap).X (s.aff ap).Y := by
  simp [withPoint, h]

/-- All that the message length check can do (42_hash R234). -/
theorem withMessage_next {i : Instr} {s t : State} {k : List Byte → Result}
    (h : withMessage i s k = .next t) :
    (s.params.msgCap < s.mlen.toNat ∧ t = s.raise .msgLen (encode i)) ∨
    (s.mlen.toNat ≤ s.params.msgCap ∧ k (memRead s.msg 0 s.mlen.toNat) = .next t) := by
  unfold withMessage at h
  split at h
  · next hm => exact .inl ⟨hm, by simpa [trap] using h.symm⟩
  · next hm => exact .inr ⟨by omega, h⟩

theorem withMessage_long {i : Instr} {s : State} (k : List Byte → Result)
    (h : s.params.msgCap < s.mlen.toNat) :
    withMessage i s k = .next (s.raise .msgLen (encode i)) := by
  simp [withMessage, h, trap]

theorem withMessage_fits {i : Instr} {s : State} (k : List Byte → Result)
    (h : s.mlen.toNat ≤ s.params.msgCap) :
    withMessage i s k = k (memRead s.msg 0 s.mlen.toNat) := by
  have : ¬ s.params.msgCap < s.mlen.toNat := by omega
  simp [withMessage, this]

/-- All that a SIGN with its checks passed can do (43_protocol R265, R266). -/
theorem exec_sign (wr ws : WDst) (wd : WSrc) (s : State) (hne : wr ≠ ws)
    (hm : s.mlen.toNat ≤ s.params.msgCap) :
    exec (.sign wr ws wd) s =
      match signOf s.params.curve s.params.signCap (s.wide wd).toNat
        (hash512 (memRead s.msg 0 s.mlen.toNat)) s.source with
      | .signed r sg rest => .next (((s.setSource rest).setW wr r).setW ws sg).zeroHash
      | .failed rest => .next ((s.setSource rest).raise .randomness (encode (.sign wr ws wd)))
      | .endless =>
        .next ((s.setSource (drawMany (Config.stuckDraws s.pending.length) s.source).2).setSigning
          (some { wr := wr, ws := ws, wd := wd })) := by
  rw [exec, execSign, if_neg hne, withMessage_fits _ hm]
  rfl

/-! ### The end of a write and the step (20_memory R64; 93_implementation_defined U7) -/

/-- A command that has ended is answered. -/
theorem completeWrite_ended {t : State} (h : t.signing = none) :
    completeWrite (.next t) = .next (t.answer .ok) := by
  simp [completeWrite, h]

/-- A SIGN that never completes is not. -/
theorem completeWrite_stuck {t : State} {g : Signing} (h : t.signing = some g) :
    completeWrite (.next t) = .next t := by
  simp [completeWrite, h]

/-- All that a step can do: nothing but a reset behind a SIGN that never completes, hold the state, or serve the
next host event. -/
theorem step_cases (s : State) :
    (∃ g, s.signing = some g ∧ step s = stuckStep s) ∨
    (s.signing = none ∧ s.pending = [] ∧ step s = .next s) ∨
    (∃ e rest, s.signing = none ∧ s.pending = e :: rest ∧ step s = serve e { s with pending := rest }) := by
  unfold step serveNext
  cases hg : s.signing with
  | some g => exact .inl ⟨g, rfl, rfl⟩
  | none =>
    cases hp : s.pending with
    | nil => exact .inr (.inl ⟨rfl, rfl, rfl⟩)
    | cons e rest => exact .inr (.inr ⟨e, rest, rfl, rfl, rfl⟩)

/-- All that a step behind a SIGN that never completes can do (70_reset_and_hazards R332). -/
theorem stuckStep_cases (s : State) :
    (∃ rest, s.pending = .reset :: rest ∧ stuckStep s = resetEvent { s with pending := rest }) ∨
    ((∀ rest, s.pending ≠ .reset :: rest) ∧ stuckStep s = .next s) := by
  unfold stuckStep
  split
  · next rest h => exact .inl ⟨rest, h, rfl⟩
  · next h => exact .inr ⟨h, rfl⟩

/-! ### Frames -/

theorem Frame.refl (f : Scope) (s : State) : Frame f s s where
  params := rfl
  wide _ _ := rfl
  jac _ _ := rfl
  aff _ _ := rfl
  hash _ := ⟨rfl, rfl, rfl⟩
  error _ := ⟨rfl, rfl, rfl⟩
  source _ := rfl
  signing _ := rfl
  mlen := rfl
  msg _ := rfl
  pending := rfl
  replies := rfl

theorem Frame.trans {f : Scope} {s t u : State} (h : Frame f s t) (g : Frame f t u) : Frame f s u where
  params := g.params.trans h.params
  wide i hi := (g.wide i hi).trans (h.wide i hi)
  jac i hi := (g.jac i hi).trans (h.jac i hi)
  aff i hi := (g.aff i hi).trans (h.aff i hi)
  hash hf := ⟨(g.hash hf).1.trans (h.hash hf).1, (g.hash hf).2.1.trans (h.hash hf).2.1,
    (g.hash hf).2.2.trans (h.hash hf).2.2⟩
  error hf := ⟨(g.error hf).1.trans (h.error hf).1, (g.error hf).2.1.trans (h.error hf).2.1,
    (g.error hf).2.2.trans (h.error hf).2.2⟩
  source hf := (g.source hf).trans (h.source hf)
  signing hf := (g.signing hf).trans (h.signing hf)
  mlen := g.mlen.trans h.mlen
  msg k := (g.msg k).trans (h.msg k)
  pending := g.pending.trans h.pending
  replies := g.replies.trans h.replies

/-- One more general wide register written. -/
theorem Frame.setW {f : Scope} {s t : State} (h : Frame f s t) (i : WDst) (v : Wide) (hi : i ∈ f.wide) :
    Frame f s (t.setW i v) where
  params := h.params
  wide k hk := by
    have hne : k ≠ i := fun e => hk (e ▸ hi)
    exact (State.setW_get_other t i k v hne).trans (h.wide k hk)
  jac := h.jac
  aff := h.aff
  hash := h.hash
  error := h.error
  source := h.source
  signing := h.signing
  mlen := h.mlen
  msg := h.msg
  pending := h.pending
  replies := h.replies

/-- One more Jacobian register written. -/
theorem Frame.setJ {f : Scope} {s t : State} (h : Frame f s t) (i : JReg) (r : Jacobian) (hi : i ∈ f.jac) :
    Frame f s (t.setJ i r) where
  params := h.params
  wide := h.wide
  jac k hk := by
    have hne : k ≠ i := fun e => hk (e ▸ hi)
    exact (State.setJ_get_other t i k r hne).trans (h.jac k hk)
  aff := h.aff
  hash := h.hash
  error := h.error
  source := h.source
  signing := h.signing
  mlen := h.mlen
  msg := h.msg
  pending := h.pending
  replies := h.replies

/-- One more affine register written. -/
theorem Frame.setA {f : Scope} {s t : State} (h : Frame f s t) (i : ADst) (r : Affine) (hi : i ∈ f.aff) :
    Frame f s (t.setA i r) where
  params := h.params
  wide := h.wide
  jac := h.jac
  aff k hk := by
    have hne : k ≠ i := fun e => hk (e ▸ hi)
    exact (State.setA_get_other t i k r hne).trans (h.aff k hk)
  hash := h.hash
  error := h.error
  source := h.source
  signing := h.signing
  mlen := h.mlen
  msg := h.msg
  pending := h.pending
  replies := h.replies

/-- The hash state written. -/
theorem Frame.setHash {f : Scope} {s t : State} (h : Frame f s t) (x n sg : Wide) (hf : f.hash = true) :
    Frame f s (t.setHash x n sg) where
  params := h.params
  wide := h.wide
  jac := h.jac
  aff := h.aff
  hash e := absurd (hf.symm.trans e) (by decide)
  error := h.error
  source := h.source
  signing := h.signing
  mlen := h.mlen
  msg := h.msg
  pending := h.pending
  replies := h.replies

/-- The stream advanced. -/
theorem Frame.setSource {f : Scope} {s t : State} (h : Frame f s t) (r : RandomSource)
    (hf : f.source = true) : Frame f s (t.setSource r) where
  params := h.params
  wide := h.wide
  jac := h.jac
  aff := h.aff
  hash := h.hash
  error := h.error
  source e := absurd (hf.symm.trans e) (by decide)
  signing := h.signing
  mlen := h.mlen
  msg := h.msg
  pending := h.pending
  replies := h.replies

/-- The SIGN that never completes set. -/
theorem Frame.setSigning {f : Scope} {s t : State} (h : Frame f s t) (g : Option Signing)
    (hf : f.signing = true) : Frame f s (t.setSigning g) where
  params := h.params
  wide := h.wide
  jac := h.jac
  aff := h.aff
  hash := h.hash
  error := h.error
  source := h.source
  signing e := absurd (hf.symm.trans e) (by decide)
  mlen := h.mlen
  msg := h.msg
  pending := h.pending
  replies := h.replies

/-- A fault recorded. -/
theorem Frame.raise {f : Scope} {s t : State} (h : Frame f s t) (e : ErrorKind) (word : Command)
    (hf : f.error = true) : Frame f s (t.raise e word) where
  params := h.params
  wide := h.wide
  jac := h.jac
  aff := h.aff
  hash := h.hash
  error e := absurd (hf.symm.trans e) (by decide)
  source := h.source
  signing := h.signing
  mlen := h.mlen
  msg := h.msg
  pending := h.pending
  replies := h.replies

theorem WritesWide.setW (s : State) (i : WDst) (v : Wide) : WritesWide i v s (s.setW i v) :=
  ⟨State.setW_get_same s i v, (Frame.refl _ s).setW i v (List.mem_singleton_self i)⟩

theorem WritesJac.setJ (s : State) (i : JReg) (r : Jacobian) : WritesJac i r s (s.setJ i r) :=
  ⟨State.setJ_get_same s i r, (Frame.refl _ s).setJ i r (List.mem_singleton_self i)⟩

theorem WritesAff.setA (s : State) (i : ADst) (r : Affine) : WritesAff i r s (s.setA i r) :=
  ⟨State.setA_get_same s i r, (Frame.refl _ s).setA i r (List.mem_singleton_self i)⟩

theorem HashZero.zeroHash (s : State) : HashZero s.zeroHash := ⟨rfl, rfl, rfl⟩

theorem Records.raise (s : State) (e : ErrorKind) (word : Command) : Records e word (s.raise e word) :=
  ⟨rfl, rfl, rfl⟩

/-- A command's fault is a next state in which only the error registers differ (60_exceptions R293). -/
theorem Traps.raise (i : Instr) (e : ErrorKind) (s : State) : Traps i e s (s.raise e (encode i)) :=
  ⟨Records.raise s e _, (Frame.refl _ s).raise e _ rfl⟩

/-- A SIGN that never completes (93_implementation_defined U7). -/
theorem StaysInProgress.setSigning (wr ws : WDst) (wd : WSrc) (rest : RandomSource) (s : State) :
    StaysInProgress (.sign wr ws wd) rest s
      ((s.setSource rest).setSigning (some { wr := wr, ws := ws, wd := wd })) :=
  ⟨⟨_, rfl, rfl⟩, rfl, ((Frame.refl _ s).setSource rest rfl).setSigning _ rfl⟩

/-- A command's fault after draws (43_protocol R261). -/
theorem TrapsAfterDraws.raise (i : Instr) (e : ErrorKind) (rest : RandomSource) (s : State) :
    TrapsAfterDraws i e rest s ((s.setSource rest).raise e (encode i)) :=
  ⟨Records.raise _ e _, rfl, ((Frame.refl _ s).setSource rest rfl).raise e _ rfl⟩

end Sys2Proof.Machine
end

