-- ==== Sys2Proof/Laws/PerInstr.lean ====
section
/-!
SUPPORT. One lemma per command: its word stands in the row of the opcode map that names it, and where the
command is well formed the word's fields are legal for that row (30_encoding R94, R98).
-/

namespace Sys2Proof.Laws

open Sys2Proof Sys2Proof.Machine

/-! ### The fields of a word as numbers -/

theorem bitsOf_op (c : Command) : bitsOf c 26 6 = c.op.toNat := by
  rw [bitsOf, Command.op, BitVec.extractLsb'_toNat, Nat.shiftRight_eq_div_pow]

theorem bitsOf_f1 (c : Command) : bitsOf c 21 5 = c.f1.toNat := by
  rw [bitsOf, Command.f1, BitVec.extractLsb'_toNat, Nat.shiftRight_eq_div_pow]

theorem bitsOf_f2 (c : Command) : bitsOf c 16 5 = c.f2.toNat := by
  rw [bitsOf, Command.f2, BitVec.extractLsb'_toNat, Nat.shiftRight_eq_div_pow]

theorem bitsOf_f3 (c : Command) : bitsOf c 11 5 = c.f3.toNat := by
  rw [bitsOf, Command.f3, BitVec.extractLsb'_toNat, Nat.shiftRight_eq_div_pow]

theorem bitsOf_f4 (c : Command) : bitsOf c 6 5 = c.f4.toNat := by
  rw [bitsOf, Command.f4, BitVec.extractLsb'_toNat, Nat.shiftRight_eq_div_pow]

theorem bitsOf_imm6 (c : Command) : bitsOf c 0 6 = c.imm6.toNat := by
  rw [bitsOf, Command.imm6, BitVec.extractLsb'_toNat, Nat.shiftRight_eq_div_pow]

theorem wdField_lt (r : WDst) : (wdField r).toNat < 16 := by
  revert r; decide

theorem wsField_lt (r : WSrc) : (wsField r).toNat < 25 := by
  cases r with
  | gen i => revert i; decide
  | cp => decide
  | ca => decide
  | cb => decide
  | cq => decide
  | cgx => decide
  | cgy => decide
  | hh => decide
  | hn => decide
  | hs => decide

theorem jField_lt (r : JReg) : (jField r).toNat < 4 := by
  revert r; decide

theorem adField_lt (r : ADst) : (adField r).toNat < 4 := by
  revert r; decide

theorem asField_lt (r : ASrc) : (asField r).toNat < 5 := by
  cases r with
  | reg i => revert i; decide
  | ag => decide

theorem wdField_inj (r s : WDst) (h : (wdField r).toNat = (wdField s).toNat) : r = s := by
  revert r s; decide

/-- The word of `i` stands in a row of the opcode map, and is legal there where `i` is well formed. -/
def EncodeLegal.Statement (i : Instr) : Prop :=
  ∃ row, rowOf (bitsOf (encode i) 26 6) = some row ∧ (i.wellFormed = true → row.legal (encode i))

/-- The shape of every command of format R but SIGN. -/
theorem formatR_legal (n : Nat) (op : BitVec 6) (f1 f2 f3 f4 : BitVec 5) (imm : BitVec 6)
    (c1 c2 c3 c4 : FieldClass) (ci : ImmClass) (w : Bool) (hn : op.toNat = n)
    (hr : rowOf n = some (.formatR c1 c2 c3 c4 ci)) (h1 : f1.toNat < c1.bound) (h2 : f2.toNat < c2.bound)
    (h3 : f3.toNat < c3.bound) (h4 : f4.toNat < c4.bound) (hi : w = true → ci.legal imm.toNat) :
    ∃ row, rowOf (bitsOf (formatR op f1 f2 f3 f4 imm) 26 6) = some row ∧
      (w = true → row.legal (formatR op f1 f2 f3 f4 imm)) := by
  refine ⟨_, by rw [bitsOf_op, formatR_op, hn]; exact hr, fun hw => ?_⟩
  simp only [OpRow.legal, bitsOf_f1, bitsOf_f2, bitsOf_f3, bitsOf_f4, bitsOf_imm6, formatR_f1, formatR_f2,
    formatR_f3, formatR_f4, formatR_imm6]
  exact ⟨h1, h2, h3, h4, hi hw⟩

theorem EncodeLegal.addm (wd : WDst) (wa wb wm : WSrc) :
    EncodeLegal.Statement (.addm wd wa wb wm) :=
  formatR_legal _ _ _ _ _ _ _ _ _ _ _ _ _ rfl rfl
    (wdField_lt _) (wsField_lt _) (wsField_lt _) (wsField_lt _) (fun _ => rfl)

theorem EncodeLegal.subm (wd : WDst) (wa wb wm : WSrc) :
    EncodeLegal.Statement (.subm wd wa wb wm) :=
  formatR_legal _ _ _ _ _ _ _ _ _ _ _ _ _ rfl rfl
    (wdField_lt _) (wsField_lt _) (wsField_lt _) (wsField_lt _) (fun _ => rfl)

theorem EncodeLegal.mulm (wd : WDst) (wa wb wm : WSrc) :
    EncodeLegal.Statement (.mulm wd wa wb wm) :=
  formatR_legal _ _ _ _ _ _ _ _ _ _ _ _ _ rfl rfl
    (wdField_lt _) (wsField_lt _) (wsField_lt _) (wsField_lt _) (fun _ => rfl)

theorem EncodeLegal.sqrm (wd : WDst) (wa wm : WSrc) :
    EncodeLegal.Statement (.sqrm wd wa wm) :=
  formatR_legal _ _ _ _ _ _ _ _ _ _ _ _ _ rfl rfl
    (wdField_lt _) (wsField_lt _) (by decide) (wsField_lt _) (fun _ => rfl)

theorem EncodeLegal.redm (wd : WDst) (wa wm : WSrc) :
    EncodeLegal.Statement (.redm wd wa wm) :=
  formatR_legal _ _ _ _ _ _ _ _ _ _ _ _ _ rfl rfl
    (wdField_lt _) (wsField_lt _) (by decide) (wsField_lt _) (fun _ => rfl)

theorem EncodeLegal.invm (wd : WDst) (wa wm : WSrc) :
    EncodeLegal.Statement (.invm wd wa wm) :=
  formatR_legal _ _ _ _ _ _ _ _ _ _ _ _ _ rfl rfl
    (wdField_lt _) (wsField_lt _) (by decide) (wsField_lt _) (fun _ => rfl)

theorem EncodeLegal.movw (wd : WDst) (wa : WSrc) :
    EncodeLegal.Statement (.movw wd wa) :=
  formatR_legal _ _ _ _ _ _ _ _ _ _ _ _ _ rfl rfl
    (wdField_lt _) (wsField_lt _) (by decide) (by decide) (fun _ => rfl)

theorem EncodeLegal.liw (wd : WDst) (imm21 : BitVec 21) :
    EncodeLegal.Statement (.liw wd imm21) := by
  refine ⟨.formatI .wd, ?_, fun _ => ?_⟩
  · rw [encode, bitsOf_op, formatI_op]; rfl
  · rw [encode, OpRow.legal, bitsOf_f1, formatI_f1]; exact wdField_lt _

theorem EncodeLegal.pdbl (jd ja : JReg) :
    EncodeLegal.Statement (.pdbl jd ja) :=
  formatR_legal _ _ _ _ _ _ _ _ _ _ _ _ _ rfl rfl
    (jField_lt _) (jField_lt _) (by decide) (by decide) (fun _ => rfl)

theorem EncodeLegal.pmadd (jd ja : JReg) (ab : ASrc) :
    EncodeLegal.Statement (.pmadd jd ja ab) :=
  formatR_legal _ _ _ _ _ _ _ _ _ _ _ _ _ rfl rfl
    (jField_lt _) (jField_lt _) (asField_lt _) (by decide) (fun _ => rfl)

theorem EncodeLegal.pjadd (jd ja jb : JReg) :
    EncodeLegal.Statement (.pjadd jd ja jb) :=
  formatR_legal _ _ _ _ _ _ _ _ _ _ _ _ _ rfl rfl
    (jField_lt _) (jField_lt _) (jField_lt _) (by decide) (fun _ => rfl)

theorem EncodeLegal.paff (ad : ADst) (ja : JReg) :
    EncodeLegal.Statement (.paff ad ja) :=
  formatR_legal _ _ _ _ _ _ _ _ _ _ _ _ _ rfl rfl
    (adField_lt _) (jField_lt _) (by decide) (by decide) (fun _ => rfl)

theorem EncodeLegal.psmul (jd : JReg) (wk : WSrc) (ab : ASrc) :
    EncodeLegal.Statement (.psmul jd wk ab) :=
  formatR_legal _ _ _ _ _ _ _ _ _ _ _ _ _ rfl rfl
    (jField_lt _) (wsField_lt _) (asField_lt _) (by decide) (fun _ => rfl)

theorem EncodeLegal.plift (jd : JReg) (aa : ASrc) :
    EncodeLegal.Statement (.plift jd aa) :=
  formatR_legal _ _ _ _ _ _ _ _ _ _ _ _ _ rfl rfl
    (jField_lt _) (asField_lt _) (by decide) (by decide) (fun _ => rfl)

theorem EncodeLegal.jset (jd : JReg) (wx wy wz : WSrc) :
    EncodeLegal.Statement (.jset jd wx wy wz) :=
  formatR_legal _ _ _ _ _ _ _ _ _ _ _ _ _ rfl rfl
    (jField_lt _) (wsField_lt _) (wsField_lt _) (wsField_lt _) (fun _ => rfl)

theorem EncodeLegal.jinf (jd : JReg) :
    EncodeLegal.Statement (.jinf jd) :=
  formatR_legal _ _ _ _ _ _ _ _ _ _ _ _ _ rfl rfl
    (jField_lt _) (by decide) (by decide) (by decide) (fun _ => rfl)

theorem EncodeLegal.jgetx (wd : WDst) (ja : JReg) :
    EncodeLegal.Statement (.jgetx wd ja) :=
  formatR_legal _ _ _ _ _ _ _ _ _ _ _ _ _ rfl rfl
    (wdField_lt _) (jField_lt _) (by decide) (by decide) (fun _ => rfl)

theorem EncodeLegal.jgety (wd : WDst) (ja : JReg) :
    EncodeLegal.Statement (.jgety wd ja) :=
  formatR_legal _ _ _ _ _ _ _ _ _ _ _ _ _ rfl rfl
    (wdField_lt _) (jField_lt _) (by decide) (by decide) (fun _ => rfl)

theorem EncodeLegal.jgetz (wd : WDst) (ja : JReg) :
    EncodeLegal.Statement (.jgetz wd ja) :=
  formatR_legal _ _ _ _ _ _ _ _ _ _ _ _ _ rfl rfl
    (wdField_lt _) (jField_lt _) (by decide) (by decide) (fun _ => rfl)

theorem EncodeLegal.aset (ad : ADst) (wx wy : WSrc) :
    EncodeLegal.Statement (.aset ad wx wy) :=
  formatR_legal _ _ _ _ _ _ _ _ _ _ _ _ _ rfl rfl
    (adField_lt _) (wsField_lt _) (wsField_lt _) (by decide) (fun _ => rfl)

theorem EncodeLegal.aabs (ad : ADst) :
    EncodeLegal.Statement (.aabs ad) :=
  formatR_legal _ _ _ _ _ _ _ _ _ _ _ _ _ rfl rfl
    (adField_lt _) (by decide) (by decide) (by decide) (fun _ => rfl)

theorem EncodeLegal.agetx (wd : WDst) (aa : ASrc) :
    EncodeLegal.Statement (.agetx wd aa) :=
  formatR_legal _ _ _ _ _ _ _ _ _ _ _ _ _ rfl rfl
    (wdField_lt _) (asField_lt _) (by decide) (by decide) (fun _ => rfl)

theorem EncodeLegal.agety (wd : WDst) (aa : ASrc) :
    EncodeLegal.Statement (.agety wd aa) :=
  formatR_legal _ _ _ _ _ _ _ _ _ _ _ _ _ rfl rfl
    (wdField_lt _) (asField_lt _) (by decide) (by decide) (fun _ => rfl)

theorem EncodeLegal.xorw (wd : WDst) (wa wb : WSrc) :
    EncodeLegal.Statement (.xorw wd wa wb) :=
  formatR_legal _ _ _ _ _ _ _ _ _ _ _ _ _ rfl rfl
    (wdField_lt _) (wsField_lt _) (wsField_lt _) (by decide) (fun _ => rfl)

theorem EncodeLegal.addw (wd : WDst) (wa wb : WSrc) :
    EncodeLegal.Statement (.addw wd wa wb) :=
  formatR_legal _ _ _ _ _ _ _ _ _ _ _ _ _ rfl rfl
    (wdField_lt _) (wsField_lt _) (wsField_lt _) (by decide) (fun _ => rfl)

theorem EncodeLegal.lps (wd : WDst) (wa : WSrc) :
    EncodeLegal.Statement (.lps wd wa) :=
  formatR_legal _ _ _ _ _ _ _ _ _ _ _ _ _ rfl rfl
    (wdField_lt _) (wsField_lt _) (by decide) (by decide) (fun _ => rfl)

theorem EncodeLegal.knxt (wd : WDst) (wa : WSrc) (imm6 : BitVec 6) :
    EncodeLegal.Statement (.knxt wd wa imm6) :=
  formatR_legal _ _ _ _ _ _ _ _ _ _ _ _ _ rfl rfl
    (wdField_lt _) (wsField_lt _) (by decide) (by decide) (fun h => (of_decide_eq_true h : 1 ≤ imm6.toNat ∧ imm6.toNat ≤ 12))

theorem EncodeLegal.eenc (wd : WDst) (wk wm : WSrc) :
    EncodeLegal.Statement (.eenc wd wk wm) :=
  formatR_legal _ _ _ _ _ _ _ _ _ _ _ _ _ rfl rfl
    (wdField_lt _) (wsField_lt _) (wsField_lt _) (by decide) (fun _ => rfl)

theorem EncodeLegal.gcmp (wd : WDst) (wn wh wm : WSrc) :
    EncodeLegal.Statement (.gcmp wd wn wh wm) :=
  formatR_legal _ _ _ _ _ _ _ _ _ _ _ _ _ rfl rfl
    (wdField_lt _) (wsField_lt _) (wsField_lt _) (wsField_lt _) (fun _ => rfl)

theorem EncodeLegal.hinit :
    EncodeLegal.Statement (.hinit) :=
  formatR_legal _ _ _ _ _ _ _ _ _ _ _ _ _ rfl rfl
    (by decide) (by decide) (by decide) (by decide) (fun _ => rfl)

theorem EncodeLegal.hblk (wm : WSrc) :
    EncodeLegal.Statement (.hblk wm) :=
  formatR_legal _ _ _ _ _ _ _ _ _ _ _ _ _ rfl rfl
    (by decide) (wsField_lt _) (by decide) (by decide) (fun _ => rfl)

theorem EncodeLegal.hfin (wd : WDst) (wm : WSrc) (imm6 : BitVec 6) :
    EncodeLegal.Statement (.hfin wd wm imm6) :=
  formatR_legal _ _ _ _ _ _ _ _ _ _ _ _ _ rfl rfl
    (wdField_lt _) (wsField_lt _) (by decide) (by decide) (fun _ => trivial)

theorem EncodeLegal.hash (wd : WDst) :
    EncodeLegal.Statement (.hash wd) :=
  formatR_legal _ _ _ _ _ _ _ _ _ _ _ _ _ rfl rfl
    (wdField_lt _) (by decide) (by decide) (by decide) (fun _ => rfl)

theorem EncodeLegal.keygen (wd : WDst) (ad : ADst) :
    EncodeLegal.Statement (.keygen wd ad) :=
  formatR_legal _ _ _ _ _ _ _ _ _ _ _ _ _ rfl rfl
    (wdField_lt _) (adField_lt _) (by decide) (by decide) (fun _ => rfl)

theorem EncodeLegal.sign (wr ws : WDst) (wd : WSrc) :
    EncodeLegal.Statement (.sign wr ws wd) := by
  refine ⟨.formatRDistinct .wd .wd .ws .zero .zero, ?_, fun hw => ?_⟩
  · rw [encode, bitsOf_op, formatR_op]; rfl
  · simp only [encode, OpRow.legal, bitsOf_f1, bitsOf_f2, bitsOf_f3, bitsOf_f4, bitsOf_imm6, formatR_f1,
      formatR_f2, formatR_f3, formatR_f4, formatR_imm6]
    refine ⟨wdField_lt _, wdField_lt _, wsField_lt _, by decide, rfl, fun h => ?_⟩
    exact (of_decide_eq_true hw) (wdField_inj _ _ h)

theorem EncodeLegal.verify (wd : WDst) (wr ws : WSrc) (ap : ASrc) :
    EncodeLegal.Statement (.verify wd wr ws ap) :=
  formatR_legal _ _ _ _ _ _ _ _ _ _ _ _ _ rfl rfl
    (wdField_lt _) (wsField_lt _) (wsField_lt _) (asField_lt _) (fun _ => rfl)

end Sys2Proof.Laws
end

