-- ==== Sys2Proof/Laws/Points.lean ====
section
/-!
SUPPORT. The points a record represents, from the remainders of its coordinates; and the small lemmas between a
reduced coordinate, its remainder and its value in the field of integers modulo `P`.
-/

namespace Sys2Proof.Machine

/-- A coordinate reduced modulo `P` fits in a register. -/
theorem toNat_ofNat_residue (c : Curve) (n : Nat) (h : n < c.P.toNat) : (BitVec.ofNat 512 n).toNat = n :=
  (BitVec.toNat_ofNat n 512).trans (Nat.mod_eq_of_lt (h.trans c.P.isLt))

theorem mod_eq_zero_iff_cast (c : Curve) (n : Nat) :
    n % c.P.toNat = 0 ↔ (n : ZMod c.P.toNat) = 0 := by
  rw [ZMod.natCast_eq_zero_iff, Nat.dvd_iff_mod_eq_zero]

/-- The negative of a point has the negative y, as the curve has no other term in y. -/
theorem weierstrass_negY (c : Curve) (x y : ZMod c.P.toNat) :
    (weierstrass c).toAffine.negY x y = -y := by
  simp [WeierstrassCurve.Affine.negY, weierstrass]

/-- A point of the curve off the x axis is nonsingular (`P` odd: `2·y` is not zero). -/
theorem weierstrass_nonsingular (c : Curve) (x y : Nat)
    (h : y ^ 2 % c.P.toNat = (x ^ 3 + c.A.toNat * x + c.B.toNat) % c.P.toNat)
    (hy : 2 * y % c.P.toNat ≠ 0) :
    (weierstrass c).toAffine.Nonsingular (x : ZMod c.P.toNat) (y : ZMod c.P.toNat) := by
  have h1 := (ZMod.natCast_eq_natCast_iff' _ _ _).mpr h
  rw [Ne, mod_eq_zero_iff_cast] at hy
  push_cast at h1 hy
  rw [WeierstrassCurve.Affine.nonsingular_iff', WeierstrassCurve.Affine.equation_iff']
  simp only [weierstrass]
  exact ⟨by linear_combination h1, .inr fun e => hy (by linear_combination e)⟩

/-- A record represents the point its coordinates give (10_state R26). -/
theorem Represents.of_mod {c : Curve} {J : Jacobian} {x y : Nat}
    (hn : (weierstrass c).toAffine.Nonsingular (x : ZMod c.P.toNat) (y : ZMod c.P.toNat))
    (hi : J.inf = false) (hz : J.Z.toNat % c.P.toNat ≠ 0)
    (hx : x * J.Z.toNat ^ 2 % c.P.toNat = J.X.toNat % c.P.toNat)
    (hy : y * J.Z.toNat ^ 3 % c.P.toNat = J.Y.toNat % c.P.toNat) :
    Represents c J (.some _ _ hn) := by
  have h1 := (ZMod.natCast_eq_natCast_iff' _ _ _).mpr hx
  have h2 := (ZMod.natCast_eq_natCast_iff' _ _ _).mpr hy
  rw [Ne, mod_eq_zero_iff_cast] at hz
  push_cast at h1 h2
  exact .inr ⟨hi, _, _, hn, rfl, hz, h1, h2⟩

/-- Reduced coordinates represent the point they give. -/
theorem Represents.ofNats {c : Curve} {x y z : Nat} {a b : ZMod c.P.toNat}
    {h : (weierstrass c).toAffine.Nonsingular a b}
    (hx : x < c.P.toNat) (hy : y < c.P.toNat) (hz : z < c.P.toNat) (hz0 : (z : ZMod c.P.toNat) ≠ 0)
    (ha : a * (z : ZMod c.P.toNat) ^ 2 = x) (hb : b * (z : ZMod c.P.toNat) ^ 3 = y) :
    Represents c (Jacobian.ofNats x y z) (.some a b h) := by
  refine .inr ⟨rfl, a, b, h, rfl, ?_, ?_, ?_⟩ <;>
    simp only [Jacobian.ofNats, toNat_ofNat_residue c _ hx, toNat_ofNat_residue c _ hy,
      toNat_ofNat_residue c _ hz] <;> assumption

end Sys2Proof.Machine
end

