-- ==== Sys2Proof/Laws/Views.lean ====
section
/-!
SUPPORT. The byte view of a value built from bytes, and the accumulator's steps in machine addition.
-/

namespace Sys2Proof.Machine

theorem be_nil : be [] = 0 := rfl

/-- One more byte at the end (00_scope R11). -/
theorem be_append_single (l : List Byte) (b : Byte) : be (l ++ [b]) = be l * 256 + b.toNat := by
  simp [be]

theorem be_lt (l : List Byte) : be l < 256 ^ l.length := by
  induction l using List.reverseRecOn with
  | nil => simp [be]
  | append_singleton l b ih =>
    have hb := b.isLt
    rw [be_append_single, List.length_append, List.length_singleton, pow_succ]
    norm_num at hb
    omega

/-- A byte of the integer of a byte string, counted from the end. -/
theorem be_byte (l : List Byte) (j : Nat) (hj : j < l.length) :
    be l / 256 ^ (l.length - 1 - j) % 256 = (l[j]).toNat := by
  induction l using List.reverseRecOn with
  | nil => simp at hj
  | append_singleton l b ih =>
    have hb := b.isLt
    norm_num at hb
    rw [be_append_single, List.length_append, List.length_singleton]
    by_cases h : j < l.length
    · have hexp : l.length + 1 - 1 - j = (l.length - 1 - j) + 1 := by omega
      have hget : (l ++ [b])[j]'(by simp; omega) = l[j] := List.getElem_append_left h
      rw [hexp, pow_succ, mul_comm (256 ^ _) 256, ← Nat.div_div_eq_div_mul, hget, ← ih h]
      congr 2
      omega
    · have hj' : j = l.length := by simp at hj; omega
      subst hj'
      simp
      omega

/-- Byte `j` of a value built from sixty-four bytes is the `j`-th of them (42_hash R210). -/
theorem byteOf_ofBytes (l : List Byte) (hl : l.length = 64) (j : Nat) (hj : j < 64) :
    byteOf (ofBytes l) j = l[j] := by
  apply BitVec.eq_of_toNat_eq
  have hlt := be_lt l
  rw [hl] at hlt
  have h1 : (ofBytes l).toNat = be l := by
    rw [ofBytes, BitVec.toNat_ofNat]
    apply Nat.mod_eq_of_lt
    exact lt_of_lt_of_eq hlt (by rw [show (256 : Nat) = 2 ^ 8 by norm_num, ← pow_mul])
  have h2 := be_byte l j (by omega)
  have he : l.length - 1 - j = 64 - 1 - j := by omega
  rw [he] at h2
  have h3 : (256 : Nat) ^ (64 - 1 - j) = 2 ^ (504 - 8 * j) := by
    rw [show (256 : Nat) = 2 ^ 8 by norm_num, ← pow_mul]; congr 1; omega
  rw [byteOf, BitVec.extractLsb'_toNat, h1, Nat.shiftRight_eq_div_pow, ← h3]
  exact h2

/-- `add512` is the addition of the machine's words (42_hash R218). -/
theorem add512_eq (x y : Wide) : add512 x y = x + y := by
  apply BitVec.eq_of_toNat_eq
  rw [add512, BitVec.toNat_ofNat, BitVec.toNat_add]

end Sys2Proof.Machine
end

