-- ==== Sys2Proof/Tests/Slice0.lean ====
section
/-!
SUPPORT. Tests on fixed values, and for every statement with hypotheses a state and operands that meet them.
Expected values are the spec's: the example of each command's rule, and 95_test_vectors.
-/

namespace Sys2Proof.Tests

open Sys2Proof Sys2Proof.Machine

-- one proof at a time: proofs evaluated side by side each hold a thread with a large stack
set_option Elab.async false

/-! ## Helpers -/

/-- The toy parameter set (95_test_vectors V1). -/
def toyCurve : Curve := { P := 17, A := 2, B := 2, Q := 19, GX := 5, GY := 1 }

def toyParams : Params := { curve := toyCurve, msgCap := 16, signCap := none }

/-- A state after reset on `TOY17` with four general wide registers loaded. -/
def toy (w0 w1 w2 w3 : Wide) : State :=
  ((((State.resetOf toyParams { ahead := [], tail := .fails } [] []).setW 0 w0).setW 1 w1).setW 2 w2).setW 3 w3

/-- The record of the examples: coordinates and `inf = 0`. -/
def jac (x y z : Wide) : Jacobian := { X := x, Y := y, Z := z, inf := false }

def point (x y : Wide) : Affine := { X := x, Y := y, absent := false }

/-- The toy state with two Jacobian registers loaded. -/
def toyJ (j0 j1 : Jacobian) : State := ((toy 0 0 0 0).setJ 0 j0).setJ 1 j1

/-- The toy state with a stream. -/
def toyDraws (w0 : Wide) (ahead : List Draw) : State :=
  (toy w0 6 13 0).setSource { ahead := ahead, tail := .fails }

/-- The message "test message" (43_protocol, opening). -/
def testMessage : Memory :=
  [(0, 0x74), (1, 0x65), (2, 0x73), (3, 0x74), (4, 0x20), (5, 0x6d), (6, 0x65), (7, 0x73), (8, 0x73),
   (9, 0x61), (10, 0x67), (11, 0x65)]

/-- Its digest (42_hash R234). -/
def testDigest : Wide :=
  0x0abe6131eada07f7b29a70f2f2c6f089cec327b8ac2c405ebd0f026aa6c557a3be9fae5766f12a8270c104b7a15bd56f46cbc4faadaa925089c4172255fb4e64#512

def withTestMessage (s : State) : State := { s with msg := testMessage, mlen := 12 }

/-- The toy state with one host event pending. -/
def asked (e : HostEvent) : State := { toy 5 6 0 7 with pending := [e] }

/-- A toy state with a fault recorded. -/
def faultedState : State := (toy 5 6 0 7).raise .modulusZero 0x044008C0

def next (r : Result) : Option State :=
  match r with
  | .next t => some t
  | .fault _ => none
  | .refused _ => none

/-! ## Well-formedness: the ill-formed terms (30_encoding R98) -/

theorem test_wf_refuses_round_zero : (Instr.knxt 1 (.gen 0) 0).wellFormed = false := by decide

theorem test_wf_refuses_round_thirteen : (Instr.knxt 1 (.gen 0) 13).wellFormed = false := by decide

theorem test_wf_accepts_round_twelve : (Instr.knxt 1 (.gen 0) 12).wellFormed = true := by decide

theorem test_wf_refuses_one_result_register : (Instr.sign 2 2 (.gen 0)).wellFormed = false := by decide

/-! ## Decoding: the word of each command's example -/

/-- The field unit (40_field R131 to R138). -/
theorem test_decode_field :
    decode 0x044008C0 = .instr (.addm 2 (.gen 0) (.gen 1) (.gen 3)) ∧
    decode 0x084008C0 = .instr (.subm 2 (.gen 0) (.gen 1) (.gen 3)) ∧
    decode 0x0C4008C0 = .instr (.mulm 2 (.gen 0) (.gen 1) (.gen 3)) ∧
    decode 0x104000C0 = .instr (.sqrm 2 (.gen 0) (.gen 3)) ∧
    decode 0x144000C0 = .instr (.redm 2 (.gen 0) (.gen 3)) ∧
    decode 0x184000C0 = .instr (.invm 2 (.gen 0) (.gen 3)) ∧
    decode 0x1CB30000 = .instr (.movw 5 .cq) ∧
    decode 0x201FFFFF = .instr (.liw 0 0x1FFFFF) := by decide

/-- The point engine (41_point R177 to R192). -/
theorem test_decode_point :
    decode 0x40200000 = .instr (.pdbl 1 0) ∧
    decode 0x44202000 = .instr (.pmadd 1 0 .ag) ∧
    decode 0x48400800 = .instr (.pjadd 2 0 1) ∧
    decode 0x4C000000 = .instr (.paff 0 0) ∧
    decode 0x50002000 = .instr (.psmul 0 (.gen 0) .ag) ∧
    decode 0x54040000 = .instr (.plift 0 .ag) ∧
    decode 0x58000880 = .instr (.jset 0 (.gen 0) (.gen 1) (.gen 2)) ∧
    decode 0x5C400000 = .instr (.jinf 2) ∧
    decode 0x60600000 = .instr (.jgetx 3 0) ∧
    decode 0x64800000 = .instr (.jgety 4 0) ∧
    decode 0x68A00000 = .instr (.jgetz 5 0) ∧
    decode 0x6C000800 = .instr (.aset 0 (.gen 0) (.gen 1)) ∧
    decode 0x70600000 = .instr (.aabs 3) ∧
    decode 0x74210000 = .instr (.agetx 1 (.reg 1)) ∧
    decode 0x78410000 = .instr (.agety 2 (.reg 1)) := by decide

/-- The hash core (42_hash R224 to R234). -/
theorem test_decode_hash :
    decode 0x80400800 = .instr (.xorw 2 (.gen 0) (.gen 1)) ∧
    decode 0x84400800 = .instr (.addw 2 (.gen 0) (.gen 1)) ∧
    decode 0x88200000 = .instr (.lps 1 (.gen 0)) ∧
    decode 0x8C200001 = .instr (.knxt 1 (.gen 0) 1) ∧
    decode 0x90400800 = .instr (.eenc 2 (.gen 0) (.gen 1)) ∧
    decode 0x9477B080 = .instr (.gcmp 3 .hn .hh (.gen 2)) ∧
    decode 0xA0000000 = .instr .hinit ∧
    decode 0xA4000000 = .instr (.hblk (.gen 0)) ∧
    decode 0xA820003F = .instr (.hfin 1 (.gen 0) 63) ∧
    decode 0xAC000000 = .instr (.hash 0) := by decide

/-- The protocol (43_protocol R264, R266, R268). -/
theorem test_decode_protocol :
    decode 0xC0000000 = .instr (.keygen 0 0) ∧
    decode 0xC4220000 = .instr (.sign 1 2 (.gen 0)) ∧
    decode 0xC8611000 = .instr (.verify 3 (.gen 1) (.gen 2) (.reg 0)) := by decide

/-- A word written out field by field: op 000001, f1 00010, f2 10000, f3 10110, f4 10011, imm6 000000
(30_encoding R91, R94): ADDM w2, CP, HH, CQ. -/
theorem test_decode_bits :
    decode (0b000001#6 ++ 0b00010#5 ++ 0b10000#5 ++ 0b10110#5 ++ 0b10011#5 ++ 0b000000#6) =
      .instr (.addm 2 .cp .hh .cq) := by decide

/-- What is refused (30_encoding R97, R98; 95_test_vectors V11). -/
theorem test_decode_refuses :
    decode 0x00000000 = .illegalOp ∧ decode 0xFFFFFFFF = .illegalOp ∧ decode 0x24000000 = .illegalOp ∧
    decode 0x1E000000 = .illegalField ∧ decode 0x044008C1 = .illegalField ∧
    decode 0x8C200000 = .illegalField ∧ decode 0xC4210000 = .illegalField ∧
    decode 0x44202800 = .illegalField := by decide

theorem test_table_word : decodeTableWord 32 0xC4220000 = some (.sign 1 2 (.gen 0)) := by decide

/-! ## The field unit (40_field, the examples; 95_test_vectors V10, V12) -/

theorem test_addm : (next (exec (.addm 2 (.gen 0) (.gen 1) (.gen 3)) (toy 5 6 0 7))).map (·.w[2]) = some 4 := by
  decide +kernel

theorem test_addm_in_place :
    (next (exec (.addm 2 (.gen 2) (.gen 2) .cp) (toy 0 0 9 0))).map (·.w[2]) = some 1 := by decide +kernel

theorem test_subm : (next (exec (.subm 2 (.gen 0) (.gen 1) (.gen 3)) (toy 3 5 0 7))).map (·.w[2]) = some 5 := by
  decide +kernel

theorem test_mulm : (next (exec (.mulm 2 (.gen 0) (.gen 1) (.gen 3)) (toy 5 6 0 7))).map (·.w[2]) = some 2 := by
  decide +kernel

/-- The product is exact: `(2^512-1)² mod (2^512-2) = 1` (40_field R133). -/
theorem test_mulm_exact :
    (next (exec (.mulm 2 (.gen 0) (.gen 0) (.gen 3)) (toy (-1) 0 0 (-2)))).map (·.w[2]) = some 1 := by
  decide +kernel

theorem test_sqrm : (next (exec (.sqrm 2 (.gen 0) (.gen 3)) (toy 5 0 0 7))).map (·.w[2]) = some 4 := by
  decide +kernel

theorem test_redm : (next (exec (.redm 2 (.gen 0) (.gen 3)) (toy 100 0 0 7))).map (·.w[2]) = some 2 := by
  decide +kernel

theorem test_invm : (next (exec (.invm 2 (.gen 0) (.gen 3)) (toy 3 0 0 7))).map (·.w[2]) = some 5 := by
  decide +kernel

/-- `ERR_NOT_INVERTIBLE`, and `w2` unchanged (40_field R136). -/
theorem test_invm_faults :
    (next (exec (.invm 2 (.gen 0) (.gen 3)) (toy 2 0 9 4))).map (fun t => (t.w[2], t.errCode)) =
      some (9, 4) := by decide +kernel

theorem test_movw : (next (exec (.movw 5 .cq) (toy 0 0 0 0))).map (·.w[5]) = some 19 := by decide +kernel

theorem test_liw : (next (exec (.liw 0 0x1FFFFF) (toy 0 0 0 0))).map (·.w[0]) = some 2097151 := by
  decide +kernel

/-! ## The point engine (41_point, the examples) -/

theorem test_pdbl :
    (next (exec (.pdbl 1 0) (toyJ (jac 5 1 1) Jacobian.ident))).map (·.j[1]) = some (jac 7 7 2) := by
  decide +kernel

theorem test_pmadd :
    (next (exec (.pmadd 1 0 .ag) (toyJ (jac 7 7 2) Jacobian.ident))).map (·.j[1]) = some (jac 11 5 9) := by
  decide +kernel

theorem test_pjadd :
    (next (exec (.pjadd 2 0 1) (toyJ (jac 7 7 2) (jac 11 5 9)))).map (·.j[2]) = some (jac 8 4 4) := by
  decide +kernel

theorem test_paff :
    (next (exec (.paff 0 0) (toyJ (jac 7 7 2) Jacobian.ident))).map (·.a[0]) = some (point 6 3) := by
  decide +kernel

theorem test_psmul :
    (next (exec (.psmul 0 (.gen 0) .ag) (toy 2 0 0 0))).map (·.j[0]) = some (jac 7 7 2) := by decide +kernel

theorem test_psmul_order :
    (next (exec (.psmul 0 (.gen 0) .ag) (toy 19 0 0 0))).map (·.j[0]) = some Jacobian.ident := by
  decide +kernel

theorem test_plift : (next (exec (.plift 0 .ag) (toy 0 0 0 0))).map (·.j[0]) = some (jac 5 1 1) := by
  decide +kernel

theorem test_plift_absent : (next (exec (.plift 0 (.reg 3)) (toy 0 0 0 0))).map (·.errCode) = some 5 := by
  decide +kernel

theorem test_jset :
    (next (exec (.jset 0 (.gen 0) (.gen 1) (.gen 2)) (toy 7 8 2 0))).map (·.j[0]) = some (jac 7 8 2) := by
  decide +kernel

theorem test_jinf :
    (next (exec (.jinf 1) (toyJ (jac 7 7 2) (jac 1 2 3)))).map (·.pflags) = some 0x00000F0E := by
  decide +kernel

theorem test_jgetx : (next (exec (.jgetx 3 0) (toyJ (jac 7 8 2) Jacobian.ident))).map (·.w[3]) = some 7 := by
  decide +kernel

theorem test_jgety : (next (exec (.jgety 4 0) (toyJ (jac 7 8 2) Jacobian.ident))).map (·.w[4]) = some 8 := by
  decide +kernel

theorem test_jgetz : (next (exec (.jgetz 5 0) (toyJ (jac 7 8 2) Jacobian.ident))).map (·.w[5]) = some 2 := by
  decide +kernel

theorem test_aset :
    (next (exec (.aset 0 (.gen 0) (.gen 1)) (toy 6 3 0 0))).map (·.a[0]) = some (point 6 3) := by
  decide +kernel

theorem test_aabs :
    (next (exec (.aabs 3) ((toy 0 0 0 0).setA 3 (point 6 3)))).map (·.pflags) = some 0x00000F0F := by
  decide +kernel

theorem test_agetx :
    (next (exec (.agetx 1 (.reg 1)) ((toy 0 0 0 0).setA 1 (point 10 6)))).map (·.w[1]) = some 10 := by
  decide +kernel

theorem test_agety :
    (next (exec (.agety 2 (.reg 1)) ((toy 0 0 0 0).setA 1 (point 10 6)))).map (·.w[2]) = some 6 := by
  decide +kernel

/-- 95_test_vectors V24: two multiples added, and the multiple of the sum, are other records of one point. -/
theorem test_multiples_add :
    jacobiAdd toyCurve (scalarMult toyCurve 2 5 1) (scalarMult toyCurve 3 5 1) = jac 8 4 4 ∧
    scalarMult toyCurve 5 5 1 = jac 16 3 10 ∧
    toAffine toyCurve (jac 8 4 4) = some (9, 16) ∧ toAffine toyCurve (jac 16 3 10) = some (9, 16) := by
  decide +kernel

theorem test_multiples_add_to_the_identity :
    jacobiAdd toyCurve (scalarMult toyCurve 9 5 1) (scalarMult toyCurve 10 5 1) = Jacobian.ident ∧
    toAffine toyCurve Jacobian.ident = none := by decide +kernel

/-! ## The hash core (42_hash, the examples; 95_test_vectors V54) -/

theorem test_xorw :
    (next (exec (.xorw 2 (.gen 0) (.gen 1)) (toy 0xFF00 0x0FF0 0 0))).map (·.w[2]) = some 0xF0F0 := by
  decide +kernel

theorem test_addw_carry_dropped :
    (next (exec (.addw 2 (.gen 0) (.gen 1)) (toy (-1) 2 0 0))).map (·.w[2]) = some 1 := by decide +kernel

theorem test_lps :
    (next (exec (.lps 1 (.gen 0)) (toy 0 0 0 0))).map (·.w[1]) =
      some (ofWords (List.replicate 8 0xb383fc2eced4a574)) := by decide +kernel

theorem test_knxt :
    (next (exec (.knxt 1 (.gen 0) 1) (toy 0 0 0 0))).map (·.w[1]) =
      some 0x72f27059183db001139c1270f36a77e90d492dcec5de138b38990e1fb76acd2df4c41dab015767c60d94a03cac8adaad9ba321149627aab261ee3086cf81d2e5 := by
  decide +kernel

theorem test_eenc :
    (next (exec (.eenc 2 (.gen 0) (.gen 1)) (toy 0 0 0 0))).map (·.w[2]) =
      some 0xd1860527a13ff11bd469b7bdedb798775192f570192dfa3122c16806560f2c1b0a4156146e834256bb85ab7341f94fa985fb15949026cb48edee9a272524c85c := by
  decide +kernel

/-- The value of the compression of zeros (42_hash R230). -/
def zeroCompressed : Wide :=
  0x2a0e2b22fa59ee5c52e1c5b67d322cf4a7e32ae43e21ce04c9c0b31801474609ddbf4b1305f814bbffbdf4d4d19243e5cfd906ca3c7691482e5df4b8e167f4b4#512

theorem toy_zero : ∀ i : WDst, (toy 0 0 0 0).wide (.gen i) = 0 := by decide +kernel

theorem test_compress_zero : compress 0 0 0 = zeroCompressed := by decide +kernel

theorem test_gcmp :
    (next (exec (.gcmp 3 (.gen 0) (.gen 1) (.gen 2)) (toy 0 0 0 0))).map (·.w[3]) = some zeroCompressed := by
  have h : exec (.gcmp 3 (.gen 0) (.gen 1) (.gen 2)) (toy 0 0 0 0) =
      .next ((toy 0 0 0 0).setW 3 (compress ((toy 0 0 0 0).wide (.gen 0)) ((toy 0 0 0 0).wide (.gen 1))
        ((toy 0 0 0 0).wide (.gen 2)))) := rfl
  rw [h, toy_zero, toy_zero, toy_zero, test_compress_zero]
  decide +kernel

theorem test_hinit :
    (next (exec .hinit ((toy 0 0 0 0).setHash 1 2 3))).map (fun t => (t.hh, t.hn, t.hs)) =
      some (0, 0, 0) := by decide +kernel

theorem test_hblk :
    (next (exec (.hblk (.gen 0)) (toy 0 0 0 0))).map (fun t => (t.hh, t.hn, t.hs)) =
      some (zeroCompressed, 0x200, 0) := by
  have h : exec (.hblk (.gen 0)) (toy 0 0 0 0) =
      .next ((toy 0 0 0 0).setHash
        (compress (toy 0 0 0 0).hn (toy 0 0 0 0).hh ((toy 0 0 0 0).wide (.gen 0)))
        (add512 (toy 0 0 0 0).hn (BitVec.ofNat 512 512))
        (add512 (toy 0 0 0 0).hs ((toy 0 0 0 0).wide (.gen 0)))) := by
    simp only [exec, execHblk, State.accum, Accum.absorb]
  have hh : (toy 0 0 0 0).hh = 0 ∧ (toy 0 0 0 0).hn = 0 := by decide +kernel
  rw [h, toy_zero, hh.1, hh.2, test_compress_zero]
  decide +kernel

/-- `padblock(0, x) = 1` (42_hash R223), the block an empty HFIN absorbs. -/
theorem test_padblock : padblock 0 5 = 1 ∧ padblock 2 0x52345 = 0x12345 := by
  decide +kernel

/-- The digest of "test message" (42_hash R234). -/
theorem test_digest : hash512 (memRead testMessage 0 12) = testDigest := by decide +kernel

theorem test_hash :
    (next (exec (.hash 0) (withTestMessage (toy 0 0 0 0)))).map (·.w[0]) = some testDigest := by
  have h : next (exec (.hash 0) (withTestMessage (toy 0 0 0 0))) =
      some (((withTestMessage (toy 0 0 0 0)).setW 0 (hash512 (memRead testMessage 0 12))).zeroHash) := rfl
  rw [h, test_digest]; rfl

theorem test_hash_too_long :
    (next (exec (.hash 0) { toy 0 0 0 0 with mlen := 17 })).map (·.errCode) = some 8 := by decide +kernel

/-! ## The protocol (43_protocol, the examples; 95_test_vectors V46) -/

theorem test_keygen :
    (next (exec (.keygen 0 0) (toyDraws 0 [.value 3]))).map (fun t => (t.w[0], t.a[0])) =
      some (3, point 10 6) := by decide +kernel

theorem test_keygen_out_of_range :
    (next (exec (.keygen 0 0) (toyDraws 9 [.value 19]))).map (fun t => (t.w[0], t.errCode)) =
      some (9, 7) := by decide +kernel

/-- The hash value of the examples is 2 (43_protocol, opening). -/
theorem test_hash_value : eOf toyCurve testDigest = 2 := by decide +kernel

theorem test_sign_loop :
    signOf toyCurve none 11 testDigest { ahead := [.value 1, .value 7, .value 2], tail := .fails } =
      .signed 6 13 { ahead := [], tail := .fails } := by decide +kernel

/-- The draws 7 and 12 retry for `d = 3` (93_implementation_defined U7). -/
theorem sevens_retry : ∀ y ∈ [Draw.value 7, .value 12], Retries toyCurve 3 2 y := by
  intro y hy
  simp only [List.mem_cons, List.not_mem_nil, or_false] at hy
  rcases hy with rfl | rfl
  · exact ⟨7, rfl, ⟨by decide +kernel, by decide +kernel⟩,
      .inr ⟨0, 6, by decide +kernel, .inl (by decide +kernel)⟩⟩
  · exact ⟨12, rfl, ⟨by decide +kernel, by decide +kernel⟩,
      .inr ⟨0, 11, by decide +kernel, .inl (by decide +kernel)⟩⟩

/-- A stream of those over and over answers one of them each time. -/
theorem answer_sevens (n : Nat) :
    RandomSource.answer n { ahead := [], tail := .repeats (.value 7) [.value 12] } ∈
        [Draw.value 7, .value 12] ∧
      RandomSource.answer n { ahead := [.value 12], tail := .repeats (.value 7) [.value 12] } ∈
        [Draw.value 7, .value 12] := by
  induction n with
  | zero => exact ⟨.head _, .tail _ (.head _)⟩
  | succ n ih => exact ⟨ih.2, ih.1⟩

/-- The stream of 7 and 12 over and over: SIGN never ends (93_implementation_defined U7). -/
theorem test_sign_never_ends :
    signOf toyCurve none 3 testDigest { ahead := [], tail := .repeats (.value 7) [.value 12] } = .endless :=
  (signOf_eq_endless_iff ..).mpr
    ⟨rfl, fun n => by rw [test_hash_value]; exact sevens_retry _ (answer_sevens n).1⟩

/-- A used-up finite stream fails (43_protocol R261). -/
theorem test_sign_stream_used_up :
    signOf toyCurve none 3 testDigest { ahead := [.value 7], tail := .fails } =
      .failed { ahead := [], tail := .fails } := by decide +kernel

theorem test_verify :
    verifyOf toyCurve testDigest 6 13 13 10 = true ∧ verifyOf toyCurve testDigest 9 18 10 6 = true ∧
    verifyOf toyCurve testDigest 19 18 10 6 = false ∧ verifyOf toyCurve testDigest 9 0 10 6 = false := by
  decide +kernel

/-! ## The port (20_memory; 10_state; 60_exceptions) -/

/-- The example of 20_memory R66: bus word 15 of `w0` is its low end. -/
theorem test_host_write_word :
    (next (step { toy 0 0 0 0 with pending := [.write 0x043C 1] })).map (fun t => (t.w[0], t.replies)) =
      some (1, [.ok]) := by decide +kernel

theorem test_host_read_constant :
    (next (step (asked (.read 0x08FC)))).map (·.replies) = some [.data 19] := by decide +kernel

theorem test_message_word_is_big_endian :
    (next (step (asked (.write 0x8004 0x74657374)))).map (·.msg) =
      some [(4, 0x74), (5, 0x65), (6, 0x73), (7, 0x74)] := by decide +kernel

theorem test_bus_errors :
    (next (step (asked (.read 0x0000)))).map (·.replies) = some [.busError] ∧
    (next (step (asked (.read 0x0402)))).map (·.replies) = some [.busError] ∧
    (next (step (asked (.write 0x0800 1)))).map (·.replies) = some [.busError] ∧
    (next (step (asked (.write 0x8010 1)))).map (·.replies) = some [.busError] := by decide +kernel

/-- A command word runs, and its fault is no bus error (60_exceptions R293). -/
theorem test_command_write :
    (next (step (asked (.write 0x0000 0x044008C0)))).map (·.w[2]) = some 4 ∧
    (next (step (asked (.write 0x0000 0x00000000)))).map (fun t => (t.errCode, t.replies)) =
      some (1, [.ok]) := by decide +kernel

/-- Dropped while a fault stands, taken again after ERRCLR (60_exceptions R296, R297). -/
theorem test_dropped_then_cleared :
    (next (step { faultedState with pending := [.write 0x0000 0x20000007] })).map (·.w[0]) = some 5 ∧
    (next (step { faultedState with pending := [.write 0x0010 1] })).map (fun t => (t.err, t.errCmd)) =
      some (false, 0) := by decide +kernel

theorem test_reset_event :
    (next (step { faultedState with pending := [.reset] })).map (fun t => (t.err, t.pflags)) =
      some (false, 0x00000F0F) := by decide +kernel

theorem test_fetch_word :
    (next (step (State.reset.withFetchWord 32 0x201FFFFF))).map (·.w[0]) = some 0x1FFFFF := by
  decide +kernel

/-! ## Witnesses: every statement with hypotheses, met by a state and operands -/

/-- A property of the next state, by evaluation. -/
theorem of_next {r : Result} (p : State → Bool) (h : (next r).map p = some true) :
    ∃ t, r = .next t ∧ p t = true := by
  cases r with
  | next t => exact ⟨t, rfl, by simpa [next] using h⟩
  | fault _ => simp [next] at h
  | refused _ => simp [next] at h

theorem toy_inv : (toy 5 6 0 7).Inv where
  params := by decide +kernel
  memory := by decide +kernel
  offsets _ hc := absurd hc List.not_mem_nil
  identity := by decide +kernel
  absent := by decide +kernel
  clear := by decide +kernel
  faulted := by decide +kernel
  progress _ h := nomatch h

theorem witness_DecodeOfEncodeIsTheCommand :
    (Instr.knxt 15 .hs 1).wellFormed = true ∧ (Instr.knxt 15 .hs 12).wellFormed = true ∧
    (Instr.sign 0 15 .hs).wellFormed = true := by decide

theorem witness_DecodedWordIsItsEncoding : decode 0x8C20000C = .instr (.knxt 1 (.gen 0) 12) := by decide

theorem witness_LegalWordIsACommand :
    rowOf (bitsOf 0xC5EEC000 26 6) = some (.formatRDistinct .wd .wd .ws .zero .zero) ∧
    OpRow.legal 0xC5EEC000 (.formatRDistinct .wd .wd .ws .zero .zero) :=
  ⟨by decide, by decide, by decide, by decide, by decide, rfl, by decide⟩

theorem witness_UnassignedOpcodeFaults :
    (toy 5 6 0 7).err = false ∧ bitsOf (0x00000000 : Command) 26 6 = 0x00 ∧
    bitsOf (0xFFFFFFFF : Command) 26 6 = 0x3F := by decide +kernel

theorem witness_IllegalFieldFaults :
    (toy 5 6 0 7).err = false ∧
    rowOf (bitsOf 0x8C20000D 26 6) = some (.formatR .wd .ws .zero .zero .round) ∧
    ¬ OpRow.legal 0x8C20000D (.formatR .wd .ws .zero .zero .round) :=
  ⟨rfl, by decide, fun h => absurd h.2.2.2.2
    (by decide : ¬ (1 ≤ bitsOf 0x8C20000D 0 6 ∧ bitsOf 0x8C20000D 0 6 ≤ 12))⟩

/-- A pending command word: dropped, run, refused by either decode fault; and the refused read. -/
theorem witness_CommandWriteRunsTheCommand :
    (({ faultedState with pending := [.write 0x0000 0x20000007] } : State).err = true) ∧
    ((asked (.write 0x0000 0x20000007)).pending = [.write 0x0000 0x20000007] ∧
      (asked (.write 0x0000 0x20000007)).signing = none ∧
      (asked (.write 0x0000 0x20000007)).err = false ∧ decode 0x20000007 = .instr (.liw 0 7)) ∧
    decode 0x00000000 = .illegalOp ∧ decode 0x044008C1 = .illegalField ∧
    (asked (.read 0x0000)).pending = [.read 0x0000] := by decide +kernel

theorem witness_IdleStepHoldsTheState : (toy 5 6 0 7).signing = none ∧ (toy 5 6 0 7).pending = [] := ⟨rfl, rfl⟩

/-- The last message word and the first address behind it (MSG_CAP = 16). -/
theorem witness_HostReadAnswersTheMappedValue :
    toyParams.wf = true ∧ (asked (.read 0x0004)).signing = none ∧
    (asked (.read 0x0004)).pending = [.read 0x0004] ∧
    (12 % 4 = 0 ∧ 12 + 3 < toyParams.msgCap) ∧ ¬ readable 16 0x8010 ∧ ¬ readable 16 0x0000 :=
  ⟨by decide +kernel, rfl, rfl, by decide, by unfold readable; decide, by unfold readable; decide⟩

theorem witness_HostWriteStoresTheWord :
    toyParams.wf = true ∧ (toy 5 6 0 7).msg.wf = true ∧ (toy 5 6 0 7).signing = none ∧
    (asked (.write 0x0800 1)).pending = [.write 0x0800 1] ∧ ¬ writable 16 0x0800 ∧
    (asked (.write 0x0000 0x20000007)).pending = [.write 0x0000 0x20000007] ∧
    (asked (.write 0x0010 1)).pending = [.write 0x0010 1] ∧
    (asked (.write 0x0018 12)).pending = [.write 0x0018 12] ∧
    (asked (.write 0x07FC 1)).pending = [.write (BitVec.ofNat 16 (0x0400 + 64 * 15 + 4 * 15)) 1] ∧
    (asked (.write 0x800C 1)).pending = [.write (BitVec.ofNat 16 (0x8000 + 12)) 1] :=
  ⟨by decide +kernel, by decide +kernel, rfl, rfl, by unfold writable; decide, rfl, rfl, rfl, by decide,
    by decide⟩

theorem witness_BusErrorExactlyForRefusedAddresses :
    toyParams.wf = true ∧ readable 16 0x800C ∧ ¬ readable 16 0x8010 ∧ writable 16 0x07FC ∧
    ¬ writable 16 0x0800 ∧ (toy 5 6 0 7).signing = none ∧
    (asked (.read 0x800C)).pending = [.read 0x800C] ∧
    (asked (.write 0x07FC 1)).pending = [.write 0x07FC 1] :=
  ⟨by decide +kernel, by unfold readable; decide, by unfold readable; decide, by unfold writable; decide,
    by unfold writable; decide, rfl, rfl, rfl⟩

theorem witness_ErrclrClearsTheErrorState :
    faultedState.signing = none ∧
    ({ faultedState with pending := [.write 0x0010 1] } : State).pending = [.write 0x0010 1] ∧
    (1 : BusWord).getLsbD 0 = true ∧ (0xFFFFFFFE : BusWord).getLsbD 0 = false ∧
    (asked (.read 0x0010)).pending = [.read 0x0010] := by decide +kernel

theorem witness_PflagsShowsTheFlags :
    (toy 5 6 0 7).signing = none ∧
    (asked (.read 0x0014)).pending = [.read 0x0014] ∧
    (asked (.write 0x0014 0)).pending = [.write 0x0014 0] := ⟨rfl, rfl, rfl⟩

theorem witness_RecordedFaultStaysUntilCleared :
    faultedState.err = true ∧ step faultedState = .next faultedState := ⟨rfl, rfl⟩

theorem witness_StepKeepsTheInvariant :
    (toy 5 6 0 7).Inv ∧ step (toy 5 6 0 7) = .next (toy 5 6 0 7) := ⟨toy_inv, rfl⟩

theorem witness_ResetHasTheInvariant : toyParams.wf = true := by decide +kernel

theorem witness_ResetLeavesTheStatedValues : (asked .reset).pending = [.reset] := rfl

theorem witness_CurveConstantsNeverChange : step (toy 5 6 0 7) = .next (toy 5 6 0 7) := rfl

theorem witness_OnlyHashCommandsWriteTheHashState :
    ∃ t, step { (asked (.write 0x0000 0xA0000000)) with hh := 1 } = .next t ∧
      decide (t.hh ≠ 1) = true := of_next (fun t => decide (t.hh ≠ 1)) (by decide +kernel)

theorem witness_NoCommandWritesTheMessage : exec .hinit (toy 5 6 0 7) = .next (toy 5 6 0 7).zeroHash := rfl

theorem witness_OnlyKeygenAndSignDraw :
    ∃ t, exec (.keygen 0 0) (toyDraws 0 [.value 3]) = .next t ∧
      decide (t.source ≠ (toyDraws 0 [.value 3]).source) = true :=
  of_next (fun t => decide (t.source ≠ (toyDraws 0 [.value 3]).source)) (by decide +kernel)

theorem hash_completes (wd : WDst) (s : State) (h : s.mlen.toNat ≤ s.params.msgCap) :
    ∃ t, exec (.hash wd) s = .next t := ⟨_, by rw [exec, execHash, withMessage_fits _ h]⟩

/-- A one-byte message, and a memory that differs from its own behind that byte. -/
theorem witness_BytesBeyondMlenDoNotMatter :
    (∀ k, k < 1 → Memory.read [(0, 5), (1, 9)] k = Memory.read [(0, 5)] k) ∧
    ∃ t, exec (.hash 0) { toy 5 6 0 7 with msg := [(0, 5)], mlen := 1 } = .next t :=
  ⟨by decide, hash_completes _ _ (by decide +kernel)⟩

theorem witness_CommandCompletesOrFaults : exec .hinit (toy 5 6 0 7) = .next (toy 5 6 0 7).zeroHash := rfl

theorem witness_CommandFaultsAreTheListedOnes :
    (Instr.addm 2 (.gen 0) (.gen 1) (.gen 2)).wellFormed = true ∧ (toy 5 6 0 7).err = false ∧
    ∃ t, exec (.addm 2 (.gen 0) (.gen 1) (.gen 2)) (toy 5 6 0 7) = .next t ∧ t.err = true :=
  ⟨rfl, rfl, of_next (·.err) (by decide +kernel)⟩

theorem witness_FieldFunctionsGiveTheResidue : 1 ≤ 1 := le_rfl

theorem witness_InverseFunctionGivesTheInverse :
    (1 ≤ 1 ∧ Nat.gcd (0 % 1) 1 = 1) ∧ (1 ≤ 7 ∧ Nat.gcd (10 % 7) 7 = 1) ∧
    (1 ≤ 4 ∧ Nat.gcd (2 % 4) 4 ≠ 1) := by decide

theorem witness_FieldCommandsWriteTheResidue :
    (1 : BitVec 5) ≠ 0 ∧ (toy 5 6 0 7).wide (.gen 3) ≠ 0 ∧ (toy 5 6 0 7).wide (.gen 2) = 0 := by
  decide +kernel

theorem witness_InvmWritesTheInverse :
    (1 : BitVec 5) ≠ 0 ∧ (toy 2 3 0 4).wide (.gen 2) = 0 ∧ (toy 2 3 0 4).wide (.gen 3) ≠ 0 ∧
    Nat.gcd (((toy 2 3 0 4).wide (.gen 0)).toNat % ((toy 2 3 0 4).wide (.gen 3)).toNat)
      ((toy 2 3 0 4).wide (.gen 3)).toNat ≠ 1 ∧
    Nat.gcd (((toy 2 3 0 4).wide (.gen 1)).toNat % ((toy 2 3 0 4).wide (.gen 3)).toNat)
      ((toy 2 3 0 4).wide (.gen 3)).toNat = 1 := by decide +kernel

theorem witness_MoveCommandsCopyTheValue : 16 ≤ (16 : BitVec 5).toNat := by decide

theorem witness_SubmUndoesAddm :
    (toy 5 6 0 7).err = false ∧ (toy 5 6 0 7).wide (.gen 3) ≠ 0 ∧
    (WSrc.gen 1) ≠ .gen 2 ∧ (WSrc.gen 3) ≠ .gen 2 := by decide +kernel

theorem witness_MontgomeryReductionGivesTheProduct :
    (3 % 2 = 1 ∧ 3 < 2 ^ 512 ∧ 3 * ((2 ^ 512 - 1) / 3) % 2 ^ 512 = 2 ^ 512 - 1) ∧
    2 ^ 512 * 3 - 1 < 2 ^ 512 * 3 := by decide +kernel

theorem witness_PointMoveCommandsCopyTheFields :
    ((toy 0 0 0 0).aff .ag).absent = false ∧ ((toy 0 0 0 0).aff (.reg 3)).absent = true := by decide +kernel

theorem witness_DoublerFollowsTheFormulas :
    toyParams.wf = true ∧ (toyJ (jac 5 1 1) (jac 5 17 1)).j[(2 : JReg)].inf = true ∧
    (toyJ (jac 5 1 1) (jac 5 17 1)).j[(1 : JReg)].Y.toNat % toyCurve.P.toNat = 0 ∧
    (toyJ (jac 5 1 1) (jac 5 17 1)).j[(0 : JReg)].inf = false ∧
    (toyJ (jac 5 1 1) (jac 5 17 1)).j[(0 : JReg)].Y.toNat % toyCurve.P.toNat ≠ 0 := by decide +kernel

/-- An absent operand; the identity; the same point, the inverse point and another point as `ag`. -/
theorem witness_MixedAdderFollowsTheFormulas :
    toyParams.wf = true ∧ ((toyJ (jac 5 1 1) (jac 5 16 1)).aff (.reg 0)).absent = true ∧
    ((toyJ (jac 5 1 1) (jac 5 16 1)).aff .ag).absent = false ∧
    (toyJ (jac 5 1 1) (jac 5 16 1)).j[(2 : JReg)].inf = true ∧
    (toyJ (jac 5 1 1) (jac 5 16 1)).j[(0 : JReg)].inf = false ∧
    ((17 : Int) ∣ 5 * 1 ^ 2 - 5 ∧ (17 : Int) ∣ 1 * 1 ^ 3 - 1) ∧
    ((17 : Int) ∣ 5 * 1 ^ 2 - 5 ∧ ¬ (17 : Int) ∣ 1 * 1 ^ 3 - 16) ∧
    ¬ (17 : Int) ∣ 5 * 2 ^ 2 - 7 := by decide +kernel

theorem witness_GeneralAdderFollowsTheFormulas_identities :
    (toy 5 6 0 7).Inv ∧ (toy 5 6 0 7).j[(0 : JReg)].inf = true ∧ (toy 5 6 0 7).j[(1 : JReg)].inf = true :=
  ⟨toy_inv, rfl, rfl⟩

theorem witness_GeneralAdderFollowsTheFormulas :
    toyParams.wf = true ∧ (toyJ (jac 7 7 2) (jac 11 5 9)).j[(2 : JReg)].inf = true ∧
    (toyJ (jac 7 7 2) (jac 11 5 9)).j[(0 : JReg)].inf = false ∧
    (toyJ (jac 7 7 2) (jac 11 5 9)).j[(1 : JReg)].inf = false ∧
    ((17 : Int) ∣ 7 * 2 ^ 2 - 7 * 2 ^ 2 ∧ (17 : Int) ∣ 7 * 2 ^ 3 - 7 * 2 ^ 3) ∧
    ((17 : Int) ∣ 7 * 2 ^ 2 - 7 * 2 ^ 2 ∧ ¬ (17 : Int) ∣ 10 * 2 ^ 3 - 7 * 2 ^ 3) ∧
    ¬ (17 : Int) ∣ 11 * 2 ^ 2 - 7 * 9 ^ 2 := by decide +kernel

theorem witness_AffineConverterRecoversTheCoordinates :
    toyParams.wf = true ∧ (toyJ (jac 7 7 2) (jac 7 7 17)).j[(2 : JReg)].inf = true ∧
    Nat.gcd ((toyJ (jac 7 7 2) (jac 7 7 17)).j[(1 : JReg)].Z.toNat % 17) 17 ≠ 1 ∧
    (toyJ (jac 7 7 2) (jac 7 7 17)).j[(0 : JReg)].inf = false ∧
    Nat.gcd ((toyJ (jac 7 7 2) (jac 7 7 17)).j[(0 : JReg)].Z.toNat % 17) 17 = 1 := by decide +kernel

theorem witness_PsmulWritesTheMultiple :
    ((toy 2 0 0 0).aff (.reg 0)).absent = true ∧ ((toy 2 0 0 0).aff .ag).absent = false := by decide +kernel

theorem witness_ScalarMultFollowsTheBits : 1 ≤ 1 ∧ 2 ^ 512 - 1 < 2 ^ 512 := by decide +kernel

theorem witness_PointFunctionsStayOnTheCurve :
    1 ≤ toyCurve.P.toNat ∧ OnCurve toyCurve Jacobian.ident ∧ OnCurve toyCurve (jac 7 7 2) ∧
    OnCurve toyCurve (lift 5 1) ∧ toAffine toyCurve (jac 7 7 2) = some (6, 3) :=
  ⟨by decide +kernel, .inl rfl, .inr (by decide +kernel), .inr (by decide +kernel), by decide +kernel⟩

theorem toy_prime : toyCurve.P.toNat.Prime := by
  have h : toyCurve.P.toNat = 17 := by decide +kernel
  rw [h]; norm_num

/-- The identity, and `2·G = (6, 3)` and `G` by records with `Z = 2` and `Z = 1`. -/
theorem witness_PointFunctionsAreTheGroupLaw :
    ∃ c, c = toyCurve ∧ c.P.toNat.Prime ∧ 3 < c.P.toNat ∧ Represents c Jacobian.ident .zero ∧
      (∃ h, Represents c (jac 7 7 2) (.some (6 : Nat) (3 : Nat) h)) ∧
      (∃ h, Represents c (lift 5 1) (.some (5 : Nat) (1 : Nat) h)) :=
  ⟨toyCurve, rfl, toy_prime, by decide +kernel, .inl ⟨rfl, rfl⟩,
    ⟨weierstrass_nonsingular toyCurve 6 3 (by decide +kernel) (by decide +kernel),
      Represents.of_mod _ rfl (by decide +kernel) (by decide +kernel) (by decide +kernel)⟩,
    ⟨weierstrass_nonsingular toyCurve 5 1 (by decide +kernel) (by decide +kernel),
      Represents.of_mod _ rfl (by decide +kernel) (by decide +kernel) (by decide +kernel)⟩⟩

theorem witness_MultiplesOfTheBasePointAdd :
    toyCurve.P.toNat.Prime ∧ 3 < toyCurve.P.toNat ∧
    ¬ toyCurve.P.toNat ∣ 4 * toyCurve.A.toNat ^ 3 + 27 * toyCurve.B.toNat ^ 2 ∧
    OnCurve toyCurve (lift toyCurve.GX toyCurve.GY) :=
  ⟨toy_prime, by decide +kernel, by decide +kernel, .inr (by decide +kernel)⟩

theorem witness_HashDataCommandsWriteTheFunction :
    ((0 : BitVec 6).toNat = 0 ∧ 12 < (13 : BitVec 6).toNat) ∧
    (1 ≤ (1 : BitVec 6).toNat ∧ (1 : BitVec 6).toNat ≤ 12) ∧
    (1 ≤ (12 : BitVec 6).toNat ∧ (12 : BitVec 6).toNat ≤ 12) := by decide

/-- The running keys and states of the twelve rounds on the zero key and block. -/
def roundKey : Nat → Wide
  | 0 => 0
  | i + 1 => lpsOf (roundKey i ^^^ crndOf (i + 1))

def roundState : Nat → Wide
  | 0 => 0 ^^^ 0
  | i + 1 => lpsOf (roundState i) ^^^ roundKey (i + 1)

theorem witness_CipherIsTheTwelveRounds :
    roundState 0 = 0 ^^^ 0 ∧ roundKey 0 = 0 ∧
    ∀ i, i < 12 → roundKey (i + 1) = lpsOf (roundKey i ^^^ crndOf (i + 1)) ∧
      roundState (i + 1) = lpsOf (roundState i) ^^^ roundKey (i + 1) :=
  ⟨rfl, rfl, fun _ _ => ⟨rfl, rfl⟩⟩

theorem witness_EencEqualsTheRoundCommands :
    (toy 5 6 0 7).err = false ∧ (3 : WDst) ≠ 2 ∧ (WSrc.gen 2) ≠ .gen 3 := by decide +kernel

theorem witness_ByteLayersActOnTheBytes : 63 < 64 := by decide

theorem witness_LinearLayerIsTheMatrix : 7 < 8 ∧ 63 < 64 := by decide

theorem witness_PaddedBlockBytes :
    (63 < 64 ∧ 0 < 64 ∧ 0 = 63 - 63) ∧ (0 < 64 ∧ 62 < 63 - 0) ∧ (63 < 64 ∧ 63 - 63 < 1) := by decide

theorem witness_StreamingCommandsUpdateTheHashState :
    ∃ m h1 : Wide, m = padblock 0 ((toy 0 0 0 0).wide (.gen 0)) ∧
      h1 = compress (toy 0 0 0 0).hn (toy 0 0 0 0).hh m := ⟨_, _, rfl, rfl⟩

theorem witness_HashCommandHashesTheMessage :
    toyParams.msgCap < ({ toy 0 0 0 0 with mlen := 17 } : State).mlen.toNat ∧
    ({ toy 0 0 0 0 with mlen := 16 } : State).mlen.toNat ≤ toyParams.msgCap := by decide +kernel

theorem witness_StreamingGivesTheHash : (List.replicate 63 (0 : Byte)).length < 64 := by decide

theorem witness_ViewsOfAWideValueAgree : 63 < 64 ∧ 7 < 8 ∧ 15 < 16 := by decide

theorem witness_HashValueIsReducedAndNeverZero :
    2 ≤ toyCurve.Q.toNat ∧ (19 : Wide).toNat % toyCurve.Q.toNat = 0 ∧
    (18 : Wide).toNat % toyCurve.Q.toNat ≠ 0 := by decide +kernel

/-- A value at either end of the range and one outside, and a failure. -/
theorem witness_DrawTakesTheNextAnswer :
    (toyDraws 0 [.value 18]).source.draw = (.value 18, { ahead := [], tail := .fails }) ∧
    InRange toyCurve 18 ∧ InRange toyCurve 1 ∧ (∀ k, Draw.value 0 = .value k → ¬ InRange toyCurve k) ∧
    (∀ k, Draw.fail = .value k → ¬ InRange toyCurve k) ∧ (toyDraws 0 [.value 18]).params.curve = toyCurve :=
  ⟨rfl, ⟨by decide +kernel, by decide +kernel⟩, ⟨by decide +kernel, by decide +kernel⟩,
    (fun k h hr => absurd (Draw.value.inj h ▸ hr.1) (by decide +kernel)), (by intro k h; cases h), rfl⟩

/-- The ends of the range, a defective order (95_test_vectors V46), and the answers that fault. -/
theorem witness_KeygenWritesTheKeyPair :
    (toyDraws 0 [.value 18]).source.draw = (.value 18, { ahead := [], tail := .fails }) ∧
    InRange toyCurve 1 ∧ InRange toyCurve 18 ∧
    toAffine toyCurve (scalarMult toyCurve 1 5 1) = some (5, 1) ∧
    (InRange { toyCurve with Q := 38 } 19 ∧
      toAffine { toyCurve with Q := 38 } (scalarMult { toyCurve with Q := 38 } 19 5 1) = none) ∧
    (∀ k, Draw.value 19 = .value k → ¬ InRange toyCurve k) ∧
    (∀ k, Draw.fail = .value k → ¬ InRange toyCurve k) :=
  ⟨rfl, ⟨by decide +kernel, by decide +kernel⟩, ⟨by decide +kernel, by decide +kernel⟩, by decide +kernel,
    ⟨⟨by decide +kernel, by decide +kernel⟩, by decide +kernel⟩,
    (fun k h hr => absurd (Draw.value.inj h ▸ hr.2) (by decide +kernel)), (by intro k h; cases h)⟩

/-- The state of the example of 43_protocol R266 before SIGN. -/
def signState (ahead : List Draw) (tail : SourceTail) : State :=
  (withTestMessage (toy 11 6 13 0)).setSource { ahead := ahead, tail := tail }

theorem signState_hash (ahead : List Draw) (tail : SourceTail) :
    eOf toyCurve (hash512 (memRead (signState ahead tail).msg 0 (signState ahead tail).mlen.toNat)) = 2 := by
  have h : memRead (signState ahead tail).msg 0 (signState ahead tail).mlen.toNat =
      memRead testMessage 0 12 := rfl
  rw [h, test_digest]; exact test_hash_value

/-- With `d = 11` and `e = 2`: `k = 1` gives `s = 0`, `k = 7` gives `r = 0`. -/
theorem toy_retries : ∀ y ∈ [Draw.value 1, .value 7], Retries toyCurve 11 2 y := by
  intro y hy
  simp only [List.mem_cons, List.not_mem_nil, or_false] at hy
  rcases hy with rfl | rfl
  · exact ⟨1, rfl, ⟨by decide +kernel, by decide +kernel⟩,
      .inr ⟨5, 1, by decide +kernel, .inr (by decide +kernel)⟩⟩
  · exact ⟨7, rfl, ⟨by decide +kernel, by decide +kernel⟩,
      .inr ⟨0, 6, by decide +kernel, .inl (by decide +kernel)⟩⟩

theorem witness_SignFollowsTheLoop :
    (1 : WDst) ≠ 2 ∧ (signState [.value 1, .value 7, .value 2] .fails).mlen.toNat ≤ toyParams.msgCap ∧
    eOf toyCurve (hash512 (memRead (signState [.value 1, .value 7, .value 2] .fails).msg 0
      (signState [.value 1, .value 7, .value 2] .fails).mlen.toNat)) = 2 ∧
    (∀ y ∈ [Draw.value 1, .value 7], Retries toyCurve 11 2 y) ∧
    (∀ n, toyParams.signCap = some n → 2 < n) ∧
    drawMany 3 (signState [.value 1, .value 7, .value 2] .fails).source =
      ([.value 1, .value 7] ++ [.value 2], { ahead := [], tail := .fails }) ∧
    InRange toyCurve 2 ∧ toAffine toyCurve (scalarMult toyCurve 2 5 1) = some (6, 3) ∧
    (6 * 11 + 2 * 2) % 19 ≠ 0 :=
  ⟨by decide, by decide +kernel, signState_hash _ _, toy_retries, (by intro n h; cases h),
    rfl, ⟨by decide +kernel, by decide +kernel⟩, by decide +kernel, by decide⟩

/-- A failing draw after two retries, a spent attempt cap, and a message that is too long. -/
theorem witness_SignFollowsTheLoop_faults :
    drawMany 3 (signState [.value 1, .value 7] .fails).source =
      ([.value 1, .value 7] ++ [.fail], { ahead := [], tail := .fails }) ∧
    ({ toyParams with signCap := some 2 } : Params).signCap = some [Draw.value 1, .value 7].length ∧
    drawMany 2 (signState [.value 1, .value 7] .fails).source =
      ([.value 1, .value 7], { ahead := [], tail := .fails }) ∧
    toyParams.msgCap < ({ signState [] .fails with mlen := 17 } : State).mlen.toNat :=
  ⟨rfl, rfl, rfl, by decide +kernel⟩

/-- Retries in an unbounded stream, and the draw behind them that ends SIGN. -/
theorem witness_SignFollowsTheLoop_unbounded :
    drawMany 3 (signState [.value 1, .value 7, .value 2] (.free 5)).source =
      ([.value 1, .value 7] ++ [.value 2], { ahead := [], tail := .free 5 }) := rfl

/-- SIGN with `d = 3` on a stream, its write the next host event and a read behind it. -/
def signIssued (ahead : List Draw) (tail : SourceTail) : State :=
  { ((signState ahead tail).setW 0 3) with pending := [.write 0x0000 0xC4220000, .read 0x0004] }

/-- A stream that never ends it, and one that ends. -/
theorem witness_SignNeverCompletesExactlyWhenEveryDrawRetries :
    (signIssued [] .fails).signing = none ∧ (signIssued [] .fails).err = false ∧ (1 : WDst) ≠ 2 ∧
    (signIssued [] .fails).pending = .write 0x0000 (encode (.sign 1 2 (.gen 0))) :: [.read 0x0004] ∧
    (∀ later, ([.read 0x0004] : List HostEvent) ≠ .reset :: later) ∧
    (signIssued [] (.repeats (.value 7) [.value 12])).mlen.toNat ≤ toyParams.msgCap ∧
    toyParams.signCap = none ∧ ((signIssued [] .fails).wide (.gen 0)).toNat = 3 ∧
    (∀ n, Retries toyCurve 3 2 (RandomSource.answer n
      { ahead := [], tail := .repeats (.value 7) [.value 12] })) ∧
    ¬ Retries toyCurve 3 2 (RandomSource.answer 0 { ahead := [], tail := .fails }) :=
  ⟨rfl, rfl, by decide, by decide +kernel, (by intro later h; cases h), by decide +kernel, rfl, by decide +kernel,
    (fun n => sevens_retry _ (answer_sevens n).1), (by rintro ⟨k, h, -⟩; cases h)⟩

/-- Such a SIGN after its step, with the read still waiting. -/
def stuckState : State :=
  { (signState [] (.repeats (.value 7) [.value 12])).setSigning (some { wr := 1, ws := 2, wd := .gen 0 }) with
    pending := [.read 0x0004] }

theorem witness_StuckSignServesNoTransaction :
    stuckState.signing = some { wr := 1, ws := 2, wd := .gen 0 } ∧
    ∀ rest, stuckState.pending ≠ .reset :: rest := ⟨rfl, by intro rest h; cases h⟩

theorem test_reset_ends_a_stuck_sign :
    (next (step { stuckState with pending := [.reset] })).map (fun t => (t.signing, t.pflags)) =
      some (none, 0x00000F0F) := by decide +kernel

theorem witness_SignatureComponentsAreInRange :
    2 ≤ toyCurve.Q.toNat ∧ (signState [.value 1, .value 7, .value 2] .fails).err = false ∧
    (signState [.value 1, .value 7, .value 2] .fails).signing = none ∧
    ∃ t, exec (.sign 1 2 (.gen 0)) (signState [.value 1, .value 7, .value 2] .fails) = .next t ∧
      t.err = false ∧ t.signing = none := by
  refine ⟨by decide +kernel, rfl, rfl, ?_⟩
  have hw : ((signState [.value 1, .value 7, .value 2] .fails).wide (.gen 0)).toNat = 11 := by decide +kernel
  have hs : signOf (signState [.value 1, .value 7, .value 2] .fails).params.curve
      (signState [.value 1, .value 7, .value 2] .fails).params.signCap
      ((signState [.value 1, .value 7, .value 2] .fails).wide (.gen 0)).toNat testDigest
      (signState [.value 1, .value 7, .value 2] .fails).source = .signed 6 13 { ahead := [], tail := .fails } := by
    rw [hw]; exact test_sign_loop
  rw [exec, execSign, if_neg (by decide), withMessage_fits _ (by decide +kernel),
    show memRead (signState _ _).msg 0 (signState _ _).mlen.toNat = memRead testMessage 0 12 from rfl,
    test_digest, hs]
  exact ⟨_, rfl, rfl, rfl⟩

/-- The example of 43_protocol R268, its rejections, a sum with no affine representation, and a hash value with
no inverse modulo a composite order. -/
theorem witness_VerifyWritesTheVerdict :
    toyParams.wf = true ∧ ((signState [] .fails).aff (.reg 0)).absent = true ∧
    (((signState [] .fails).setA 0 (point 13 10)).aff (.reg 0)).absent = false ∧
    ({ signState [] .fails with mlen := 17 } : State).mlen.toNat = toyParams.msgCap + 1 ∧
    (signState [] .fails).mlen.toNat ≤ toyParams.msgCap ∧
    (0 < 1 ∧ 19 - 1 < 19) ∧
    Nat.gcd (eOf { toyCurve with Q := 6 } testDigest % 6) 6 ≠ 1 ∧
    (1 ≤ 1 ∧ 18 ≤ 19 - 1 ∧ 10 < 19 ∧ 2 * 10 % 19 = 1) ∧
    toAffine toyCurve (jacobiAdd toyCurve (scalarMult toyCurve (13 * 10 % 19) 5 1)
      (scalarMult toyCurve (19 - 6 * 10 % 19) 13 10)) = some (6, 3) ∧
    toAffine toyCurve (jacobiAdd toyCurve (scalarMult toyCurve (1 * 10 % 19) 5 1)
      (scalarMult toyCurve (19 - 1 * 10 % 19) 5 1)) = none := by decide +kernel

end Sys2Proof.Tests
end

/-!
PROOFS. The state's rules (10_state): the curve constants, CMD, ERRCLR and PFLAGS. First what every command can do
and what one host transaction does, which the proofs rest on.
-/

namespace Sys2Proof.Machine

/-! ## How a command ends (60_exceptions R293, R294) -/

/-- The ways command `i` ends, from `s` in `t`: it completes and writes its scope only; it records a fault, one of
its own or that of an ill-formed term, and the draws it made stay consumed; or it is a SIGN in progress for ever. -/
inductive Ends (i : Instr) (s t : State) : Prop where
  | completes (frame : Frame i.scope s t)
  | faults (e : ErrorKind) (listed : e ∈ i.faults ∨ i.wellFormed = false) (records : Records e (encode i) t)
      (frame : Frame { error := true, source := i.draws } s t)
  | inProgress (rest : RandomSource) (stays : StaysInProgress i rest s t)

/-- Whichever way a command ends, some frame holds: what no frame lets differ is unchanged. -/
theorem Ends.exists_frame {i : Instr} {s t : State} (h : Ends i s t) : ∃ f, Frame f s t := by
  cases h with
  | completes frame => exact ⟨_, frame⟩
  | faults e listed records frame => exact ⟨_, frame⟩
  | inProgress rest stays =>
    obtain ⟨-, -, frame⟩ := stays
    exact ⟨_, frame⟩

theorem Ends.params {i : Instr} {s t : State} (h : Ends i s t) : t.params = s.params :=
  h.exists_frame.elim fun _ frame => frame.params

theorem Ends.replies {i : Instr} {s t : State} (h : Ends i s t) : t.replies = s.replies :=
  h.exists_frame.elim fun _ frame => frame.replies

/-- The result `r` is a next state in which command `i` has ended; the message memory is the same
(20_memory R62). -/
def EndsNext (i : Instr) (s : State) (r : Result) : Prop :=
  ∃ t, r = .next t ∧ t.msg = s.msg ∧ Ends i s t

section
variable {i : Instr} {s : State}

theorem EndsNext.of_frame {t : State} (hmsg : t.msg = s.msg) (frame : Frame i.scope s t) :
    EndsNext i s (.next t) :=
  ⟨t, rfl, hmsg, .completes frame⟩

theorem EndsNext.setW {wd : WDst} {v : Wide} (h : wd ∈ i.scope.wide) : EndsNext i s (.next (s.setW wd v)) :=
  .of_frame rfl ((Frame.refl _ s).setW wd v h)

theorem EndsNext.setJ {jd : JReg} {r : Jacobian} (h : jd ∈ i.scope.jac) : EndsNext i s (.next (s.setJ jd r)) :=
  .of_frame rfl ((Frame.refl _ s).setJ jd r h)

theorem EndsNext.setA {ad : ADst} {r : Affine} (h : ad ∈ i.scope.aff) : EndsNext i s (.next (s.setA ad r)) :=
  .of_frame rfl ((Frame.refl _ s).setA ad r h)

theorem EndsNext.setHash {x n sg : Wide} (h : i.scope.hash = true) :
    EndsNext i s (.next (s.setHash x n sg)) :=
  .of_frame rfl ((Frame.refl _ s).setHash x n sg h)

/-- A hash command's result register and the cleared hash state (42_hash R233, R234; 43_protocol R268). -/
theorem EndsNext.setW_zeroHash {wd : WDst} {v : Wide} (h : wd ∈ i.scope.wide) (hh : i.scope.hash = true) :
    EndsNext i s (.next (s.setW wd v).zeroHash) :=
  .of_frame rfl (((Frame.refl _ s).setW wd v h).setHash 0 0 0 hh)

theorem EndsNext.trap {e : ErrorKind} (h : e ∈ i.faults ∨ i.wellFormed = false) :
    EndsNext i s (trap i e s) :=
  ⟨_, rfl, rfl, .faults e h (Records.raise s e _) ((Frame.refl _ s).raise e _ rfl)⟩

theorem EndsNext.trap_setSource {e : ErrorKind} {rest : RandomSource} (h : e ∈ i.faults)
    (hd : i.draws = true) : EndsNext i s (Machine.trap i e (s.setSource rest)) :=
  ⟨(s.setSource rest).raise e (encode i), rfl, rfl, .faults e (.inl h) (Records.raise _ e _)
    (((Frame.refl { error := true, source := i.draws } s).setSource rest hd).raise e _ rfl)⟩

theorem EndsNext.withModulus {wm : WSrc} {k : Nat → Result} (h : ErrorKind.modulusZero ∈ i.faults)
    (hk : ∀ m, EndsNext i s (k m)) : EndsNext i s (withModulus i wm s k) := by
  unfold Machine.withModulus
  split
  · exact .trap (.inl h)
  · exact hk _

theorem EndsNext.withPoint {ap : ASrc} {k : Wide → Wide → Result} (h : ErrorKind.absent ∈ i.faults)
    (hk : ∀ x y, EndsNext i s (k x y)) : EndsNext i s (withPoint i ap s k) := by
  unfold Machine.withPoint
  split
  · exact .trap (.inl h)
  · exact hk _ _

theorem EndsNext.withMessage {k : List Byte → Result} (h : ErrorKind.msgLen ∈ i.faults)
    (hk : ∀ M, EndsNext i s (k M)) : EndsNext i s (withMessage i s k) := by
  unfold Machine.withMessage
  split
  · exact .trap (.inl h)
  · exact hk _

end

theorem execInvm_ends (wd : WDst) (wa wm : WSrc) (s : State) :
    EndsNext (.invm wd wa wm) s (execInvm wd wa wm s) := by
  refine .withModulus (by simp [Instr.faults]) fun m => ?_
  split
  · exact .trap (.inl (by simp [Instr.faults]))
  · exact .setW (List.mem_singleton_self wd)

/-- The one fault of KNXT is that of a term with no word (30_encoding R98). -/
theorem execKnxt_ends (wd : WDst) (wa : WSrc) (imm6 : BitVec 6) (s : State) :
    EndsNext (.knxt wd wa imm6) s (execKnxt wd wa imm6 s) := by
  unfold execKnxt
  split
  · next hround =>
    refine .trap (.inr (decide_eq_false ?_))
    omega
  · exact .setW (List.mem_singleton_self wd)

theorem execKeygen_ends (wd : WDst) (ad : ADst) (s : State) :
    EndsNext (.keygen wd ad) s (execKeygen wd ad s) := by
  unfold execKeygen
  split
  · exact .trap_setSource (by simp [Instr.faults]) rfl
  · next d rest hdraw =>
    split
    · exact .trap_setSource (by simp [Instr.faults]) rfl
    · exact .of_frame rfl ((((Frame.refl _ s).setSource rest rfl).setW wd d (List.mem_singleton_self wd)).setA
        ad _ (List.mem_singleton_self ad))

theorem execSign_ends (wr ws : WDst) (wd : WSrc) (s : State) :
    EndsNext (.sign wr ws wd) s (execSign wr ws wd s) := by
  unfold execSign
  split
  · next heq => exact .trap (.inr (decide_eq_false (not_not_intro heq)))
  · refine .withMessage (by simp [Instr.faults]) fun M => ?_
    split
    · next r sg rest hend =>
      exact .of_frame rfl (((((Frame.refl _ s).setSource rest rfl).setW wr r (by simp [Instr.scope])).setW
        ws sg (by simp [Instr.scope])).setHash 0 0 0 rfl)
    · exact .trap_setSource (by simp [Instr.faults]) rfl
    · exact ⟨_, rfl, rfl, .inProgress _ (.setSigning wr ws wd _ s)⟩

theorem execVerify_ends (wd : WDst) (wr ws : WSrc) (ap : ASrc) (s : State) :
    EndsNext (.verify wd wr ws ap) s (execVerify wd wr ws ap s) := by
  refine .withPoint (by simp [Instr.faults]) fun xq yq => .withMessage (by simp [Instr.faults]) fun M => ?_
  exact .setW_zeroHash (List.mem_singleton_self wd) rfl

/-- All that a command can do, in any state. -/
theorem exec_ends (i : Instr) (s : State) : EndsNext i s (exec i s) := by
  cases i with
  | addm wd => exact .withModulus (List.mem_singleton_self _) fun _ => .setW (List.mem_singleton_self wd)
  | subm wd => exact .withModulus (List.mem_singleton_self _) fun _ => .setW (List.mem_singleton_self wd)
  | mulm wd => exact .withModulus (List.mem_singleton_self _) fun _ => .setW (List.mem_singleton_self wd)
  | sqrm wd => exact .withModulus (List.mem_singleton_self _) fun _ => .setW (List.mem_singleton_self wd)
  | redm wd => exact .withModulus (List.mem_singleton_self _) fun _ => .setW (List.mem_singleton_self wd)
  | invm wd wa wm => exact execInvm_ends wd wa wm s
  | movw wd => exact .setW (List.mem_singleton_self wd)
  | liw wd => exact .setW (List.mem_singleton_self wd)
  | pdbl jd => exact .setJ (List.mem_singleton_self jd)
  | pmadd jd => exact .withPoint (List.mem_singleton_self _) fun _ _ => .setJ (List.mem_singleton_self jd)
  | pjadd jd => exact .setJ (List.mem_singleton_self jd)
  | paff ad => exact .setA (List.mem_singleton_self ad)
  | psmul jd => exact .withPoint (List.mem_singleton_self _) fun _ _ => .setJ (List.mem_singleton_self jd)
  | plift jd => exact .withPoint (List.mem_singleton_self _) fun _ _ => .setJ (List.mem_singleton_self jd)
  | jset jd => exact .setJ (List.mem_singleton_self jd)
  | jinf jd => exact .setJ (List.mem_singleton_self jd)
  | jgetx wd => exact .setW (List.mem_singleton_self wd)
  | jgety wd => exact .setW (List.mem_singleton_self wd)
  | jgetz wd => exact .setW (List.mem_singleton_self wd)
  | aset ad => exact .setA (List.mem_singleton_self ad)
  | aabs ad => exact .setA (List.mem_singleton_self ad)
  | agetx wd => exact .withPoint (List.mem_singleton_self _) fun _ _ => .setW (List.mem_singleton_self wd)
  | agety wd => exact .withPoint (List.mem_singleton_self _) fun _ _ => .setW (List.mem_singleton_self wd)
  | xorw wd => exact .setW (List.mem_singleton_self wd)
  | addw wd => exact .setW (List.mem_singleton_self wd)
  | lps wd => exact .setW (List.mem_singleton_self wd)
  | knxt wd wa imm6 => exact execKnxt_ends wd wa imm6 s
  | eenc wd => exact .setW (List.mem_singleton_self wd)
  | gcmp wd => exact .setW (List.mem_singleton_self wd)
  | hinit => exact .setHash rfl
  | hblk => exact .setHash rfl
  | hfin wd => exact .setW_zeroHash (List.mem_singleton_self wd) rfl
  | hash wd =>
    exact .withMessage (List.mem_singleton_self _) fun _ => .setW_zeroHash (List.mem_singleton_self wd) rfl
  | keygen wd ad => exact execKeygen_ends wd ad s
  | sign wr ws wd => exact execSign_ends wr ws wd s
  | verify wd wr ws ap => exact execVerify_ends wd wr ws ap s

/-! ## The host port (20_memory R60 to R70) -/

/-- The parameters, and what the port has answered so far, are not a command word's to change. -/
theorem issue_keeps (word : Command) (s : State) :
    ∃ t, issue word s = .next t ∧ t.params = s.params ∧ t.replies = s.replies := by
  unfold issue
  split
  · exact ⟨s, rfl, rfl, rfl⟩
  · split
    · exact ⟨_, rfl, rfl, rfl⟩
    · exact ⟨_, rfl, rfl, rfl⟩
    · next i hdec =>
      obtain ⟨t, ht, -, hends⟩ := exec_ends i s
      exact ⟨t, ht, hends.params, hends.replies⟩

theorem slotWrite_keeps {s : State} {data : BusWord} {slot : PortSlot} {r : Result}
    (h : slotWrite s data slot = some r) :
    ∃ t, r = .next t ∧ t.params = s.params ∧ t.replies = s.replies := by
  cases slot with
  | cmd =>
    obtain rfl := Option.some.inj h
    exact issue_keeps data s
  | errClr =>
    obtain rfl := Option.some.inj h
    refine ⟨_, rfl, ?_⟩
    split <;> exact ⟨rfl, rfl⟩
  | mlen =>
    obtain rfl := Option.some.inj h
    exact ⟨_, rfl, rfl, rfl⟩
  | msg k =>
    obtain rfl := Option.some.inj h
    exact ⟨_, rfl, rfl, rfl⟩
  | wide w k =>
    cases w with
    | gen i =>
      obtain rfl := Option.some.inj h
      exact ⟨_, rfl, rfl, rfl⟩
    | cp | ca | cb | cq | cgx | cgy | hh | hn | hs => cases h
  | status | errCode | errCmd | pflags => cases h

theorem completeWrite_params (t : State) : ∃ u, completeWrite (.next t) = .next u ∧ u.params = t.params := by
  cases hg : t.signing with
  | none => exact ⟨_, completeWrite_ended hg, rfl⟩
  | some g => exact ⟨_, completeWrite_stuck hg, rfl⟩

/-- All that a write can do: it is refused, or it has the effect of its slot. -/
theorem hostWrite_cases (s : State) (addr : HostAddr) (data : BusWord) :
    hostWrite s addr data = .next (s.answer .busError) ∨
    ∃ slot r, slotOf s.params.msgCap addr = some slot ∧ slotWrite s data slot = some r ∧
      hostWrite s addr data = completeWrite r := by
  unfold hostWrite
  cases hslot : (slotOf s.params.msgCap addr).bind (slotWrite s data) with
  | none => exact .inl rfl
  | some r =>
    obtain ⟨slot, hs, hr⟩ := Option.bind_eq_some_iff.mp hslot
    exact .inr ⟨slot, r, hs, hr, rfl⟩

/-- No host event, a reset and a command's whole run among them, changes the parameters (10_state R23;
70_reset_and_hazards R331). -/
theorem serve_params (e : HostEvent) (s : State) : ∃ t, serve e s = .next t ∧ t.params = s.params := by
  cases e with
  | read addr => exact ⟨_, rfl, rfl⟩
  | reset => exact ⟨_, rfl, rfl⟩
  | write addr data =>
    change ∃ t, hostWrite s addr data = .next t ∧ t.params = s.params
    obtain hrefused | ⟨slot, r, -, hslot, hwrite⟩ := hostWrite_cases s addr data
    · exact ⟨_, hrefused, rfl⟩
    · obtain ⟨t, rfl, hparams, -⟩ := slotWrite_keeps hslot
      obtain ⟨u, hu, hut⟩ := completeWrite_params t
      exact ⟨u, hwrite.trans hu, hut.trans hparams⟩

theorem step_params (s : State) : ∃ t, step s = .next t ∧ t.params = s.params := by
  obtain ⟨g, -, hstuck⟩ | ⟨-, -, hidle⟩ | ⟨e, rest, -, -, hserve⟩ := step_cases s
  · obtain ⟨rest, -, hreset⟩ | ⟨-, hstill⟩ := stuckStep_cases s
    · exact ⟨_, hstuck.trans hreset, rfl⟩
    · exact ⟨s, hstuck.trans hstill, rfl⟩
  · exact ⟨s, hidle, rfl⟩
  · obtain ⟨t, ht, hparams⟩ := serve_params e { s with pending := rest }
    exact ⟨t, hserve.trans ht, hparams⟩

/-- Settles O19: the six constants are fields of the parameters, which no host event changes. -/
theorem curveConstantsNeverChange : Obligations.CurveConstantsNeverChange := by
  unfold Obligations.CurveConstantsNeverChange
  refine ⟨fun s => ⟨rfl, rfl, rfl, rfl, rfl, rfl⟩, fun s t hstep => ?_⟩
  obtain ⟨u, hu, hparams⟩ := step_params s
  obtain rfl : u = t := Host.Outcome.next.inj (hu.symm.trans hstep)
  exact hparams

/-! ### One transaction, with no command in progress -/

section
variable {s : State} {addr : HostAddr} {data : BusWord} {rest : List HostEvent}

/-- A read is answered and changes nothing else (20_memory R69). -/
theorem step_read (hsign : s.signing = none) (hpend : s.pending = .read addr :: rest) :
    step s = .next { s with pending := rest, replies := hostRead s addr :: s.replies } := by
  rw [step, serveNext, hsign, hpend]
  rfl

theorem step_write (hsign : s.signing = none) (hpend : s.pending = .write addr data :: rest) :
    step s = hostWrite { s with pending := rest } addr data := by
  rw [step, serveNext, hsign, hpend]
  rfl

/-- The write of a slot that takes it (20_memory R64). -/
theorem step_write_taken {slot : PortSlot} {r : Result} (hsign : s.signing = none)
    (hpend : s.pending = .write addr data :: rest) (hslot : slotOf s.params.msgCap addr = some slot)
    (hr : slotWrite { s with pending := rest } data slot = some r) : step s = completeWrite r := by
  rw [step_write hsign hpend, hostWrite, show slotOf _ addr = some slot from hslot, Option.bind_some, hr]

/-- A refused write is answered and changes nothing else (20_memory R70). -/
theorem step_write_refused {slot : PortSlot} (hsign : s.signing = none)
    (hpend : s.pending = .write addr data :: rest) (hslot : slotOf s.params.msgCap addr = some slot)
    (hr : slotWrite { s with pending := rest } data slot = none) :
    step s = .next { s with pending := rest, replies := .busError :: s.replies } := by
  rw [step_write hsign hpend, hostWrite, show slotOf _ addr = some slot from hslot, Option.bind_some, hr]
  rfl

end

/-! ### The control registers in the address map (10_state R31; 20_memory R61) -/

theorem slotOf_cmd (cap : Nat) : slotOf cap 0x0000 = some .cmd := rfl

theorem slotOf_errClr (cap : Nat) : slotOf cap 0x0010 = some .errClr := rfl

theorem slotOf_pflags (cap : Nat) : slotOf cap 0x0014 = some .pflags := rfl

theorem hostRead_of_slot {s : State} {addr : HostAddr} {slot : PortSlot}
    (h : slotOf s.params.msgCap addr = some slot) :
    hostRead s addr = (slotRead s slot).elim .busError .data := by
  rw [hostRead, h, Option.bind_some]
  cases slotRead s slot <;> rfl

/-! ### A word written to CMD (10_state R32) -/

section
variable {word : Command} {s : State}

theorem issue_dropped (h : s.err = true) : issue word s = .next s := if_pos h

theorem issue_illegalOp (h : s.err = false) (hdec : decode word = .illegalOp) :
    issue word s = .next (s.raise .illegalOp word) := by
  simp [issue, h, hdec]

theorem issue_illegalField (h : s.err = false) (hdec : decode word = .illegalField) :
    issue word s = .next (s.raise .illegalField word) := by
  simp [issue, h, hdec]

theorem issue_instr {i : Instr} (h : s.err = false) (hdec : decode word = .instr i) :
    issue word s = exec i s := by
  simp [issue, h, hdec]

end

/-- Settles O7: the word is dropped, decoded to a fault, or run; a command that ends leaves the answers as they
were, so the step adds its own. -/
theorem commandWriteRunsTheCommand : Obligations.CommandWriteRunsTheCommand := by
  unfold Obligations.CommandWriteRunsTheCommand
  refine ⟨fun s word rest hsign hpend => ?_, fun s rest hsign hpend => ?_⟩
  · have hstep : step s = completeWrite (issue word { s with pending := rest }) :=
      step_write_taken hsign hpend (slotOf_cmd _) rfl
    refine ⟨fun herr => ?_, fun herr => ⟨fun i hdec => ?_, fun hdec => ?_, fun hdec => ?_⟩⟩
    · rw [hstep, issue_dropped (s := { s with pending := rest }) herr]
      exact completeWrite_ended hsign
    · obtain ⟨t, ht, -, hends⟩ := exec_ends i { s with pending := rest }
      rw [issue_instr (s := { s with pending := rest }) herr hdec, ht] at hstep
      refine ⟨t, ht, fun hended => ?_, fun hstuck => ?_⟩
      · rw [hstep, completeWrite_ended hended, State.answer, hends.replies]
      · obtain ⟨g, hg⟩ := Option.ne_none_iff_exists'.mp hstuck
        rw [hstep, completeWrite_stuck hg]
    · rw [hstep, issue_illegalOp (s := { s with pending := rest }) herr hdec]
      exact completeWrite_ended hsign
    · rw [hstep, issue_illegalField (s := { s with pending := rest }) herr hdec]
      exact completeWrite_ended hsign
  · rw [step_read hsign hpend, hostRead_of_slot (slotOf_cmd _)]
    rfl

/-- Settles O13: ERRCLR is a slot whose write clears the error state or not, by bit 0, and which no read finds. -/
theorem errclrClearsTheErrorState : Obligations.ErrclrClearsTheErrorState := by
  unfold Obligations.ErrclrClearsTheErrorState
  refine ⟨fun s d rest hsign hpend => ?_, fun s rest hsign hpend => ?_⟩
  · have hstep : step s = completeWrite (.next (if d.getLsbD 0 then
        State.clearError { s with pending := rest } else { s with pending := rest })) :=
      step_write_taken hsign hpend (slotOf_errClr _) rfl
    refine ⟨fun hset => ?_, fun hunset => ?_⟩
    · rw [hstep, if_pos hset]
      exact completeWrite_ended hsign
    · rw [hstep, if_neg (Bool.eq_false_iff.mp hunset)]
      exact completeWrite_ended hsign
  · rw [step_read hsign hpend, hostRead_of_slot (slotOf_errClr _)]
    rfl

/-! ### The bits of PFLAGS (10_state R37) -/

theorem flagBit_getLsbD (b : Bool) {n : Nat} (hn : n < 32) (k : Nat) :
    (flagBit b n).getLsbD k = (b && decide (k = n)) := by
  cases b with
  | false => simp [flagBit]
  | true =>
    rw [flagBit, if_pos rfl, ← BitVec.twoPow_eq, BitVec.getLsbD_twoPow]
    simp [hn, eq_comm]

/-- Bit `k` of PFLAGS: the flag that stands there, if one does. -/
theorem State.pflags_getLsbD (s : State) (k : Nat) :
    s.pflags.getLsbD k = (
      (s.j[0].inf && decide (k = 0) || s.j[1].inf && decide (k = 1) ||
       s.j[2].inf && decide (k = 2) || s.j[3].inf && decide (k = 3)) ||
      (s.a[0].absent && decide (k = 8) || s.a[1].absent && decide (k = 9) ||
       s.a[2].absent && decide (k = 10) || s.a[3].absent && decide (k = 11))) := by
  simp [State.pflags, flagBit_getLsbD, Bool.or_assoc]

/-- Settles O14: each flag has a bit of its own, and the view has no write. -/
theorem pflagsShowsTheFlags : Obligations.PflagsShowsTheFlags := by
  unfold Obligations.PflagsShowsTheFlags
  refine fun s => ⟨fun i => ?_, fun i => ?_, fun n hn => ?_, fun rest hsign hpend => ?_,
    fun d rest hsign hpend => step_write_refused hsign hpend (slotOf_pflags _) rfl⟩
  · rw [State.pflags_getLsbD]
    fin_cases i <;> simp
  · rw [State.pflags_getLsbD]
    fin_cases i <;> simp
  · have hout : n ≠ 0 ∧ n ≠ 1 ∧ n ≠ 2 ∧ n ≠ 3 ∧ n ≠ 8 ∧ n ≠ 9 ∧ n ≠ 10 ∧ n ≠ 11 := by omega
    simp [State.pflags_getLsbD, hout]
  · rw [step_read hsign hpend, hostRead_of_slot (slotOf_pflags _)]
    rfl

end Sys2Proof.Machine

/-!
PROOFS. The host port (20_memory): which slot stands at an address, which addresses a read or a write is refused
at, and what a bus word is made of; then what one transaction answers and stores.
-/

namespace Sys2Proof.Machine

/-! ## The address map (20_memory R61) -/

theorem wideIndex_lt (r : WSrc) : wideIndex r < 25 := by
  cases r with
  | gen i => exact i.isLt.trans (by decide)
  | cp | ca | cb | cq | cgx | cgy | hh | hn | hs => decide

theorem wideOfIndex_wideIndex (r : WSrc) : wideOfIndex (wideIndex r) = some r := by
  cases r with
  | gen i => exact dif_pos i.isLt
  | cp | ca | cb | cq | cgx | cgy | hh | hn | hs => rfl

theorem wideIndex_of_wideOfIndex {n : Nat} {r : WSrc} (h : wideOfIndex n = some r) : wideIndex r = n := by
  unfold wideOfIndex at h
  split at h
  · obtain rfl := Option.some.inj h
    rfl
  · split at h <;> cases h <;> rfl

/-- The wide indices are `0..24` (10_state R21). -/
theorem exists_wideIndex_eq {n : Nat} (h : n < 25) : ∃ r, wideIndex r = n := by
  by_cases hgen : n < 16
  · exact ⟨.gen ⟨n, hgen⟩, rfl⟩
  · have hconst : ∀ m < 9, ∃ r ∈ wideOfIndex (16 + m), True := by decide
    obtain ⟨r, hr, -⟩ := hconst (n - 16) (by omega)
    exact ⟨r, (wideIndex_of_wideOfIndex hr).trans (by omega)⟩

/-- The address of a slot, by the rows of 20_memory R61. -/
def PortSlot.address : PortSlot → Nat
  | .cmd => 0x0000
  | .status => 0x0004
  | .errCode => 0x0008
  | .errCmd => 0x000C
  | .errClr => 0x0010
  | .pflags => 0x0014
  | .mlen => 0x0018
  | .wide r k => 0x0400 + 64 * wideIndex r + 4 * k
  | .msg k => 0x8000 + k

/-- The slots a block with `MSG_CAP = cap` has: sixteen bus words for a wide index, and whole message words. -/
def PortSlot.Mapped (cap : Nat) : PortSlot → Prop
  | .wide _ k => k < 16
  | .msg k => k % 4 = 0 ∧ k + 3 < cap
  | _ => True

section
variable {cap : Nat} {addr : HostAddr}

/-- Above the control registers stand the wide registers and the message memory. -/
theorem slotOf_above (halign : addr.toNat % 4 = 0) (habove : 0x0018 < addr.toNat) :
    slotOf cap addr =
      if 0x0400 ≤ addr.toNat ∧ addr.toNat < 0x0A40 then
        (wideOfIndex ((addr.toNat - 0x0400) / 64)).map fun r => .wide r ((addr.toNat - 0x0400) % 64 / 4)
      else if 0x8000 ≤ addr.toNat ∧ addr.toNat - 0x8000 + 3 < cap then some (.msg (addr.toNat - 0x8000))
      else none := by
  rw [slotOf, if_neg (by omega), if_neg (by omega), if_neg (by omega), if_neg (by omega), if_neg (by omega),
    if_neg (by omega), if_neg (by omega), if_neg (by omega)]

/-- The slot that has a word's address stands there. -/
theorem slotOf_of_address {slot : PortSlot} (haddr : addr.toNat = slot.address) (hmap : slot.Mapped cap) :
    slotOf cap addr = some slot := by
  cases slot with
  | cmd | status | errCode | errCmd | errClr | pflags | mlen => simp [slotOf, haddr, PortSlot.address]
  | wide r k =>
    have hk : k < 16 := hmap
    have hr := wideIndex_lt r
    rw [PortSlot.address] at haddr
    have hindex : (addr.toNat - 0x0400) / 64 = wideIndex r := by omega
    have hword : (addr.toNat - 0x0400) % 64 / 4 = k := by omega
    rw [slotOf_above (by omega) (by omega), if_pos (by omega), hindex, hword, wideOfIndex_wideIndex]
    rfl
  | msg k =>
    obtain ⟨halign, hlast⟩ := hmap
    rw [PortSlot.address] at haddr
    have hoffset : addr.toNat - 0x8000 = k := by omega
    rw [slotOf_above (by omega) (by omega), if_neg (by omega), hoffset, if_pos (by omega)]

/-- An aligned address above the control registers is mapped only as a wide register's or a message word. -/
theorem address_of_slotOf_above {slot : PortSlot} (halign : addr.toNat % 4 = 0) (habove : 0x0018 < addr.toNat)
    (h : slotOf cap addr = some slot) : addr.toNat = slot.address ∧ slot.Mapped cap := by
  rw [slotOf_above halign habove] at h
  split_ifs at h with hwide hmsg
  · obtain ⟨r, hr, rfl⟩ := Option.map_eq_some_iff.mp h
    have hindex := wideIndex_of_wideOfIndex hr
    simp only [PortSlot.address, PortSlot.Mapped]
    omega
  · obtain rfl := Option.some.inj h
    simp only [PortSlot.address, PortSlot.Mapped]
    omega

theorem exists_control_slot (halign : addr.toNat % 4 = 0) (hcontrol : addr.toNat ≤ 0x0018) :
    ∃ slot : PortSlot, addr.toNat = slot.address ∧ slot.Mapped cap := by
  obtain h | h | h | h | h | h | h : addr.toNat = 0x0000 ∨ addr.toNat = 0x0004 ∨ addr.toNat = 0x0008 ∨
      addr.toNat = 0x000C ∨ addr.toNat = 0x0010 ∨ addr.toNat = 0x0014 ∨ addr.toNat = 0x0018 := by omega
  · exact ⟨.cmd, h, trivial⟩
  · exact ⟨.status, h, trivial⟩
  · exact ⟨.errCode, h, trivial⟩
  · exact ⟨.errCmd, h, trivial⟩
  · exact ⟨.errClr, h, trivial⟩
  · exact ⟨.pflags, h, trivial⟩
  · exact ⟨.mlen, h, trivial⟩

/-- A slot stands at its own address and at no other. -/
theorem slotOf_eq_some_iff {slot : PortSlot} :
    slotOf cap addr = some slot ↔ addr.toNat = slot.address ∧ slot.Mapped cap := by
  refine ⟨fun h => ?_, fun ⟨haddr, hmap⟩ => slotOf_of_address haddr hmap⟩
  by_cases halign : addr.toNat % 4 = 0
  · by_cases habove : 0x0018 < addr.toNat
    · exact address_of_slotOf_above halign habove h
    · obtain ⟨control, haddr, hmap⟩ := exists_control_slot (cap := cap) halign (by omega)
      obtain rfl : control = slot := Option.some.inj ((slotOf_of_address haddr hmap).symm.trans h)
      exact ⟨haddr, hmap⟩
  · rw [slotOf, if_pos halign] at h
    cases h

theorem slotOf_wideArea {r : WSrc} (halign : addr.toNat % 4 = 0) (hbase : 0x0400 ≤ addr.toNat)
    (hr : wideIndex r = (addr.toNat - 0x0400) / 64) :
    slotOf cap addr = some (.wide r ((addr.toNat - 0x0400) % 64 / 4)) := by
  refine slotOf_of_address ?_ ?_
  · rw [PortSlot.address]
    omega
  · rw [PortSlot.Mapped]
    omega

/-- The message memory ends at a word's end, since MSG_CAP is a multiple of 4. -/
theorem slotOf_msgArea (hcap : cap % 4 = 0) (halign : addr.toNat % 4 = 0) (hbase : 0x8000 ≤ addr.toNat)
    (hend : addr.toNat < 0x8000 + cap) : slotOf cap addr = some (.msg (addr.toNat - 0x8000)) := by
  refine slotOf_of_address ?_ ⟨by omega, by omega⟩
  rw [PortSlot.address]
  omega

theorem slotOf_wide (r : WSrc) {k : Nat} (hk : k < 16) :
    slotOf cap (BitVec.ofNat 16 (0x0400 + 64 * wideIndex r + 4 * k)) = some (.wide r k) := by
  have hr := wideIndex_lt r
  refine slotOf_of_address ?_ hk
  rw [BitVec.toNat_ofNat, Nat.mod_eq_of_lt (by omega), PortSlot.address]

theorem slotOf_msg {k : Nat} (hcap : cap ≤ 0x8000) (halign : k % 4 = 0) (hlast : k + 3 < cap) :
    slotOf cap (BitVec.ofNat 16 (0x8000 + k)) = some (.msg k) := by
  refine slotOf_of_address ?_ ⟨halign, hlast⟩
  rw [BitVec.toNat_ofNat, Nat.mod_eq_of_lt (by omega), PortSlot.address]

theorem slotOf_status : slotOf cap 0x0004 = some .status := rfl

theorem slotOf_errCode : slotOf cap 0x0008 = some .errCode := rfl

theorem slotOf_errCmd : slotOf cap 0x000C = some .errCmd := rfl

theorem slotOf_mlen : slotOf cap 0x0018 = some .mlen := rfl

/-! ## The refused addresses (20_memory R70) -/

/-- An address that reads is that of a slot with a value to read. -/
theorem readable_iff_slot (s : State) (hcap : cap % 4 = 0) :
    readable cap addr ↔ ∃ slot, slotOf cap addr = some slot ∧ (slotRead s slot).isSome := by
  constructor
  · rintro ⟨halign, hcontrol | ⟨hbase, hend⟩ | ⟨hbase, hend⟩⟩
    · simp only [List.mem_cons, List.not_mem_nil, or_false] at hcontrol
      obtain h | h | h | h | h := hcontrol
      · exact ⟨.status, slotOf_of_address h trivial, rfl⟩
      · exact ⟨.errCode, slotOf_of_address h trivial, rfl⟩
      · exact ⟨.errCmd, slotOf_of_address h trivial, rfl⟩
      · exact ⟨.pflags, slotOf_of_address h trivial, rfl⟩
      · exact ⟨.mlen, slotOf_of_address h trivial, rfl⟩
    · obtain ⟨r, hr⟩ := exists_wideIndex_eq (n := (addr.toNat - 0x0400) / 64) (by omega)
      exact ⟨_, slotOf_wideArea halign hbase hr, rfl⟩
    · exact ⟨_, slotOf_msgArea hcap halign hbase hend, rfl⟩
  · rintro ⟨slot, hslot, hread⟩
    obtain ⟨haddr, hmap⟩ := slotOf_eq_some_iff.mp hslot
    cases slot with
    | cmd | errClr => cases hread
    | status | errCode | errCmd | pflags | mlen => simp [readable, haddr, PortSlot.address]
    | wide r k =>
      have hk : k < 16 := hmap
      have hr := wideIndex_lt r
      rw [PortSlot.address] at haddr
      exact ⟨by omega, .inr (.inl (by omega))⟩
    | msg k =>
      obtain ⟨halign, hlast⟩ := hmap
      rw [PortSlot.address] at haddr
      exact ⟨by omega, .inr (.inr (by omega))⟩

/-- An address that takes a write is that of a slot a write has an effect on. -/
theorem writable_iff_slot (s : State) (data : BusWord) (hcap : cap % 4 = 0) :
    writable cap addr ↔ ∃ slot, slotOf cap addr = some slot ∧ (slotWrite s data slot).isSome := by
  constructor
  · rintro ⟨halign, hcontrol | ⟨hbase, hend⟩ | ⟨hbase, hend⟩⟩
    · simp only [List.mem_cons, List.not_mem_nil, or_false] at hcontrol
      obtain h | h | h := hcontrol
      · exact ⟨.cmd, slotOf_of_address h trivial, rfl⟩
      · exact ⟨.errClr, slotOf_of_address h trivial, rfl⟩
      · exact ⟨.mlen, slotOf_of_address h trivial, rfl⟩
    · obtain ⟨i, hi⟩ : ∃ i : WDst, i.val = (addr.toNat - 0x0400) / 64 := ⟨⟨_, by omega⟩, rfl⟩
      exact ⟨_, slotOf_wideArea (r := .gen i) halign hbase hi, rfl⟩
    · exact ⟨_, slotOf_msgArea hcap halign hbase hend, rfl⟩
  · rintro ⟨slot, hslot, hwrite⟩
    obtain ⟨haddr, hmap⟩ := slotOf_eq_some_iff.mp hslot
    cases slot with
    | status | errCode | errCmd | pflags => cases hwrite
    | cmd | errClr | mlen => simp [writable, haddr, PortSlot.address]
    | wide r k =>
      cases r with
      | cp | ca | cb | cq | cgx | cgy | hh | hn | hs => cases hwrite
      | gen i =>
        have hk : k < 16 := hmap
        have hi := i.isLt
        rw [PortSlot.address, wideIndex] at haddr
        exact ⟨by omega, .inr (.inl (by omega))⟩
    | msg k =>
      obtain ⟨halign, hlast⟩ := hmap
      rw [PortSlot.address] at haddr
      exact ⟨by omega, .inr (.inr (by omega))⟩

end

/-- The range of MSG_CAP (00_scope R8). -/
theorem Params.msgCap_of_wf {p : Params} (h : p.wf = true) : p.msgCap % 4 = 0 ∧ p.msgCap ≤ 0x8000 := by
  simp only [Params.wf, Bool.and_eq_true, beq_iff_eq, decide_eq_true_eq] at h
  obtain ⟨⟨⟨⟨-, halign⟩, -⟩, hmax⟩, -⟩ := h
  exact ⟨halign, hmax⟩

section
variable {s : State} {addr : HostAddr} {data : BusWord} {rest : List HostEvent}

theorem hostRead_of_readable (hcap : s.params.msgCap % 4 = 0) (h : readable s.params.msgCap addr) :
    ∃ v, hostRead s addr = .data v := by
  obtain ⟨slot, hslot, hread⟩ := (readable_iff_slot s hcap).mp h
  obtain ⟨v, hv⟩ := Option.isSome_iff_exists.mp hread
  exact ⟨v, by rw [hostRead_of_slot hslot, hv]; rfl⟩

theorem hostRead_of_not_readable (hcap : s.params.msgCap % 4 = 0) (h : ¬ readable s.params.msgCap addr) :
    hostRead s addr = .busError := by
  unfold hostRead
  split
  · next d hd =>
    obtain ⟨slot, hslot, hread⟩ := Option.bind_eq_some_iff.mp hd
    exact absurd ((readable_iff_slot s hcap).mpr ⟨slot, hslot, by rw [hread]; rfl⟩) h
  · rfl

theorem step_write_of_not_writable (hcap : s.params.msgCap % 4 = 0) (hsign : s.signing = none)
    (hpend : s.pending = .write addr data :: rest) (h : ¬ writable s.params.msgCap addr) :
    step s = .next { s with pending := rest, replies := .busError :: s.replies } := by
  rw [step_write hsign hpend]
  obtain hrefused | ⟨slot, r, hslot, heffect, -⟩ := hostWrite_cases { s with pending := rest } addr data
  · exact hrefused
  · exact absurd ((writable_iff_slot _ data hcap).mpr ⟨slot, hslot, by rw [heffect]; rfl⟩) h

/-! ## A write that is taken (20_memory R64) -/

/-- Its effect is a next state, answered in the same step unless a SIGN is left in progress. -/
theorem step_write_slot {slot : PortSlot} {r : Result} (hsign : s.signing = none)
    (hpend : s.pending = .write addr data :: rest) (hslot : slotOf s.params.msgCap addr = some slot)
    (hr : slotWrite { s with pending := rest } data slot = some r) :
    ∃ t, r = .next t ∧ t.replies = s.replies ∧
      (t.signing = none → step s = .next { t with replies := .ok :: s.replies }) ∧
      (t.signing ≠ none → step s = .next t) := by
  obtain ⟨t, rfl, -, hreplies⟩ := slotWrite_keeps hr
  have hstep := step_write_taken hsign hpend hslot hr
  refine ⟨t, rfl, hreplies, fun hended => ?_, fun hstuck => ?_⟩
  · rw [hstep, completeWrite_ended hended, State.answer, hreplies]
  · obtain ⟨g, hg⟩ := Option.ne_none_iff_exists'.mp hstuck
    rw [hstep, completeWrite_stuck hg]

/-- A write of MLEN, of a wide register or of the message memory is answered, whatever it stores. -/
theorem step_write_stored {slot : PortSlot} {t : State} (hsign : s.signing = none)
    (hpend : s.pending = .write addr data :: rest) (hslot : slotOf s.params.msgCap addr = some slot)
    (hr : slotWrite { s with pending := rest } data slot = some (.next t)) (hended : t.signing = none) :
    step s = .next (t.answer .ok) := by
  rw [step_write_taken hsign hpend hslot hr, completeWrite_ended hended]

end

theorem busMask_getLsbD (n : Nat) : (0xFFFFFFFF#512).getLsbD n = decide (n < 32) := by
  rw [show 0xFFFFFFFF#512 = BitVec.ofNat 512 (2 ^ 32 - 1) from rfl, BitVec.getLsbD_ofNat,
    Nat.testBit_two_pow_sub_one, ← Bool.decide_and, decide_eq_decide]
  omega

/-- Bus word `k` replaced, bit by bit: 32 bits of the data, the other 480 of the old value. -/
theorem setBusWord_getLsbD (v : Wide) {k n : Nat} (d : BusWord) (hk : k < 16) (hn : n < 512) :
    (setBusWord v k d).getLsbD n =
      if 480 - 32 * k ≤ n ∧ n < 512 - 32 * k then d.getLsbD (n - (480 - 32 * k)) else v.getLsbD n := by
  simp only [setBusWord, BitVec.getLsbD_or, BitVec.getLsbD_and, BitVec.getLsbD_not, BitVec.getLsbD_shiftLeft,
    BitVec.getLsbD_setWidth, busMask_getLsbD, hn, decide_true, Bool.true_and]
  split
  · next hin =>
    have hlow : ¬ n < 480 - 32 * k := by omega
    have hword : n - (480 - 32 * k) < 32 := by omega
    have hwide : n - (480 - 32 * k) < 512 := by omega
    simp [hlow, hword, hwide]
  · next hout =>
    by_cases hlow : n < 480 - 32 * k
    · simp [hlow]
    · have hword : 32 ≤ n - (480 - 32 * k) := by omega
      simp [hword]

/-- Settles O10: the address of each clause names its slot, and a read answers that slot's value. -/
theorem hostReadAnswersTheMappedValue : Obligations.HostReadAnswersTheMappedValue := by
  unfold Obligations.HostReadAnswersTheMappedValue
  intro s hparams
  obtain ⟨hcap, hmax⟩ := Params.msgCap_of_wf hparams
  refine ⟨fun addr rest hsign hpend => step_read hsign hpend,
    fun addr => hostRead_of_not_readable hcap, ?status, ?code, ?word, ?flags, ?mlen, fun r k hk => ?_,
    fun k halign hlast => ?_⟩
  case status => exact hostRead_of_slot slotOf_status
  case code => exact hostRead_of_slot slotOf_errCode
  case word => exact hostRead_of_slot slotOf_errCmd
  case flags => exact hostRead_of_slot (slotOf_pflags _)
  case mlen => exact hostRead_of_slot slotOf_mlen
  · exact hostRead_of_slot (slotOf_wide r hk)
  · exact hostRead_of_slot (slotOf_msg hmax halign hlast)

/-- Settles O11: the address of each clause names its slot, and a write has that slot's effect. -/
theorem hostWriteStoresTheWord : Obligations.HostWriteStoresTheWord := by
  unfold Obligations.HostWriteStoresTheWord
  intro s addr d rest hparams hmem hsign hpend
  obtain ⟨hcap, hmax⟩ := Params.msgCap_of_wf hparams
  refine ⟨step_write_of_not_writable hcap hsign hpend, ?cmd, ?errClr, ?mlen, ?wide, ?msg⟩
  case cmd =>
    rintro rfl
    obtain ⟨t, ht, -, hended, hstuck⟩ := step_write_slot hsign hpend (slotOf_cmd _) rfl
    exact ⟨t, ht, hended, hstuck⟩
  case errClr =>
    rintro rfl
    obtain ⟨hset, hunset⟩ := errclrClearsTheErrorState.1 s d rest hsign hpend
    split
    · next hbit => exact hset hbit
    · next hbit => exact hunset (Bool.eq_false_iff.mpr hbit)
  case mlen =>
    rintro rfl
    exact step_write_stored hsign hpend slotOf_mlen rfl hsign
  case wide =>
    rintro i k hk rfl
    obtain ⟨hvalue, hframe⟩ := WritesWide.setW { s with pending := rest, replies := .ok :: s.replies } i
      (setBusWord s.w[i] k d)
    refine ⟨_, step_write_stored hsign hpend (slotOf_wide (.gen i) hk) rfl hsign, fun n hn => ?_, hframe⟩
    exact (congrArg (·.getLsbD n) hvalue).trans (setBusWord_getLsbD _ d hk hn)
  case msg =>
    rintro k halign hlast rfl
    have hbyte := Memory.read_writeBus s.msg k d hmem
    have hslot := slotOf_msg hmax halign hlast
    refine ⟨s.msg.writeBus k d, step_write_stored hsign hpend hslot rfl hsign, ?_, ?_, ?_, ?_, fun a ha => ?_⟩
    · simp [hbyte]
    · simp [hbyte]
    · simp [hbyte]
    · simp [hbyte]
    · rw [hbyte, if_neg (by omega), if_neg (by omega), if_neg (by omega), if_neg (by omega)]

/-- Settles O12: an address is refused exactly where no slot takes the transaction, and a refusal is only
recorded. -/
theorem busErrorExactlyForRefusedAddresses : Obligations.BusErrorExactlyForRefusedAddresses := by
  unfold Obligations.BusErrorExactlyForRefusedAddresses
  intro s addr d rest hparams hsign
  obtain ⟨hcap, -⟩ := Params.msgCap_of_wf hparams
  refine ⟨fun hpend => ⟨fun h => ?_, fun h => ?_⟩, fun hpend => ⟨fun h => ?_,
    step_write_of_not_writable hcap hsign hpend⟩⟩
  · obtain ⟨v, hv⟩ := hostRead_of_readable hcap h
    exact ⟨v, by rw [step_read hsign hpend, hv]⟩
  · rw [step_read hsign hpend, hostRead_of_not_readable hcap h]
  · obtain ⟨slot, hslot, heffect⟩ := (writable_iff_slot { s with pending := rest } d hcap).mp h
    obtain ⟨r, hr⟩ := Option.isSome_iff_exists.mp heffect
    obtain ⟨t, -, hreplies, hended, hstuck⟩ := step_write_slot hsign hpend hslot hr
    by_cases hsigning : t.signing = none
    · exact ⟨_, hended hsigning, fun _ => rfl, fun hne => absurd hsigning hne⟩
    · exact ⟨t, hstuck hsigning, fun h => absurd h hsigning, fun _ => hreplies⟩

end Sys2Proof.Machine

/-!
PROOFS. The encoding's decode faults (30_encoding R97, R98): the decoder answers as the opcode map has it, first for
the unassigned opcodes, then for a word whose fields are not legal for its row.
-/

namespace Sys2Proof.Machine

open Sys2Proof.Laws

/-! ## A decode fault (60_exceptions R293) -/

theorem issue_records_illegalOp {c : Command} {s : State} (herr : s.err = false) (hdec : decode c = .illegalOp) :
    ∃ t, issue c s = .next t ∧ Records .illegalOp c t ∧ Frame { error := true } s t :=
  ⟨_, issue_illegalOp herr hdec, Records.raise s _ c, (Frame.refl _ s).raise _ c rfl⟩

theorem issue_records_illegalField {c : Command} {s : State} (herr : s.err = false)
    (hdec : decode c = .illegalField) :
    ∃ t, issue c s = .next t ∧ Records .illegalField c t ∧ Frame { error := true } s t :=
  ⟨_, issue_illegalField herr hdec, Records.raise s _ c, (Frame.refl _ s).raise _ c rfl⟩

/-! ## Unassigned opcodes (30_encoding R97) -/

/-- The decoder has no arm for an opcode without a row: every arm's opcode has one. -/
theorem decode_of_rowOf_eq_none {c : Command} (h : rowOf (bitsOf c 26 6) = none) : decode c = .illegalOp := by
  rw [bitsOf_op] at h
  unfold decode
  split
  case h_37 => rfl
  all_goals next hop => rw [hop] at h; cases h

/-- Settles O4: none of the listed opcodes has a row of the opcode map. -/
theorem unassignedOpcodeFaults : Obligations.UnassignedOpcodeFaults := by
  unfold Obligations.UnassignedOpcodeFaults
  intro c s herr hop
  have hnone : rowOf (bitsOf c 26 6) = none := (show ∀ n ∈ _, rowOf n = none by decide) _ hop
  exact issue_records_illegalOp herr (decode_of_rowOf_eq_none hnone)

/-! ## Illegal fields (30_encoding R98) -/

/-- What a field of the class names. -/
abbrev FieldClass.Operand : FieldClass → Type
  | .wd => WDst
  | .ws => WSrc
  | .j => JReg
  | .ad => ADst
  | .as => ASrc
  | .zero => Unit

/-- The decoder's reading of a field of the class. -/
abbrev FieldClass.read : (k : FieldClass) → BitVec 5 → Option k.Operand
  | .wd => wdOf
  | .ws => wsOf
  | .j => jOf
  | .ad => adOf
  | .as => asOf
  | .zero => unused

/-- The decoder reads a field only where it is legal for its class: what it reads has that field, and the field of
an operand is below the bound (30_encoding R92). -/
theorem FieldClass.lt_bound_of_read {k : FieldClass} {f : BitVec 5} {x : k.Operand} (h : k.read f = some x) :
    f.toNat < k.bound := by
  cases k with
  | wd => exact wdField_of_wdOf f x h ▸ wdField_lt x
  | ws => exact wsField_of_wsOf f x h ▸ wsField_lt x
  | j => exact jField_of_jOf f x h ▸ jField_lt x
  | ad => exact adField_of_adOf f x h ▸ adField_lt x
  | as => exact asField_of_asOf f x h ▸ asField_lt x
  | zero => exact eq_zero_of_unused f h ▸ Nat.zero_lt_one

section
variable {c : Command} {k1 k2 k3 k4 : FieldClass}

/-- A read before the rest of an arm: where it fails the word is refused, so only the rest is left to refuse it. -/
theorem legalFields_bind {α : Type} {r : Option α} {rest : α → Option Instr}
    (h : ∀ x, r = some x → legalFields (rest x) = .illegalField) : legalFields (r >>= rest) = .illegalField := by
  cases r with
  | none => rfl
  | some x => exact h x rfl

/-- An arm of format R refuses the word, if the rest of it refuses every word whose four register fields are
legal. -/
theorem legalFields_registers {rest : k1.Operand → k2.Operand → k3.Operand → k4.Operand → Option Instr}
    (h : ∀ x1 x2 x3 x4, k1.read c.f1 = some x1 → k2.read c.f2 = some x2 →
      bitsOf c 21 5 < k1.bound → bitsOf c 16 5 < k2.bound → bitsOf c 11 5 < k3.bound → bitsOf c 6 5 < k4.bound →
      legalFields (rest x1 x2 x3 x4) = .illegalField) :
    legalFields (do
      let x1 ← k1.read c.f1; let x2 ← k2.read c.f2; let x3 ← k3.read c.f3; let x4 ← k4.read c.f4
      rest x1 x2 x3 x4) = .illegalField := by
  refine legalFields_bind fun x1 h1 => legalFields_bind fun x2 h2 => legalFields_bind fun x3 h3 =>
    legalFields_bind fun x4 h4 => h x1 x2 x3 x4 h1 h2 ?_ ?_ ?_ ?_
  · rw [bitsOf_f1]; exact FieldClass.lt_bound_of_read h1
  · rw [bitsOf_f2]; exact FieldClass.lt_bound_of_read h2
  · rw [bitsOf_f3]; exact FieldClass.lt_bound_of_read h3
  · rw [bitsOf_f4]; exact FieldClass.lt_bound_of_read h4

/-- The arm of a row whose `imm6` is unused. -/
theorem legalFields_formatR (hill : ¬ OpRow.legal c (.formatR k1 k2 k3 k4 .zero))
    (i : k1.Operand → k2.Operand → k3.Operand → k4.Operand → Instr) :
    legalFields (do
      let x1 ← k1.read c.f1; let x2 ← k2.read c.f2; let x3 ← k3.read c.f3; let x4 ← k4.read c.f4
      unused c.imm6
      return i x1 x2 x3 x4) = .illegalField := by
  refine legalFields_registers fun x1 x2 x3 x4 _ _ hf1 hf2 hf3 hf4 => legalFields_bind fun _ himm => ?_
  refine absurd ⟨hf1, hf2, hf3, hf4, ?_⟩ hill
  rw [bitsOf_imm6, eq_zero_of_unused _ himm]
  rfl

/-- LIW's arm: format I has one register field (30_encoding R93). -/
theorem legalFields_liw (hill : ¬ OpRow.legal c (.formatI .wd)) :
    legalFields (do let x ← wdOf c.f1; return .liw x c.imm21) = .illegalField := by
  refine legalFields_bind fun x h => absurd ?_ hill
  exact (bitsOf_f1 c).trans_lt (FieldClass.lt_bound_of_read (k := .wd) h)

/-- KNXT's arm: with legal register fields it is the round number that the term's check refuses. -/
theorem legalFields_knxt (hill : ¬ OpRow.legal c (.formatR .wd .ws .zero .zero .round)) :
    legalFields (do
      let x ← wdOf c.f1; let y ← wsOf c.f2; unused c.f3; unused c.f4
      return .knxt x y c.imm6) = .illegalField := by
  refine legalFields_registers (k1 := .wd) (k2 := .ws) (k3 := .zero) (k4 := .zero)
    fun x y _ _ _ _ hf1 hf2 hf3 hf4 => ?_
  have hround : ¬ (1 ≤ c.imm6.toNat ∧ c.imm6.toNat ≤ 12) := fun h =>
    hill ⟨hf1, hf2, hf3, hf4, (bitsOf_imm6 c).symm ▸ h⟩
  exact if_neg (by simpa [Instr.wellFormed] using hround)

/-- HFIN's arm: every `imm6` is legal, so some register field is not. -/
theorem legalFields_hfin (hill : ¬ OpRow.legal c (.formatR .wd .ws .zero .zero .count)) :
    legalFields (do
      let x ← wdOf c.f1; let y ← wsOf c.f2; unused c.f3; unused c.f4
      return .hfin x y c.imm6) = .illegalField :=
  legalFields_registers (k1 := .wd) (k2 := .ws) (k3 := .zero) (k4 := .zero)
    fun _ _ _ _ _ _ hf1 hf2 hf3 hf4 => absurd ⟨hf1, hf2, hf3, hf4, trivial⟩ hill

/-- SIGN's arm: with legal fields the two results are one register, which the term's check refuses. -/
theorem legalFields_sign (hill : ¬ OpRow.legal c (.formatRDistinct .wd .wd .ws .zero .zero)) :
    legalFields (do
      let x ← wdOf c.f1; let y ← wdOf c.f2; let z ← wsOf c.f3; unused c.f4; unused c.imm6
      return .sign x y z) = .illegalField := by
  refine legalFields_registers (k1 := .wd) (k2 := .wd) (k3 := .ws) (k4 := .zero)
    fun x y z _ hx hy hf1 hf2 hf3 hf4 => legalFields_bind fun _ himm => ?_
  have hsame : x = y := by
    by_contra hne
    refine hill ⟨hf1, hf2, hf3, hf4, ?_, fun h => hne ?_⟩
    · exact (bitsOf_imm6 c).trans (congrArg _ (eq_zero_of_unused _ himm))
    · rw [bitsOf_f1, bitsOf_f2, ← wdField_of_wdOf _ _ hx, ← wdField_of_wdOf _ _ hy] at h
      exact wdField_inj _ _ h
  exact if_neg (by simp [Instr.wellFormed, hsame])

end

/-- A word whose fields are not legal for its row is refused: the arm of its opcode reads the fields by the classes
of the row. Four rows differ from the common one, in the format (LIW), in `imm6` (KNXT, HFIN) or in distinct results
(SIGN). -/
theorem decode_of_not_legal {c : Command} {row : OpRow} (hrow : rowOf (bitsOf c 26 6) = some row)
    (hill : ¬ row.legal c) : decode c = .illegalField := by
  rw [bitsOf_op] at hrow
  unfold rowOf at hrow
  split at hrow
  case h_37 => cases hrow
  all_goals
    rename_i hop
    obtain rfl := Option.some.inj hrow
    unfold decode
    rw [hop]
  case h_8 => exact legalFields_liw hill
  case h_27 => exact legalFields_knxt hill
  case h_32 => exact legalFields_hfin hill
  case h_35 => exact legalFields_sign hill
  all_goals
    have harm := legalFields_formatR hill
    exact harm _

/-- Settles O5: the decoder refuses the word, and the fault is recorded. -/
theorem illegalFieldFaults : Obligations.IllegalFieldFaults := by
  unfold Obligations.IllegalFieldFaults
  intro c s row herr hrow hill
  exact issue_records_illegalField herr (decode_of_not_legal hrow hill)

end Sys2Proof.Machine

/-!
PROOFS. The field unit (40_field): the modular functions give the residue of the exact integer, Euclid's algorithm
gives the inverse, and the commands write these values or fault.
-/

namespace Sys2Proof.Machine

open Sys2Proof.Laws

/-! ## The modular functions (40_field R120 to R124) -/

/-- A number and an integer with the same value in the ring of residues are congruent. -/
theorem intModEq_of_cast {r m : Nat} {x : Int} (h : (r : ZMod m) = (x : ZMod m)) : (r : Int) ≡ x [ZMOD m] :=
  (ZMod.intCast_eq_intCast_iff _ _ _).mp (by rwa [Int.cast_natCast])

/-- Settles O27: each result is below the modulus, and has the value of the exact integer in the ring of residues. -/
theorem fieldFunctionsGiveTheResidue : Obligations.FieldFunctionsGiveTheResidue := by
  unfold Obligations.FieldFunctionsGiveTheResidue
  intro a b m hm
  exact ⟨⟨addMod_lt a b m hm, intModEq_of_cast (by simp)⟩,
    ⟨subMod_lt a b m hm, intModEq_of_cast (by simp [subMod_cast a b m hm])⟩,
    ⟨mulMod_lt a b m hm, intModEq_of_cast (by simp)⟩,
    ⟨sqMod_lt a m hm, intModEq_of_cast (by simp)⟩,
    ⟨redMod_lt a m hm, intModEq_of_cast (by simp)⟩⟩

/-! ## Euclid's algorithm (40_field R125) -/

/-- What the loop keeps of a remainder `r` and its coefficient `t`: `t` is a residue, and `a` times it is `r` in
the ring of residues. -/
structure IsCoefficient (a m r t : Nat) : Prop where
  lt : t < m
  mul : (a : ZMod m) * t = r

/-- The coefficient the loop computes belongs to the next remainder, `r0 % r1 = r0 - r0 / r1 * r1`. -/
theorem IsCoefficient.next {a m r0 r1 t0 t1 : Nat} (h0 : IsCoefficient a m r0 t0) (h1 : IsCoefficient a m r1 t1) :
    IsCoefficient a m (r0 % r1) (subMod t0 (r0 / r1 * t1) m) := by
  have hm : 1 ≤ m := h0.lt.pos
  refine ⟨subMod_lt _ _ m hm, ?_⟩
  have hdiv : (r1 : ZMod m) * (r0 / r1 : Nat) + (r0 % r1 : Nat) = r0 := by
    exact_mod_cast congrArg (Nat.cast (R := ZMod m)) (Nat.div_add_mod r0 r1)
  calc (a : ZMod m) * subMod t0 (r0 / r1 * t1) m
      = a * t0 - a * t1 * (r0 / r1 : Nat) := by rw [subMod_cast _ _ m hm, Nat.cast_mul]; ring
    _ = r0 - r1 * (r0 / r1 : Nat) := by rw [h0.mul, h1.mul]
    _ = (r0 % r1 : Nat) := by rw [← hdiv]; ring

/-- With enough fuel the loop on coprime remainders ends at the remainder 1, whose coefficient is the inverse. -/
theorem invLoop_of_coprime {a m fuel r0 r1 t0 t1 : Nat} (hfuel : r1 < fuel) (h0 : IsCoefficient a m r0 t0)
    (h1 : IsCoefficient a m r1 t1) (hgcd : Nat.gcd r1 r0 = 1) :
    ∃ v, invLoop m fuel r0 r1 t0 t1 = some v ∧ IsCoefficient a m 1 v := by
  induction fuel generalizing r0 r1 t0 t1 with
  | zero => omega
  | succ fuel ih =>
    rw [invLoop]
    split
    · next hr1 =>
      obtain rfl : r0 = 1 := by rwa [hr1, Nat.gcd_zero_left] at hgcd
      exact ⟨t0, rfl, h0⟩
    · next hr1 =>
      have hlt : r0 % r1 < r1 := Nat.mod_lt _ (Nat.pos_of_ne_zero hr1)
      exact ih (by omega) h1 (h0.next h1) (by rwa [← Nat.gcd_rec])

/-- The loop answers nothing on remainders that are not coprime: the greatest common divisor stays the same. -/
theorem invLoop_of_not_coprime {m fuel r0 r1 t0 t1 : Nat} (hgcd : Nat.gcd r1 r0 ≠ 1) :
    invLoop m fuel r0 r1 t0 t1 = none := by
  induction fuel generalizing r0 r1 t0 t1 with
  | zero => rfl
  | succ fuel ih =>
    rw [invLoop]
    split
    · next hr1 => exact if_neg (by rwa [hr1, Nat.gcd_zero_left] at hgcd)
    · exact ih (by rwa [← Nat.gcd_rec])

/-- The loop starts with the coefficients 0 of `m` and 1 of `a % m`. -/
theorem invMod_of_coprime {a m : Nat} (hm : 1 ≤ m) (hgcd : Nat.gcd (a % m) m = 1) :
    ∃ v, invMod a m = some v ∧ v < m ∧ a * v % m = 1 % m := by
  have h0 : IsCoefficient a m m 0 := ⟨hm, by simp⟩
  have h1 : IsCoefficient a m (a % m) (1 % m) := ⟨Nat.mod_lt _ hm, by simp⟩
  obtain ⟨v, hv, hlt, hmul⟩ := invLoop_of_coprime (Nat.mod_lt a hm) h0 h1 hgcd
  exact ⟨v, hv, hlt, (ZMod.natCast_eq_natCast_iff' _ _ _).mp (by rwa [Nat.cast_mul])⟩

theorem invMod_of_not_coprime {a m : Nat} (hgcd : Nat.gcd (a % m) m ≠ 1) : invMod a m = none :=
  invLoop_of_not_coprime hgcd

/-- Two residues that are inverse to `a` are equal: `u = u * (a * v) = (a * u) * v = v`. -/
theorem eq_of_mul_mod_eq_one {a m u v : Nat} (hu : u < m) (hv : v < m) (hau : a * u % m = 1 % m)
    (hav : a * v % m = 1 % m) : u = v := by
  refine Nat.ModEq.eq_of_lt_of_lt ?_ hu hv
  calc u = u * 1 := (mul_one u).symm
    _ ≡ u * (a * v) [MOD m] := .mul_left u (Nat.ModEq.symm hav)
    _ = a * u * v := by ring
    _ ≡ 1 * v [MOD m] := .mul_right v hau
    _ = v := one_mul v

/-- Settles O28: Euclid's algorithm finds the inverse, and there is only one. -/
theorem inverseFunctionGivesTheInverse : Obligations.InverseFunctionGivesTheInverse := by
  unfold Obligations.InverseFunctionGivesTheInverse
  intro a m hm
  refine ⟨fun hgcd => ?_, invMod_of_not_coprime⟩
  obtain ⟨v, hinv, hlt, hmul⟩ := invMod_of_coprime hm hgcd
  exact ⟨v, hinv, hlt, hmul, fun u hu hau => eq_of_mul_mod_eq_one hu hlt hau hmul⟩

/-! ## The words of the field commands (30_encoding R98) -/

/-- A word of a row that does not use `f3` is refused where `f3` is not zero. -/
theorem decode_formatR_of_f3_ne_zero {op : BitVec 6} {f1 f2 f3 f4 : BitVec 5} {imm : BitVec 6}
    {k1 k2 k4 : FieldClass} {ki : ImmClass} (hrow : rowOf op.toNat = some (.formatR k1 k2 .zero k4 ki))
    (hf3 : f3 ≠ 0) : decode (formatR op f1 f2 f3 f4 imm) = .illegalField := by
  refine decode_of_not_legal (row := .formatR k1 k2 .zero k4 ki) (by rwa [bitsOf_op, formatR_op]) ?_
  rintro ⟨-, -, hlegal, -, -⟩
  rw [bitsOf_f3, formatR_f3] at hlegal
  exact hf3 ((toNat_eq_zero f3).mp (Nat.lt_one_iff.mp hlegal))

/-- A LIW word is refused where `f1` names no general register. -/
theorem decode_liw_of_f1_ge {f1 : BitVec 5} {imm : BitVec 21} (hf1 : 16 ≤ f1.toNat) :
    decode (formatI 0x08 f1 imm) = .illegalField := by
  refine decode_of_not_legal (row := .formatI .wd) (by rw [bitsOf_op, formatI_op]; rfl) fun hlegal => ?_
  rw [OpRow.legal, bitsOf_f1, formatI_f1] at hlegal
  exact absurd hlegal (Nat.not_lt.mpr hf1)

/-! ## The commands with a modulus (40_field R128, R130) -/

section
variable {i : Instr} {wd : WDst} {wm : WSrc} {s : State}

theorem withModulus_traps {k : Nat → Result} (h : s.wide wm = 0) :
    ∃ t, withModulus i wm s k = .next t ∧ Traps i .modulusZero s t :=
  ⟨_, withModulus_zero k h, Traps.raise i _ s⟩

theorem withModulus_writesWide {f : Nat → Wide} (h : s.wide wm ≠ 0) :
    ∃ t, withModulus i wm s (fun m => .next (s.setW wd (f m))) = .next t ∧
      WritesWide wd (f (s.wide wm).toNat) s t :=
  ⟨_, withModulus_pos _ h, WritesWide.setW s wd _⟩

end

/-- Settles O29: the five commands are the modulus check and one write of the function's value. -/
theorem fieldCommandsWriteTheResidue : Obligations.FieldCommandsWriteTheResidue := by
  unfold Obligations.FieldCommandsWriteTheResidue
  intro wd wa wb wm s
  simp only [exec, execAddm, execSubm, execMulm, execSqrm, execRedm]
  refine ⟨rfl, rfl, rfl, rfl, rfl, fun f3 hf3 => ?_, fun hm => ?_, fun hm => ?_⟩
  · exact ⟨decode_formatR_of_f3_ne_zero rfl hf3, decode_formatR_of_f3_ne_zero rfl hf3⟩
  · exact ⟨withModulus_writesWide hm, withModulus_writesWide hm, withModulus_writesWide hm,
      withModulus_writesWide hm, withModulus_writesWide hm⟩
  · exact ⟨withModulus_traps hm, withModulus_traps hm, withModulus_traps hm, withModulus_traps hm,
      withModulus_traps hm⟩

section
variable {wd : WDst} {wa wm : WSrc} {s : State}

/-- INVM with an operand that has no inverse (40_field R136). -/
theorem execInvm_of_invMod_none (hm : s.wide wm ≠ 0) (h : invMod (s.wide wa).toNat (s.wide wm).toNat = none) :
    execInvm wd wa wm s = .next (s.raise .notInvertible (encode (.invm wd wa wm))) := by
  rw [execInvm, withModulus_pos _ hm, h]
  rfl

/-- INVM with an operand whose inverse is `v` (40_field R136). -/
theorem execInvm_of_invMod_some {v : Nat} (hm : s.wide wm ≠ 0)
    (h : invMod (s.wide wa).toNat (s.wide wm).toNat = some v) :
    execInvm wd wa wm s = .next (s.setW wd (BitVec.ofNat 512 v)) := by
  rw [execInvm, withModulus_pos _ hm, h]

end

/-- Settles O30: INVM does what the inverse function answers. -/
theorem invmWritesTheInverse : Obligations.InvmWritesTheInverse := by
  unfold Obligations.InvmWritesTheInverse
  intro wd wa wm s
  rw [exec]
  refine ⟨rfl, fun f3 hf3 => decode_formatR_of_f3_ne_zero rfl hf3, fun hm => withModulus_traps hm,
    fun hm hgcd => ?_, fun hm hgcd => ?_⟩
  · exact ⟨_, execInvm_of_invMod_none hm (invMod_of_not_coprime hgcd), Traps.raise _ _ s⟩
  · have hpos : 1 ≤ (s.wide wm).toNat := Nat.pos_of_ne_zero fun h => hm ((toNat_eq_zero _).mp h)
    obtain ⟨v, hinv, hlt, hmul⟩ := invMod_of_coprime hpos hgcd
    exact ⟨_, v, execInvm_of_invMod_some hm hinv, hlt, hmul, WritesWide.setW s wd _⟩

/-! ## The move commands (40_field R137, R138) -/

/-- Settles O31: each of the two is one write; LIW's value is the immediate zero-extended. -/
theorem moveCommandsCopyTheValue : Obligations.MoveCommandsCopyTheValue := by
  unfold Obligations.MoveCommandsCopyTheValue
  intro wd wa imm s
  refine ⟨rfl, rfl, fun f1 hf1 => decode_liw_of_f1_ge hf1, ⟨_, rfl, WritesWide.setW s wd _⟩, ?_⟩
  rw [BitVec.ofNat_toNat]
  exact ⟨_, rfl, WritesWide.setW s wd _⟩

end Sys2Proof.Machine

/-!
PROOFS. The point engine (41_point): each point function as one formula over the integers, reduced once; the
commands that write its record; and, over a prime modulus, the group law of the curve.
-/

namespace Sys2Proof.Machine

open WeierstrassCurve.Affine (Point)

/-! ## Writing a record (41_point section 2) -/

section
variable {i : Instr} {ap : ASrc} {s : State}

theorem withPoint_traps {k : Wide → Wide → Result} (h : (s.aff ap).absent = true) :
    ∃ t, withPoint i ap s k = .next t ∧ Traps i .absent s t :=
  ⟨_, withPoint_absent k h, Traps.raise i _ s⟩

theorem withPoint_writesJac {jd : JReg} {f : Wide → Wide → Jacobian} {r : Jacobian}
    (h : (s.aff ap).absent = false) (hr : f (s.aff ap).X (s.aff ap).Y = r) :
    ∃ t, withPoint i ap s (fun x y => .next (s.setJ jd (f x y))) = .next t ∧ WritesJac jd r s t :=
  ⟨_, withPoint_present _ h, hr ▸ WritesJac.setJ s jd _⟩

theorem withPoint_writesWide {wd : WDst} {f : Wide → Wide → Wide} (h : (s.aff ap).absent = false) :
    ∃ t, withPoint i ap s (fun x y => .next (s.setW wd (f x y))) = .next t ∧
      WritesWide wd (f (s.aff ap).X (s.aff ap).Y) s t :=
  ⟨_, withPoint_present _ h, WritesWide.setW s wd _⟩

theorem pdbl_writes {jd ja : JReg} {r : Jacobian} (hr : double s.params.curve s.j[ja] = r) :
    ∃ t, exec (.pdbl jd ja) s = .next t ∧ WritesJac jd r s t :=
  ⟨_, rfl, hr ▸ WritesJac.setJ s jd _⟩

theorem pmadd_traps {jd ja : JReg} (h : (s.aff ap).absent = true) :
    ∃ t, exec (.pmadd jd ja ap) s = .next t ∧ Traps (.pmadd jd ja ap) .absent s t := by
  rw [exec, execPmadd]
  exact withPoint_traps h

theorem pmadd_writes {jd ja : JReg} {r : Jacobian} (h : (s.aff ap).absent = false)
    (hr : mixedAdd s.params.curve s.j[ja] (s.aff ap).X (s.aff ap).Y = r) :
    ∃ t, exec (.pmadd jd ja ap) s = .next t ∧ WritesJac jd r s t :=
  withPoint_writesJac (f := mixedAdd s.params.curve s.j[ja]) h hr

theorem pjadd_writes {jd ja jb : JReg} {r : Jacobian} (hr : jacobiAdd s.params.curve s.j[ja] s.j[jb] = r) :
    ∃ t, exec (.pjadd jd ja jb) s = .next t ∧ WritesJac jd r s t :=
  ⟨_, rfl, hr ▸ WritesJac.setJ s jd _⟩

end

/-- Settles O34: each move is one register write; PLIFT, AGETX and AGETY check their operand first. -/
theorem pointMoveCommandsCopyTheFields : Obligations.PointMoveCommandsCopyTheFields := by
  unfold Obligations.PointMoveCommandsCopyTheFields
  intro wd jd ja ad aa wx wy wz s
  simp only [exec, execPlift, execJset, execJinf, execJgetx, execJgety, execJgetz, execAset, execAabs, execAgetx,
    execAgety]
  exact ⟨⟨rfl, fun h => withPoint_writesJac h rfl, withPoint_traps⟩,
    ⟨rfl, _, rfl, WritesJac.setJ s jd _⟩, ⟨rfl, _, rfl, WritesJac.setJ s jd _⟩,
    ⟨rfl, _, rfl, WritesWide.setW s wd _⟩, ⟨rfl, _, rfl, WritesWide.setW s wd _⟩,
    ⟨rfl, _, rfl, WritesWide.setW s wd _⟩,
    ⟨rfl, _, rfl, WritesAff.setA s ad _⟩, ⟨rfl, _, rfl, WritesAff.setA s ad _⟩,
    ⟨rfl, fun h => withPoint_writesWide (f := fun x _ => x) h, withPoint_traps⟩,
    ⟨rfl, fun h => withPoint_writesWide (f := fun _ y => y) h, withPoint_traps⟩⟩

/-- Settles O39: the operand check, then one register write. -/
theorem psmulWritesTheMultiple : Obligations.PsmulWritesTheMultiple := by
  unfold Obligations.PsmulWritesTheMultiple
  intro jd wk ab s
  simp only [exec, execPsmul]
  exact ⟨rfl, withPoint_traps, fun h => withPoint_writesJac h rfl⟩

/-! ## The formulas over the integers (41_point R171, R173, R175) -/

theorem Params.two_le_modulus_of_wf {p : Params} (h : p.wf = true) : 2 ≤ p.curve.P.toNat := by
  simp only [Params.wf, Bool.and_eq_true, decide_eq_true_eq] at h
  obtain ⟨⟨⟨⟨⟨hmodulus, -⟩, -⟩, -⟩, -⟩, -⟩ := h
  exact hmodulus

theorem Params.one_le_modulus_of_wf {p : Params} (h : p.wf = true) : 1 ≤ p.curve.P.toNat :=
  one_le_two.trans (Params.two_le_modulus_of_wf h)

/-- A residue is zero exactly where the modulus divides the integers it stands for. -/
theorem eq_zero_iff_dvd_of_cast {r m : Nat} {x : Int} (hr : r < m) (h : (r : ZMod m) = (x : ZMod m)) :
    r = 0 ↔ (m : Int) ∣ x := by
  rw [Int.dvd_iff_emod_eq_zero, ← eq_emod_of_cast r x m hr h, Int.natCast_eq_zero]

section
variable {c : Curve}

theorem ofNat_eq_residue {r : Nat} {x : Int} (hr : r < c.P.toNat) (h : (r : ZMod c.P.toNat) = x) :
    BitVec.ofNat 512 r = residue c x := by
  rw [residue, ← eq_emod_of_cast r x _ hr h, Int.toNat_natCast]

theorem ofNats_eq_residues {x y z : Nat} {X Y Z : Int} (hx : x < c.P.toNat) (hy : y < c.P.toNat)
    (hz : z < c.P.toNat) (hX : (x : ZMod c.P.toNat) = X) (hY : (y : ZMod c.P.toNat) = Y)
    (hZ : (z : ZMod c.P.toNat) = Z) : Jacobian.ofNats x y z = residues c X Y Z := by
  rw [Jacobian.ofNats, residues, ofNat_eq_residue hx hX, ofNat_eq_residue hy hY, ofNat_eq_residue hz hZ]

theorem double_eq_ident {J : Jacobian} (h : J.inf = true ∨ J.Y.toNat % c.P.toNat = 0) :
    double c J = Jacobian.ident :=
  if_pos h

theorem double_eq_residues {J : Jacobian} {S M : Int} (hP : 1 ≤ c.P.toNat) (hinf : J.inf = false)
    (hY : J.Y.toNat % c.P.toNat ≠ 0) (hS : S = 4 * J.X.toNat * J.Y.toNat ^ 2)
    (hM : M = 3 * J.X.toNat ^ 2 + c.A.toNat * J.Z.toNat ^ 4) :
    double c J = residues c (M ^ 2 - 2 * S) (M * (S - (M ^ 2 - 2 * S)) - 8 * J.Y.toNat ^ 4)
      (2 * J.Y.toNat * J.Z.toNat) := by
  have hcase : ¬ (J.inf = true ∨ J.Y.toNat % c.P.toNat = 0) := by simp [hinf, hY]
  subst hS hM
  rw [double, if_neg hcase]
  refine ofNats_eq_residues (subMod_lt _ _ _ hP) (subMod_lt _ _ _ hP) (mulMod_lt _ _ _ hP) ?_ ?_ ?_ <;>
    · simp only [subMod_cast _ _ _ hP, addMod_cast, mulMod_cast, sqMod_cast]
      push_cast
      ring

theorem chordSum_eq_sumRecord {u1 s1 h r z : Nat} {U S H R W : Int} (hP : 1 ≤ c.P.toNat)
    (hu : (u1 : ZMod c.P.toNat) = U) (hs : (s1 : ZMod c.P.toNat) = S) (hh : (h : ZMod c.P.toNat) = H)
    (hr : (r : ZMod c.P.toNat) = R) (hz : (h * z : ZMod c.P.toNat) = W) :
    chordSum c.P.toNat u1 s1 h r z = sumRecord c U S H R W := by
  rw [chordSum, sumRecord]
  refine ofNats_eq_residues (subMod_lt _ _ _ hP) (subMod_lt _ _ _ hP) (mulMod_lt _ _ _ hP) ?_ ?_ ?_
  case refine_3 => rw [mulMod_cast, hz]
  all_goals
    simp only [subMod_cast _ _ _ hP, mulMod_cast, sqMod_cast, hu, hs, hh, hr]
    push_cast
    ring

/-- The sum of two points other than the identity, from the first one's record `J` and scaled coordinates `u1`,
`s1`, the differences `h`, `r` and the third coordinate `z`: the three cases of 41_point R173 and R175. -/
def finiteSum (c : Curve) (J : Jacobian) (u1 s1 h r z : Int) : Jacobian :=
  if (c.P.toNat : Int) ∣ h then if (c.P.toNat : Int) ∣ r then double c J else Jacobian.ident
  else sumRecord c u1 s1 h r z

section
variable {J : Jacobian} {u1 s1 h r z : Int}

theorem finiteSum_same (hh : (c.P.toNat : Int) ∣ h) (hr : (c.P.toNat : Int) ∣ r) :
    finiteSum c J u1 s1 h r z = double c J := by
  rw [finiteSum, if_pos hh, if_pos hr]

theorem finiteSum_opposite (hh : (c.P.toNat : Int) ∣ h) (hr : ¬ (c.P.toNat : Int) ∣ r) :
    finiteSum c J u1 s1 h r z = Jacobian.ident := by
  rw [finiteSum, if_pos hh, if_neg hr]

theorem finiteSum_distinct (hh : ¬ (c.P.toNat : Int) ∣ h) :
    finiteSum c J u1 s1 h r z = sumRecord c u1 s1 h r z :=
  if_neg hh

end

/-- The residues the adders compute decide between the same three cases. -/
theorem addition_eq_finiteSum {J : Jacobian} {u1 s1 h r z : Nat} {U S H R W : Int} (hP : 1 ≤ c.P.toNat)
    (hhlt : h < c.P.toNat) (hrlt : r < c.P.toNat) (hu : (u1 : ZMod c.P.toNat) = U)
    (hs : (s1 : ZMod c.P.toNat) = S) (hh : (h : ZMod c.P.toNat) = H) (hr : (r : ZMod c.P.toNat) = R)
    (hz : (h * z : ZMod c.P.toNat) = W) :
    (if h = 0 then if r = 0 then double c J else Jacobian.ident else chordSum c.P.toNat u1 s1 h r z) =
      finiteSum c J U S H R W := by
  simp only [finiteSum, eq_zero_iff_dvd_of_cast hhlt hh, eq_zero_iff_dvd_of_cast hrlt hr,
    chordSum_eq_sumRecord hP hu hs hh hr hz]

theorem mixedAdd_of_inf {J : Jacobian} {x2 y2 : Wide} (h : J.inf = true) : mixedAdd c J x2 y2 = lift x2 y2 :=
  if_pos h

theorem mixedAdd_eq_finiteSum {J : Jacobian} {x2 y2 : Wide} {H R : Int} (hP : 1 ≤ c.P.toNat)
    (hinf : J.inf = false) (hH : H = x2.toNat * J.Z.toNat ^ 2 - J.X.toNat)
    (hR : R = y2.toNat * J.Z.toNat ^ 3 - J.Y.toNat) :
    mixedAdd c J x2 y2 = finiteSum c J J.X.toNat J.Y.toNat H R (J.Z.toNat * H) := by
  rw [mixedAdd, if_neg (by simp [hinf])]
  subst hH hR
  refine addition_eq_finiteSum hP (subMod_lt _ _ _ hP) (subMod_lt _ _ _ hP) (Int.cast_natCast _).symm
    (Int.cast_natCast _).symm ?_ ?_ ?_ <;>
    · simp only [subMod_cast _ _ _ hP, mulMod_cast, sqMod_cast]
      push_cast
      ring

theorem jacobiAdd_of_inf_left {J1 J2 : Jacobian} (h : J1.inf = true) : jacobiAdd c J1 J2 = J2 := if_pos h

theorem jacobiAdd_of_inf_right {J1 J2 : Jacobian} (h1 : J1.inf = false) (h2 : J2.inf = true) :
    jacobiAdd c J1 J2 = J1 := by
  rw [jacobiAdd, if_neg (by simp [h1]), if_pos h2]

theorem jacobiAdd_eq_finiteSum {J1 J2 : Jacobian} {H R : Int} (hP : 1 ≤ c.P.toNat) (h1 : J1.inf = false)
    (h2 : J2.inf = false) (hH : H = J2.X.toNat * J1.Z.toNat ^ 2 - J1.X.toNat * J2.Z.toNat ^ 2)
    (hR : R = J2.Y.toNat * J1.Z.toNat ^ 3 - J1.Y.toNat * J2.Z.toNat ^ 3) :
    jacobiAdd c J1 J2 = finiteSum c J1 (J1.X.toNat * J2.Z.toNat ^ 2) (J1.Y.toNat * J2.Z.toNat ^ 3) H R
      (H * J1.Z.toNat * J2.Z.toNat) := by
  rw [jacobiAdd, if_neg (by simp [h1]), if_neg (by simp [h2])]
  subst hH hR
  refine addition_eq_finiteSum hP (subMod_lt _ _ _ hP) (subMod_lt _ _ _ hP) ?_ ?_ ?_ ?_ ?_ <;>
    · simp only [subMod_cast _ _ _ hP, mulMod_cast, sqMod_cast]
      push_cast
      ring

end

/-- Settles O35: PDBL writes what the doubling function's two cases answer. -/
theorem doublerFollowsTheFormulas : Obligations.DoublerFollowsTheFormulas := by
  unfold Obligations.DoublerFollowsTheFormulas
  intro jd ja s hwf
  have hP : 1 ≤ s.params.curve.P.toNat := Params.one_le_modulus_of_wf hwf
  refine ⟨rfl, fun h => pdbl_writes (double_eq_ident h), ?_⟩
  rintro hinf hY _ _ _ _ S M rfl rfl rfl rfl hS hM
  exact pdbl_writes (double_eq_residues hP hinf hY hS hM)

/-- Settles O36: the operand check, then one of the three cases of two points other than the identity. -/
theorem mixedAdderFollowsTheFormulas : Obligations.MixedAdderFollowsTheFormulas := by
  unfold Obligations.MixedAdderFollowsTheFormulas
  intro jd ja ab s hwf
  have hP : 1 ≤ s.params.curve.P.toNat := Params.one_le_modulus_of_wf hwf
  refine ⟨rfl, pmadd_traps, fun h hinf => pmadd_writes h (mixedAdd_of_inf hinf), ?_⟩
  rintro h hinf _ _ _ _ _ H R rfl rfl rfl rfl rfl hH hR
  have hsum := mixedAdd_eq_finiteSum hP hinf hH hR
  exact ⟨fun hh hr => pmadd_writes h (hsum.trans (finiteSum_same hh hr)),
    fun hh hr => pmadd_writes h (hsum.trans (finiteSum_opposite hh hr)),
    fun hh => pmadd_writes h (hsum.trans (finiteSum_distinct hh))⟩

/-- Settles O37: as O36; an identity flag marks the canonical identity by the invariant. -/
theorem generalAdderFollowsTheFormulas : Obligations.GeneralAdderFollowsTheFormulas := by
  unfold Obligations.GeneralAdderFollowsTheFormulas
  intro jd ja jb s hwf
  have hP : 1 ≤ s.params.curve.P.toNat := Params.one_le_modulus_of_wf hwf
  refine ⟨rfl, fun h1 => pjadd_writes (jacobiAdd_of_inf_left h1),
    fun hinv h1 h2 => pjadd_writes ((jacobiAdd_of_inf_left h1).trans (hinv.identity jb h2)),
    fun h1 h2 => pjadd_writes (jacobiAdd_of_inf_right h1 h2), ?_⟩
  rintro h1 h2 _ _ _ _ _ _ H R rfl rfl rfl rfl rfl rfl hH hR
  have hsum := jacobiAdd_eq_finiteSum hP h1 h2 hH hR
  exact ⟨fun hh hr => pjadd_writes (hsum.trans (finiteSum_same hh hr)),
    fun hh hr => pjadd_writes (hsum.trans (finiteSum_opposite hh hr)),
    fun hh => pjadd_writes (hsum.trans (finiteSum_distinct hh))⟩

/-! ## The affine form (41_point R176) -/

section
variable {c : Curve} {J : Jacobian}

theorem toAffine_eq_none (h : J.inf = true ∨ Nat.gcd (J.Z.toNat % c.P.toNat) c.P.toNat ≠ 1) :
    toAffine c J = none := by
  obtain hnone | ⟨zi, hinf, -, hinv, -⟩ := toAffine_cases c J
  · exact hnone
  · have hgcd : Nat.gcd (J.Z.toNat % c.P.toNat) c.P.toNat ≠ 1 := by simpa [hinf] using h
    rw [invMod_of_not_coprime hgcd] at hinv
    exact absurd hinv (Option.some_ne_none zi).symm

/-- A third coordinate with an inverse `zi` gives the coordinates `X·zi²` and `Y·zi³`. -/
theorem toAffine_of_coprime (hP : 2 ≤ c.P.toNat) (hinf : J.inf = false)
    (hgcd : Nat.gcd (J.Z.toNat % c.P.toNat) c.P.toNat = 1) :
    ∃ zi, zi < c.P.toNat ∧ J.Z.toNat * zi % c.P.toNat = 1 ∧ toAffine c J =
      some (BitVec.ofNat 512 (J.X.toNat * zi ^ 2 % c.P.toNat),
        BitVec.ofNat 512 (J.Y.toNat * zi ^ 3 % c.P.toNat)) := by
  obtain ⟨zi, hinv, hlt, hmul⟩ := invMod_of_coprime (Nat.le_of_succ_le hP) hgcd
  have hZ : ¬ (J.inf = true ∨ J.Z.toNat % c.P.toNat = 0) := by
    rintro (h | h)
    · simp [hinf] at h
    · rw [h, Nat.gcd_zero_left] at hgcd
      omega
  refine ⟨zi, hlt, by rwa [Nat.mod_eq_of_lt hP] at hmul, ?_⟩
  simp only [toAffine, hZ, if_false, hinv, sqMod, mulMod, Nat.mul_mod_mod, Nat.mod_mul_mod, pow_succ, pow_zero,
    one_mul]

end

/-- Settles O38: PAFF writes what the conversion's two cases answer. -/
theorem affineConverterRecoversTheCoordinates : Obligations.AffineConverterRecoversTheCoordinates := by
  unfold Obligations.AffineConverterRecoversTheCoordinates
  intro ad ja s hwf
  simp only [exec, execPaff, State.jac]
  refine ⟨rfl, fun h => ?_, fun hinf hgcd => ?_⟩
  · rw [toAffine_eq_none h]
    exact ⟨_, rfl, WritesAff.setA s ad _⟩
  · obtain ⟨zi, hlt, hmul, haff⟩ := toAffine_of_coprime (Params.two_le_modulus_of_wf hwf) hinf hgcd
    rw [haff]
    exact ⟨_, zi, rfl, hlt, hmul, WritesAff.setA s ad _⟩

/-! ## The points a record represents (10_state R26, R27) -/

section
variable {c : Curve} {J : Jacobian}

theorem represents_zero_iff : Represents c J .zero ↔ J.inf = true := by
  simp [Represents]

theorem represents_some_iff {x y : ZMod c.P.toNat} {h : (weierstrass c).toAffine.Nonsingular x y} :
    Represents c J (.some x y h) ↔ J.inf = false ∧ (J.Z.toNat : ZMod c.P.toNat) ≠ 0 ∧
      x * (J.Z.toNat : ZMod c.P.toNat) ^ 2 = J.X.toNat ∧ y * (J.Z.toNat : ZMod c.P.toNat) ^ 3 = J.Y.toNat := by
  constructor
  · rintro (⟨-, hzero⟩ | ⟨hinf, _, _, _, hp, hrest⟩)
    · exact absurd hzero (Point.some_ne_zero h)
    · obtain ⟨rfl, rfl⟩ := Point.some.inj hp
      exact ⟨hinf, hrest⟩
  · rintro ⟨hinf, hrest⟩
    exact .inr ⟨hinf, x, y, h, rfl, hrest⟩

theorem represents_ident : Represents c Jacobian.ident 0 :=
  represents_zero_iff.mpr rfl

theorem toAffine_of_represents_zero (hJ : Represents c J .zero) : toAffine c J = none :=
  toAffine_eq_none (.inl (represents_zero_iff.mp hJ))

theorem residue_cast (hP : 1 ≤ c.P.toNat) (x : Int) : ((residue c x).toNat : ZMod c.P.toNat) = x := by
  have hnonneg : 0 ≤ x % (c.P.toNat : Int) := Int.emod_nonneg _ (by omega)
  have hlt : (x % (c.P.toNat : Int)).toNat < c.P.toNat := by
    have := Int.emod_lt_of_pos x (show 0 < (c.P.toNat : Int) by omega)
    omega
  rw [residue, toNat_ofNat_residue c _ hlt, ← Int.cast_natCast, Int.toNat_of_nonneg hnonneg, ZMod.intCast_mod]

theorem represents_residues {x y : ZMod c.P.toNat} {h : (weierstrass c).toAffine.Nonsingular x y} {X Y Z : Int}
    (hP : 1 ≤ c.P.toNat) (hZ : (Z : ZMod c.P.toNat) ≠ 0) (hX : x * (Z : ZMod c.P.toNat) ^ 2 = X)
    (hY : y * (Z : ZMod c.P.toNat) ^ 3 = Y) : Represents c (residues c X Y Z) (.some x y h) := by
  simp only [represents_some_iff, residues, residue_cast hP]
  exact ⟨trivial, hZ, hX, hY⟩

end

/-! ## The group law of the curve (41_point R174) -/

section
variable {c : Curve} [Fact c.P.toNat.Prime]

theorem weierstrass_addX (x1 x2 l : ZMod c.P.toNat) :
    (weierstrass c).toAffine.addX x1 x2 l = l ^ 2 - x1 - x2 := by
  simp [weierstrass]

theorem weierstrass_addY (x1 x2 y1 l : ZMod c.P.toNat) :
    (weierstrass c).toAffine.addY x1 x2 y1 l = l * (x1 - (l ^ 2 - x1 - x2)) - y1 := by
  rw [WeierstrassCurve.Affine.addY, weierstrass_negY, WeierstrassCurve.Affine.negAddY, weierstrass_addX]
  ring

/-- The slope of the tangent. -/
theorem weierstrass_slope_self {x y : ZMod c.P.toNat} (hy : y ≠ -y) :
    (weierstrass c).toAffine.slope x x y y = (3 * x ^ 2 + c.A.toNat) / (2 * y) := by
  rw [WeierstrassCurve.Affine.slope_of_Y_ne rfl (by rwa [weierstrass_negY]), weierstrass_negY]
  simp [weierstrass, two_mul]

theorem one_le_modulus : 1 ≤ c.P.toNat := (Fact.out : c.P.toNat.Prime).one_le

/-- The line through two points (their tangent, if they are one point) meets the curve in the negative of their sum:
a record whose third coordinate `Z` clears the slope's denominator represents the sum. -/
theorem represents_add_of_slope {x1 y1 x2 y2 r : ZMod c.P.toNat}
    {h1 : (weierstrass c).toAffine.Nonsingular x1 y1} {h2 : (weierstrass c).toAffine.Nonsingular x2 y2}
    {X Y Z : Int} (hne : ¬ (x1 = x2 ∧ y1 = (weierstrass c).toAffine.negY x2 y2))
    (hZ : (Z : ZMod c.P.toNat) ≠ 0) (hr : (weierstrass c).toAffine.slope x1 x2 y1 y2 * Z = r)
    (hX : (X : ZMod c.P.toNat) = r ^ 2 - (x1 + x2) * (Z : ZMod c.P.toNat) ^ 2)
    (hY : (Y : ZMod c.P.toNat) = r * (x1 * (Z : ZMod c.P.toNat) ^ 2 - X) - y1 * (Z : ZMod c.P.toNat) ^ 3) :
    Represents c (residues c X Y Z) (.some x1 y1 h1 + .some x2 y2 h2) := by
  rw [Point.add_some hne]
  refine represents_residues one_le_modulus hZ ?_ ?_
  · rw [weierstrass_addX, hX, ← hr]
    ring
  · rw [weierstrass_addY, hY, hX, ← hr]
    ring

theorem two_ne_zero_of_lt_modulus (hP : 2 < c.P.toNat) : (2 : ZMod c.P.toNat) ≠ 0 := by
  have h2 : 2 % c.P.toNat ≠ 0 := by rw [Nat.mod_eq_of_lt hP]; exact two_ne_zero
  exact fun h => h2 ((mod_eq_zero_iff_cast c 2).mpr (by exact_mod_cast h))

/-- The test of `double` for a point on the x axis. -/
theorem Y_mod_eq_zero_iff {J : Jacobian} {y : ZMod c.P.toNat} (hZ : (J.Z.toNat : ZMod c.P.toNat) ≠ 0)
    (hY : y * (J.Z.toNat : ZMod c.P.toNat) ^ 3 = J.Y.toNat) : J.Y.toNat % c.P.toNat = 0 ↔ y = 0 := by
  rw [mod_eq_zero_iff_cast, ← hY, mul_eq_zero_iff_right (pow_ne_zero 3 hZ)]

/-- The tangent's numerator over `Z` is `M = 3·X² + A·Z⁴ = (3·x² + A)·Z⁴`. -/
theorem represents_double_off_axis {J : Jacobian} {x y : ZMod c.P.toNat}
    {h : (weierstrass c).toAffine.Nonsingular x y} (hP : 2 < c.P.toNat) (hJ : Represents c J (.some x y h))
    (hy : y ≠ 0) : Represents c (double c J) (.some x y h + .some x y h) := by
  obtain ⟨hinf, hZ, hX, hY⟩ := represents_some_iff.mp hJ
  have h2 : (2 : ZMod c.P.toNat) ≠ 0 := two_ne_zero_of_lt_modulus hP
  have hne : y ≠ -y := fun e => mul_ne_zero h2 hy (by linear_combination e)
  have hline : ¬ (x = x ∧ y = (weierstrass c).toAffine.negY x y) := by
    rw [weierstrass_negY]
    exact fun e => hne e.right
  rw [double_eq_residues one_le_modulus hinf (mt (Y_mod_eq_zero_iff hZ hY).mp hy) rfl rfl]
  refine represents_add_of_slope
    (r := (3 * x ^ 2 + (c.A.toNat : ZMod c.P.toNat)) * (J.Z.toNat : ZMod c.P.toNat) ^ 4) hline ?_ ?_ ?_ ?_
  all_goals
    push_cast
    rw [← hY]
  · simp [h2, hy, hZ]
  · rw [weierstrass_slope_self hne]
    field_simp
  · rw [← hX]
    ring
  · rw [← hX]
    ring

/-- `double` gives the double of the point. -/
theorem represents_double {J : Jacobian} {p : (weierstrass c).toAffine.Point} (hP : 2 < c.P.toNat)
    (hJ : Represents c J p) : Represents c (double c J) (2 • p) := by
  rw [two_nsmul]
  cases p with
  | zero =>
    rw [double_eq_ident (.inl (represents_zero_iff.mp hJ)), ← Point.zero_def, add_zero]
    exact represents_ident
  | some x y h =>
    by_cases hy : y = 0
    · obtain ⟨-, hZ, -, hY⟩ := represents_some_iff.mp hJ
      rw [double_eq_ident (.inr ((Y_mod_eq_zero_iff hZ hY).mpr hy)),
        Point.add_self_of_Y_eq (by rw [weierstrass_negY, hy, neg_zero])]
      exact represents_ident
    · exact represents_double_off_axis hP hJ hy

/-- The three cases of two points other than the identity: `z` is the product of their third coordinates, `u1`, `s1`
are the first point's coordinates over that denominator and `h`, `r` the differences. -/
theorem represents_finiteSum {J : Jacobian} {x1 y1 x2 y2 z : ZMod c.P.toNat}
    {h1 : (weierstrass c).toAffine.Nonsingular x1 y1} {h2 : (weierstrass c).toAffine.Nonsingular x2 y2}
    {u1 s1 h r w : Int} (hP : 2 < c.P.toNat) (hJ : Represents c J (.some x1 y1 h1)) (hz : z ≠ 0)
    (hu : u1 = x1 * z ^ 2) (hs : s1 = y1 * z ^ 3) (hh : h = (x2 - x1) * z ^ 2) (hr : r = (y2 - y1) * z ^ 3)
    (hw : w = h * z) :
    Represents c (finiteSum c J u1 s1 h r w) (.some x1 y1 h1 + .some x2 y2 h2) := by
  have hdvd : (c.P.toNat : Int) ∣ h ↔ x1 = x2 := by
    rw [← ZMod.intCast_zmod_eq_zero_iff_dvd, hh, mul_eq_zero_iff_right (pow_ne_zero 2 hz), sub_eq_zero, eq_comm]
  have rdvd : (c.P.toNat : Int) ∣ r ↔ y1 = y2 := by
    rw [← ZMod.intCast_zmod_eq_zero_iff_dvd, hr, mul_eq_zero_iff_right (pow_ne_zero 3 hz), sub_eq_zero, eq_comm]
  by_cases hx : x1 = x2
  · subst hx
    by_cases hy : y1 = y2
    · subst hy
      rw [finiteSum_same (hdvd.mpr rfl) (rdvd.mpr rfl), ← two_nsmul]
      exact represents_double hP hJ
    · have hneg := (WeierstrassCurve.Affine.Y_eq_of_X_eq h1.left h2.left rfl).resolve_left hy
      rw [finiteSum_opposite (hdvd.mpr rfl) (mt rdvd.mp hy), Point.add_of_Y_eq rfl hneg]
      exact represents_ident
  · have hsub : x1 - x2 ≠ 0 := sub_ne_zero.mpr hx
    rw [finiteSum_distinct (mt hdvd.mp hx), sumRecord]
    refine represents_add_of_slope (r := (r : ZMod c.P.toNat)) (fun e => hx e.1) ?_ ?_ ?_ ?_
    · rw [hw, hh]
      exact mul_ne_zero (mul_ne_zero (sub_ne_zero.mpr (Ne.symm hx)) (pow_ne_zero 2 hz)) hz
    · rw [WeierstrassCurve.Affine.slope_of_X_ne hx, hw, hh, hr]
      field_simp
      ring
    · push_cast
      rw [hw, hu, hh]
      ring
    · push_cast
      rw [hw, hu, hs, hh]
      ring

theorem lift_Z_toNat (x y : Wide) : (lift x y).Z.toNat = 1 := BitVec.toNat_one (Nat.succ_pos 511)

/-- A record with `Z = 1` represents the point of its coordinates as they are. -/
theorem represents_lift_iff {x y : Wide} {q : (weierstrass c).toAffine.Point} :
    Represents c (lift x y) q ↔ ∃ h, q = .some (x.toNat : ZMod c.P.toNat) (y.toNat : ZMod c.P.toNat) h := by
  cases q with
  | zero => simp [represents_zero_iff, lift]
  | some x' y' h =>
    rw [represents_some_iff, lift_Z_toNat, Nat.cast_one, one_pow, one_pow, mul_one, mul_one]
    constructor
    · rintro ⟨-, -, rfl, rfl⟩
      exact ⟨h, rfl⟩
    · rintro ⟨_, hq⟩
      obtain ⟨rfl, rfl⟩ := Point.some.inj hq
      exact ⟨rfl, one_ne_zero, rfl, rfl⟩

/-- `mixedAdd` gives the sum with the affine point. -/
theorem represents_mixedAdd {J : Jacobian} {x y : Wide} {p q : (weierstrass c).toAffine.Point}
    (hP : 2 < c.P.toNat) (hJ : Represents c J p) (hq : Represents c (lift x y) q) :
    Represents c (mixedAdd c J x y) (p + q) := by
  cases p with
  | zero =>
    rw [mixedAdd_of_inf (represents_zero_iff.mp hJ), ← Point.zero_def, zero_add]
    exact hq
  | some x1 y1 h1 =>
    obtain ⟨h2, rfl⟩ := represents_lift_iff.mp hq
    obtain ⟨hinf, hZ, hX, hY⟩ := represents_some_iff.mp hJ
    rw [mixedAdd_eq_finiteSum one_le_modulus hinf rfl rfl]
    refine represents_finiteSum hP hJ hZ ?_ ?_ ?_ ?_ ?_ <;> push_cast [← hX, ← hY] <;> ring

/-- `jacobiAdd` gives the sum of the two points. -/
theorem represents_jacobiAdd {J1 J2 : Jacobian} {p q : (weierstrass c).toAffine.Point} (hP : 2 < c.P.toNat)
    (hJ1 : Represents c J1 p) (hJ2 : Represents c J2 q) : Represents c (jacobiAdd c J1 J2) (p + q) := by
  cases p with
  | zero =>
    rw [jacobiAdd_of_inf_left (represents_zero_iff.mp hJ1), ← Point.zero_def, zero_add]
    exact hJ2
  | some x1 y1 h1 =>
    obtain ⟨hinf1, hZ1, hX1, hY1⟩ := represents_some_iff.mp hJ1
    cases q with
    | zero =>
      rw [jacobiAdd_of_inf_right hinf1 (represents_zero_iff.mp hJ2), ← Point.zero_def, add_zero]
      exact hJ1
    | some x2 y2 h2 =>
      obtain ⟨hinf2, hZ2, hX2, hY2⟩ := represents_some_iff.mp hJ2
      rw [jacobiAdd_eq_finiteSum one_le_modulus hinf1 hinf2 rfl rfl]
      refine represents_finiteSum hP hJ1 (mul_ne_zero hZ1 hZ2) ?_ ?_ ?_ ?_ ?_ <;>
        push_cast [← hX1, ← hX2, ← hY1, ← hY2] <;> ring

/-- The bit loop from the identity gives the multiple by the low bits it has read. -/
theorem represents_scalarLoop {k n : Nat} {x y : Wide} {q : (weierstrass c).toAffine.Point} (hP : 2 < c.P.toNat)
    (hq : Represents c (lift x y) q) (hk : k < 2 ^ n) :
    Represents c (scalarLoop c k x y n Jacobian.ident) (k • q) := by
  induction n generalizing k with
  | zero =>
    obtain rfl : k = 0 := by omega
    rw [zero_nsmul]
    exact represents_ident
  | succ n ih =>
    have hdouble := represents_double hP (ih (k := k / 2) (by omega))
    rw [← mul_nsmul'] at hdouble
    rw [scalarLoop_succ]
    split
    · next hbit =>
      have hk2 : k = 2 * (k / 2) + 1 := by
        have : k % 2 = 1 := by simpa [Nat.testBit_zero] using hbit
        omega
      rw [hk2, succ_nsmul, ← hk2]
      exact represents_mixedAdd hP hdouble hq
    · next hbit =>
      have hk2 : 2 * (k / 2) = k := by
        have : k % 2 ≠ 1 := by simpa [Nat.testBit_zero] using hbit
        omega
      rwa [hk2] at hdouble

theorem lt_two_pow_bitLength (k : Nat) : k < 2 ^ bitLength k := by
  rw [bitLength]
  split
  · next h => rw [h]; exact Nat.one_pos
  · exact Nat.lt_log2_self

/-- `scalarMult` gives the multiple of the point. -/
theorem represents_scalarMult {k : Nat} {x y : Wide} {q : (weierstrass c).toAffine.Point} (hP : 2 < c.P.toNat)
    (hq : Represents c (lift x y) q) : Represents c (scalarMult c k x y) (k • q) :=
  represents_scalarLoop hP hq (lt_two_pow_bitLength k)

/-! ## The affine form of a point (41_point R176) -/

/-- A coordinate over the denominator, times the inverse of the denominator, is the coordinate. -/
theorem mul_inv_pow_mod {m X Z zi n : Nat} {x : ZMod m} (hinv : Z * zi % m = 1) (hX : x * (Z : ZMod m) ^ n = X) :
    X * zi ^ n % m = x.val := by
  have hone : (Z : ZMod m) * zi = 1 := by
    simpa using congrArg (Nat.cast (R := ZMod m)) hinv
  have hx : ((X * zi ^ n : Nat) : ZMod m) = x := by
    calc ((X * zi ^ n : Nat) : ZMod m) = x * ((Z : ZMod m) * zi) ^ n := by push_cast [← hX]; ring
      _ = x := by rw [hone, one_pow, mul_one]
  rw [← ZMod.val_natCast, hx]

/-- The affine form is the point's coordinates as residues. -/
theorem toAffine_of_represents_some {J : Jacobian} {x y : ZMod c.P.toNat}
    {h : (weierstrass c).toAffine.Nonsingular x y} (hJ : Represents c J (.some x y h)) :
    toAffine c J = some (BitVec.ofNat 512 x.val, BitVec.ofNat 512 y.val) := by
  obtain ⟨hinf, hZ, hX, hY⟩ := represents_some_iff.mp hJ
  have hprime : c.P.toNat.Prime := Fact.out
  have hgcd : Nat.gcd (J.Z.toNat % c.P.toNat) c.P.toNat = 1 := by
    rw [← Nat.gcd_rec, Nat.gcd_comm]
    exact (ZMod.isUnit_iff_coprime _ _).mp hZ.isUnit
  obtain ⟨zi, -, hinv, haff⟩ := toAffine_of_coprime hprime.two_le hinf hgcd
  rw [haff, mul_inv_pow_mod hinv hX, mul_inv_pow_mod hinv hY]

end

/-- Settles O42: each function represents its group operation; reduced coordinates fit their registers. -/
theorem pointFunctionsAreTheGroupLaw : Obligations.PointFunctionsAreTheGroupLaw := by
  unfold Obligations.PointFunctionsAreTheGroupLaw
  intro c _ hP
  have h2 : 2 < c.P.toNat := by omega
  refine ⟨fun J p => represents_double h2, fun J x y p q => represents_mixedAdd h2,
    fun J1 J2 p q => represents_jacobiAdd h2, fun J p hJ => ⟨?_, ?_⟩, fun k x y q => represents_scalarMult h2⟩
  · rintro rfl
    exact toAffine_of_represents_zero hJ
  · rintro x y h rfl
    have hx := toNat_ofNat_residue c x.val x.val_lt
    have hy := toNat_ofNat_residue c y.val y.val_lt
    refine ⟨_, _, toAffine_of_represents_some hJ, ?_⟩
    rw [hx, hy]
    exact ⟨x.val_lt, y.val_lt, ZMod.natCast_zmod_val x, ZMod.natCast_zmod_val y⟩

/-! ## Multiples of the base point (41_point R193) -/

theorem scalarMult_zero (c : Curve) (x y : Wide) : scalarMult c 0 x y = Jacobian.ident := rfl

theorem scalarMult_one (c : Curve) (x y : Wide) : scalarMult c 1 x y = lift x y := by
  have hlen : bitLength 1 = 1 := by decide
  have hident : double c Jacobian.ident = Jacobian.ident := double_eq_ident (.inl rfl)
  rw [scalarMult, hlen, scalarLoop_succ, if_pos (by decide), scalarLoop, hident, mixedAdd_of_inf rfl]

section
variable {c : Curve} [Fact c.P.toNat.Prime]

/-- Two records of one point have the same flag and the same affine form. -/
theorem same_affine_of_represents {K S : Jacobian} {p : (weierstrass c).toAffine.Point} (hK : Represents c K p)
    (hS : Represents c S p) : K.inf = S.inf ∧ toAffine c K = toAffine c S := by
  cases p with
  | zero =>
    exact ⟨(represents_zero_iff.mp hK).trans (represents_zero_iff.mp hS).symm,
      (toAffine_of_represents_zero hK).trans (toAffine_of_represents_zero hS).symm⟩
  | some x y h =>
    obtain ⟨hinfK, -⟩ := represents_some_iff.mp hK
    obtain ⟨hinfS, -⟩ := represents_some_iff.mp hS
    exact ⟨hinfK.trans hinfS.symm, (toAffine_of_represents_some hK).trans (toAffine_of_represents_some hS).symm⟩

theorem weierstrass_discriminant_ne_zero (hP : 2 < c.P.toNat)
    (hdisc : ¬ c.P.toNat ∣ 4 * c.A.toNat ^ 3 + 27 * c.B.toNat ^ 2) : (weierstrass c).Δ ≠ 0 := by
  have hshort : (weierstrass c).IsShortNF := ⟨rfl, rfl, rfl⟩
  have h16 : (-16 : ZMod c.P.toNat) ≠ 0 := by
    have h := neg_ne_zero.mpr (pow_ne_zero 4 (two_ne_zero_of_lt_modulus hP))
    norm_num at h ⊢
    exact h
  rw [← ZMod.natCast_eq_zero_iff] at hdisc
  push_cast at hdisc
  rw [WeierstrassCurve.Δ_of_isShortNF]
  exact mul_ne_zero h16 hdisc

/-- On a curve whose discriminant is not zero every pair of coordinates that meets the equation is a point. -/
theorem exists_represents_lift {x y : Wide} (hdisc : (weierstrass c).Δ ≠ 0) (hcurve : OnCurve c (lift x y)) :
    ∃ h, Represents c (lift x y) (.some (x.toNat : ZMod c.P.toNat) (y.toNat : ZMod c.P.toNat) h) := by
  have hequation : (weierstrass c).toAffine.Equation (x.toNat : ZMod c.P.toNat) (y.toNat : ZMod c.P.toNat) := by
    rw [OnCurve, lift_Z_toNat] at hcurve
    simp only [lift, Bool.false_eq_true, false_or, one_pow, mul_one] at hcurve
    have hcast := (ZMod.natCast_eq_natCast_iff' _ _ _).mpr hcurve
    push_cast at hcast
    rw [WeierstrassCurve.Affine.equation_iff]
    simp only [weierstrass]
    linear_combination hcast
  have hpoint := (WeierstrassCurve.Affine.equation_iff_nonsingular_of_Δ_ne_zero hdisc).mp hequation
  exact ⟨hpoint, represents_lift_iff.mpr ⟨hpoint, rfl⟩⟩

end

/-- Settles O43: the base point is a point of the group, where multiples add. -/
theorem multiplesOfTheBasePointAdd : Obligations.MultiplesOfTheBasePointAdd := by
  unfold Obligations.MultiplesOfTheBasePointAdd
  intro c hprime hP hdisc hcurve
  have : Fact c.P.toNat.Prime := ⟨hprime⟩
  have h2 : 2 < c.P.toNat := by omega
  obtain ⟨hpoint, hbase⟩ := exists_represents_lift (weierstrass_discriminant_ne_zero h2 hdisc) hcurve
  refine ⟨scalarMult_zero c _ _, toAffine_eq_none (.inl rfl), scalarMult_one c _ _, ?_, ?_⟩
  · rw [toAffine_of_represents_some hbase, ZMod.val_natCast, ZMod.val_natCast]
  · rintro k1 k2 K S rfl rfl
    have hsum := represents_jacobiAdd h2 (represents_scalarMult h2 hbase (k := k1))
      (represents_scalarMult h2 hbase (k := k2))
    rw [← add_nsmul] at hsum
    exact same_affine_of_represents (represents_scalarMult h2 hbase) hsum

end Sys2Proof.Machine

/-!
PROOFS. The hash core (42_hash): the byte layers and the linear layer of LPS, the padded block, the rounds of the
cipher; then the commands that write these functions' values.
-/

namespace Sys2Proof.Machine

open Sys2Proof.Laws

/-! ## The byte layers (42_hash R216, R217) -/

/-- Byte `j` of a value given byte by byte (42_hash R210). -/
theorem byteOf_ofBytes_map (f : Nat → Byte) {j : Nat} (hj : j < 64) :
    byteOf (ofBytes ((List.range 64).map f)) j = f j := by
  rw [byteOf_ofBytes _ (by simp) j hj, List.getElem_map, List.getElem_range]

theorem byteOf_subst (v : Wide) {j : Nat} (hj : j < 64) : byteOf (subst v) j = piOf (byteOf v j) :=
  byteOf_ofBytes_map _ hj

theorem byteOf_permute (v : Wide) {j : Nat} (hj : j < 64) : byteOf (permute v) j = byteOf v (tauOf j) :=
  byteOf_ofBytes_map _ hj

theorem byteOf_getLsbD (v : Wide) (j b : Nat) :
    (byteOf v j).getLsbD b = (decide (b < 8) && v.getLsbD (504 - 8 * j + b)) :=
  BitVec.getLsbD_extractLsb' ..

/-- A value is its sixty-four bytes: bit `n` is bit `n % 8` of byte `63 - n / 8`. -/
theorem eq_of_byteOf_eq {v w : Wide} (h : ∀ j < 64, byteOf v j = byteOf w j) : v = w := by
  refine BitVec.eq_of_getLsbD_eq fun n hn => ?_
  have hbit := congrArg (·.getLsbD (n % 8)) (h (63 - n / 8) (by omega))
  have hindex : 504 - 8 * (63 - n / 8) + n % 8 = n := by omega
  have hlow : n % 8 < 8 := Nat.mod_lt n (by decide)
  simpa only [byteOf_getLsbD, hindex, hlow, decide_true, Bool.true_and] using hbit

theorem tauOf_lt {j : Nat} (hj : j < 64) : tauOf j < 64 := by
  rw [tauOf]
  omega

/-- `TAU` transposes the square of eight rows of eight bytes (42_hash R213). -/
theorem tauOf_tauOf {j : Nat} (hj : j < 64) : tauOf (tauOf j) = j := by
  simp only [tauOf]
  omega

theorem permute_permute (v : Wide) : permute (permute v) = v :=
  eq_of_byteOf_eq fun j hj => by rw [byteOf_permute _ hj, byteOf_permute _ (tauOf_lt hj), tauOf_tauOf hj]

theorem permute_subst (v : Wide) : permute (subst v) = subst (permute v) :=
  eq_of_byteOf_eq fun j hj => by
    rw [byteOf_permute _ hj, byteOf_subst _ (tauOf_lt hj), byteOf_subst _ hj, byteOf_permute _ hj]

/-- The inverse of the permutation `PI`, in rows as `piRows` has them. -/
def piInverseRows : List (BitVec 128) := [
  0xa52d328f0e3038c054e69e39557e5291#128,
  0x6403575a1c6007182172a8d129c6a43f#128,
  0xe0278d0c82eaaeb49a6349e542e415b7#128,
  0xc806709d417519c9aafc4dbf2a7384d5#128,
  0xc3af2b86a7b1b25b46d39ffdd40f9c2f#128,
  0x9b43efd979b6537fc1f023e7255eb51e#128,
  0xa2dfa6feac22f9e24abc35caee78056b#128,
  0x51e159a3f27156116a8994658cbb773c#128,
  0x7b28abd231dec45fcccf762cb8d82e36#128,
  0xdb69b31495be62a13b1666e95c6c6dad#128,
  0x37614bb9e3baf1a08583da47c5b033fa#128,
  0x966f6ec2f650ff5da98e171b977dec58#128,
  0xf71ffb7c090d7a674587dce84f1d4e04#128,
  0xebf8f33e3dbd8a88ddcd0b1398029380#128,
  0x90d02434cbedf4ce99104440923a0126#128,
  0x121a4868f5818bc7d6200a08004cd774#128]

/-- The byte that `PI` sends to `b`. -/
def piInverseOf (b : Byte) : Byte :=
  (piInverseRows.getD (b.toNat / 16) 0).extractLsb' (120 - 8 * (b.toNat % 16)) 8

theorem piInverseOf_piOf : Function.LeftInverse piInverseOf piOf := by
  unfold Function.LeftInverse
  decide +kernel

/-- Settles O47: both layers are given byte by byte, `TAU` is its own inverse, and `PI` has one. -/
theorem byteLayersActOnTheBytes : Obligations.ByteLayersActOnTheBytes := by
  unfold Obligations.ByteLayersActOnTheBytes
  exact ⟨fun v j hj => ⟨byteOf_subst v hj, byteOf_permute v hj⟩,
    fun v => ⟨permute_permute v, permute_subst v⟩, piInverseOf_piOf.injective⟩

/-! ## The linear layer (42_hash R219) -/

/-- A word of the integer that a list of words stands for, both counted from the least significant. -/
theorem foldr_words_digit (words : List HashWord) (i : Nat) :
    words.foldr (fun q acc => acc * 2 ^ 64 + q.toNat) 0 / 2 ^ (64 * i) % 2 ^ 64 = (words.getD i 0).toNat := by
  induction words generalizing i with
  | nil => simp
  | cons q words ih =>
    have hq := q.isLt
    cases i with
    | zero =>
      rw [List.foldr_cons, List.getD_cons_zero, mul_zero, pow_zero, Nat.div_one, Nat.mul_add_mod',
        Nat.mod_eq_of_lt hq]
    | succ i =>
      have hpow : 2 ^ (64 * (i + 1)) = 2 ^ 64 * 2 ^ (64 * i) := by rw [← pow_add, mul_add_one, add_comm]
      have hrest (acc : Nat) : (acc * 2 ^ 64 + q.toNat) / 2 ^ 64 = acc := by omega
      rw [List.foldr_cons, List.getD_cons_succ, hpow, ← Nat.div_div_eq_div_mul, hrest, ih]

/-- A field of a number's low `w` bits is that field of the number. -/
theorem toNat_extractLsb'_ofNat (n : Nat) {w a b : Nat} (h : a + b ≤ w) :
    ((BitVec.ofNat w n).extractLsb' a b).toNat = n / 2 ^ a % 2 ^ b := by
  obtain ⟨d, rfl⟩ := Nat.exists_eq_add_of_le h
  rw [BitVec.extractLsb'_toNat, BitVec.toNat_ofNat, Nat.shiftRight_eq_div_pow, add_assoc, pow_add,
    Nat.mod_mul_right_div_self, Nat.mod_mod_of_dvd _ (pow_dvd_pow 2 (Nat.le_add_right b d))]

/-- Word `j` of a value built from eight words is the `j`-th of them (42_hash R210). -/
theorem wordOf_ofWords {words : List HashWord} (hlen : words.length = 8) {j : Nat} (hj : j < 8) :
    wordOf (ofWords words) j = words[j] := by
  have hpos : 448 - 64 * j = 64 * (7 - j) := by omega
  have hlast : words.reverse.getD (7 - j) 0 = words[j] := by
    have hindex : words.length - 1 - (7 - j) = j := by omega
    rw [List.getD_eq_getElem _ _ (by simp; omega), List.getElem_reverse]
    simp only [hindex]
  refine BitVec.eq_of_toNat_eq ?_
  rw [wordOf, ofWords, hpos, toNat_extractLsb'_ofNat _ (by omega), List.foldl_eq_foldr_reverse, foldr_words_digit,
    hlast]

theorem wordOf_linear (v : Wide) {j : Nat} (hj : j < 8) : wordOf (linear v) j = lin (wordOf v j) := by
  rw [linear, wordOf_ofWords (by simp) hj, List.getElem_map, List.getElem_range]

theorem linRows_cons (x row : HashWord) (rows : List HashWord) (n : Nat) :
    linRows x (row :: rows) n = (if x.getLsbD n then row else 0) ^^^ linRows x rows (n - 1) := by
  rw [linRows]
  split
  · rfl
  · exact BitVec.zero_xor.symm

/-- A row selected twice cancels. -/
theorem selected_xor (p q : Bool) (row : HashWord) :
    (if (p ^^ q) = true then row else 0) = (if p then row else 0) ^^^ (if q then row else 0) := by
  cases p <;> cases q <;> simp

theorem linRows_xor (x y : HashWord) (rows : List HashWord) (n : Nat) :
    linRows (x ^^^ y) rows n = linRows x rows n ^^^ linRows y rows n := by
  induction rows generalizing n with
  | nil => exact BitVec.zero_xor.symm
  | cons row rows ih =>
    rw [linRows_cons, linRows_cons, linRows_cons, ih, BitVec.getLsbD_xor, selected_xor]
    ac_rfl

/-- No row is selected by bit `m`, above all that select one. -/
theorem linRows_twoPow_of_lt (rows : List HashWord) {m n : Nat} (h : n < m) :
    linRows (BitVec.twoPow 64 m) rows n = 0 := by
  induction rows generalizing n with
  | nil => rfl
  | cons row rows ih =>
    have hbit : (BitVec.twoPow 64 m).getLsbD n = false := by simp [BitVec.getLsbD_twoPow, h.ne']
    simp [linRows_cons, hbit, ih (show n - 1 < m by omega)]

/-- Bit `n` selects the first row, and bit `m` the row `n - m` places behind it. -/
theorem linRows_twoPow (rows : List HashWord) {m n : Nat} (hlen : rows.length ≤ n + 1) (hn : n < 64)
    (hm : m ≤ n) : linRows (BitVec.twoPow 64 m) rows n = rows.getD (n - m) 0 := by
  induction rows generalizing n with
  | nil => rfl
  | cons row rows ih =>
    rw [List.length_cons] at hlen
    rw [linRows_cons]
    obtain rfl | hlt := hm.eq_or_lt
    · have hbit : (BitVec.twoPow 64 m).getLsbD m = true := by simp [hn]
      have hrest : linRows (BitVec.twoPow 64 m) rows (m - 1) = 0 := by
        cases m with
        | zero => rw [List.length_eq_zero_iff.mp (by omega : rows.length = 0)]; rfl
        | succ m => exact linRows_twoPow_of_lt rows (by omega)
      simp [hbit, hrest]
    · have hbit : (BitVec.twoPow 64 m).getLsbD n = false := by simp [BitVec.getLsbD_twoPow, hlt.ne]
      have hindex : n - m = (n - 1 - m) + 1 := by omega
      rw [hindex, List.getD_cons_succ, ← ih (by omega) (by omega) (by omega)]
      simp [hbit]

/-- Settles O48: `lin` is the exclusive or of the rows its word's bits select. -/
theorem linearLayerIsTheMatrix : Obligations.LinearLayerIsTheMatrix := by
  unfold Obligations.LinearLayerIsTheMatrix
  refine ⟨fun v j hj => wordOf_linear v hj, fun x y => linRows_xor x y amat 63, fun i hi => ?_⟩
  have hindex : 63 - (63 - i) = i := by omega
  rw [lin, linRows_twoPow amat (by decide) (by decide) (by omega), hindex]

/-! ## The padded block (42_hash R223) -/

/-- The `n` low bytes are those of `x`, and one bit is set above them. -/
theorem padblock_getLsbD {n b : Nat} (x : Wide) (hb : b < 512) :
    (padblock n x).getLsbD b = if b < 8 * n then x.getLsbD b else decide (b = 8 * n) := by
  have hor : 2 ^ (8 * n) + x.toNat % 2 ^ (8 * n) = 2 ^ (8 * n) ||| x.toNat % 2 ^ (8 * n) := by
    have hlow : x.toNat % 2 ^ (8 * n) < 2 ^ (8 * n) := Nat.mod_lt _ (by positivity)
    simpa using Nat.two_pow_add_eq_or_of_lt hlow 1
  rw [padblock, BitVec.getLsbD_ofNat, hor, Nat.testBit_or, Nat.testBit_mod_two_pow, Nat.testBit_two_pow]
  split
  · next hlow => simp [hb, hlow, hlow.ne', BitVec.getLsbD]
  · next hhigh => simp [hb, hhigh, eq_comm]

/-- Settles O49: byte `j` stands above the set bit, holds it, or is one of the low bytes. -/
theorem paddedBlockBytes : Obligations.PaddedBlockBytes := by
  unfold Obligations.PaddedBlockBytes
  intro n j x hn hj
  refine BitVec.eq_of_getLsbD_eq fun b hb => ?_
  rw [byteOf_getLsbD, padblock_getLsbD x (by omega)]
  obtain habove | rfl | hlow := lt_trichotomy j (63 - n)
  · have hbit : 504 - 8 * j + b ≠ 8 * n := by omega
    rw [if_neg (by omega), if_pos habove]
    simp [hbit]
  · have hindex : 504 - 8 * (63 - n) + b = 8 * n + b := by omega
    rw [if_neg (by omega), if_neg (lt_irrefl _), if_pos rfl, hindex]
    simp [hb]
  · rw [if_pos (by omega), if_neg (by omega), if_neg hlow.ne', byteOf_getLsbD]

/-! ## The cipher (42_hash R221) -/

theorem rounds_cons (c : Wide) (cs : List Wide) :
    rounds (c :: cs) = fun st k => rounds cs (lpsOf st ^^^ nextKey k c) (nextKey k c) := rfl

/-- The rounds of a list of constants, on any sequences of keys and states that follow them. -/
theorem rounds_eq {cs : List Wide} {st kc : Nat → Wide} (h : ∀ i (hi : i < cs.length),
    kc (i + 1) = lpsOf (kc i ^^^ cs[i]) ∧ st (i + 1) = lpsOf (st i) ^^^ kc (i + 1)) :
    rounds cs (st 0) (kc 0) = st cs.length := by
  induction cs generalizing st kc with
  | nil => rfl
  | cons c cs ih =>
    obtain ⟨hkey, hstate⟩ : kc 1 = nextKey (kc 0) c ∧ st 1 = lpsOf (st 0) ^^^ kc 1 := h 0 (Nat.zero_lt_succ _)
    have hrest := ih (st := fun i => st (i + 1)) (kc := fun i => kc (i + 1))
      fun i hi => h (i + 1) (Nat.succ_lt_succ hi)
    calc rounds (c :: cs) (st 0) (kc 0)
        = rounds cs (lpsOf (st 0) ^^^ nextKey (kc 0) c) (nextKey (kc 0) c) := by rw [rounds_cons]
      _ = rounds cs (st 1) (kc 1) := by rw [hstate, hkey]
      _ = st (cs.length + 1) := hrest

/-- Settles O45: the twelve constants are `crnd`, from the state and key before round 1. -/
theorem cipherIsTheTwelveRounds : Obligations.CipherIsTheTwelveRounds := by
  unfold Obligations.CipherIsTheTwelveRounds
  intro K m st kc hst hkc hround
  rw [cipher, ← hst, ← hkc]
  refine rounds_eq (cs := crnd) fun i hi => ?_
  have hconst : crndOf (i + 1) = crnd[i] := List.getD_eq_getElem _ _ hi
  exact hconst ▸ hround i hi

/-! ## The data commands (42_hash R224 to R228, R230) -/

/-- A KNXT word is refused where its round number is out of range. -/
theorem decode_knxt_of_round {wd : WDst} {wa : WSrc} {n : BitVec 6} (h : n.toNat = 0 ∨ 12 < n.toNat) :
    decode (encode (.knxt wd wa n)) = .illegalField := by
  refine decode_of_not_legal (row := .formatR .wd .ws .zero .zero .round)
    (by rw [encode, bitsOf_op, formatR_op]; rfl) ?_
  rintro ⟨-, -, -, -, hround⟩
  rw [encode, bitsOf_imm6, formatR_imm6] at hround
  obtain ⟨hmin, hmax⟩ := hround
  omega

/-- KNXT with a round number in range (42_hash R227). -/
theorem execKnxt_of_round {wd : WDst} {wa : WSrc} {n : BitVec 6} {s : State} (hmin : 1 ≤ n.toNat)
    (hmax : n.toNat ≤ 12) : execKnxt wd wa n s = .next (s.setW wd (nextKey (s.wide wa) (crndOf n.toNat))) :=
  if_neg (by omega)

/-- The sum reduced, as 42_hash R218 writes it. -/
theorem add512_eq_ofNat_mod (x y : Wide) : add512 x y = BitVec.ofNat 512 ((x.toNat + y.toNat) % 2 ^ 512) := by
  rw [add512_eq, ← BitVec.toNat_add, BitVec.ofNat_toNat, BitVec.setWidth_eq]

/-- Settles O44: each command is one write of its function's value; KNXT checks its round number first. -/
theorem hashDataCommandsWriteTheFunction : Obligations.HashDataCommandsWriteTheFunction := by
  unfold Obligations.HashDataCommandsWriteTheFunction
  intro wd wa wb wm n s
  refine ⟨⟨rfl, _, rfl, WritesWide.setW s wd _⟩, ⟨rfl, ?_⟩, ⟨rfl, _, rfl, WritesWide.setW s wd _⟩,
    ⟨rfl, decode_knxt_of_round, fun hmin hmax => ?_⟩, ⟨rfl, _, rfl, WritesWide.setW s wd _⟩,
    ⟨rfl, _, rfl, WritesWide.setW s wd _⟩⟩
  · rw [← add512_eq_ofNat_mod]
    exact ⟨_, rfl, WritesWide.setW s wd _⟩
  · exact ⟨_, execKnxt_of_round hmin hmax, WritesWide.setW s wd _⟩

/-! ## The streaming commands (42_hash R231 to R233) -/

/-- The update for a block, in machine addition. -/
theorem Accum.absorb_eq (st : Accum) (m : Wide) (bits : Nat) :
    st.absorb m bits =
      { h := compress st.n st.h m, n := st.n + BitVec.ofNat 512 bits, sg := st.sg + m } := by
  rw [Accum.absorb, add512_eq, add512_eq]

theorem Accum.finish_eq (st : Accum) (n : Nat) (x : Wide) :
    st.finish n x = compress 0 (compress 0 (compress st.n st.h (padblock n x))
      (st.n + BitVec.ofNat 512 (8 * n))) (st.sg + padblock n x) := by
  rw [Accum.finish, Accum.absorb_eq]

/-- A hash command's digest register and the cleared hash state (42_hash R233, R234). -/
theorem frame_setW_zeroHash (s : State) (wd : WDst) (v : Wide) :
    Frame { wide := [wd], hash := true } s (s.setW wd v).zeroHash :=
  ((Frame.refl _ s).setW wd v (List.mem_singleton_self wd)).setHash 0 0 0 rfl

/-- Settles O50: HBLK and HFIN are the accumulator's update and end on the registers' values before the command. -/
theorem streamingCommandsUpdateTheHashState : Obligations.StreamingCommandsUpdateTheHashState := by
  unfold Obligations.StreamingCommandsUpdateTheHashState
  intro wd wm n s
  refine ⟨⟨rfl, _, rfl, HashZero.zeroHash s, (Frame.refl _ s).setHash 0 0 0 rfl⟩,
    ⟨rfl, _, rfl, rfl, add512_eq .., add512_eq .., (Frame.refl _ s).setHash _ _ _ rfl⟩, rfl, ?_⟩
  rintro m h1 rfl rfl
  refine ⟨_, rfl, ?_, HashZero.zeroHash _, frame_setW_zeroHash s wd _⟩
  exact (State.setW_get_same s wd _).trans (Accum.finish_eq ..)

/-! ## HASH (42_hash R234) -/

theorem memRead_zero (m : Memory) (n : Nat) : memRead m 0 n = (List.range n).map fun k => m.read k := by
  simp only [memRead, Nat.zero_add]

/-- Settles O51: the length check, then the digest of the message's bytes. -/
theorem hashCommandHashesTheMessage : Obligations.HashCommandHashesTheMessage := by
  unfold Obligations.HashCommandHashesTheMessage
  intro wd s
  simp only [exec, execHash]
  refine ⟨rfl, fun hlong => ?_, fun hfits => ?_⟩
  · exact ⟨_, withMessage_long _ hlong, Traps.raise _ _ s⟩
  · rw [← memRead_zero]
    exact ⟨_, withMessage_fits _ hfits, State.setW_get_same s wd _, HashZero.zeroHash _,
      frame_setW_zeroHash s wd _⟩

end Sys2Proof.Machine

/-!
PROOFS. The signature protocol (43_protocol): the hash value, the draws, and the commands that write a key pair, a
signature or a verdict.
-/

namespace Sys2Proof.Machine

open Sys2Proof.Laws

/-! ## The hash value (43_protocol R262) -/

theorem eOf_of_mod_eq_zero {c : Curve} {H : Wide} (h : H.toNat % c.Q.toNat = 0) : eOf c H = 1 := if_pos h

theorem eOf_of_mod_ne_zero {c : Curve} {H : Wide} (h : H.toNat % c.Q.toNat ≠ 0) :
    eOf c H = H.toNat % c.Q.toNat := if_neg h

/-- Settles O54: the reduced digest is below `Q`, and 1 stands in for zero. -/
theorem hashValueIsReducedAndNeverZero : Obligations.HashValueIsReducedAndNeverZero := by
  unfold Obligations.HashValueIsReducedAndNeverZero
  intro c H hQ
  have hlt : H.toNat % c.Q.toNat < c.Q.toNat := Nat.mod_lt _ (by omega)
  refine ⟨eOf_of_mod_eq_zero, eOf_of_mod_ne_zero, ?_⟩
  by_cases h0 : H.toNat % c.Q.toNat = 0
  · rw [eOf_of_mod_eq_zero h0]
    omega
  · rw [eOf_of_mod_ne_zero h0]
    omega

/-! ## The draws (43_protocol R261) -/

/-- A finite stream drawn to its end. -/
theorem drawMany_finite (l : List Draw) :
    drawMany l.length { ahead := l, tail := .fails } = (l, { ahead := [], tail := .fails }) := by
  induction l with
  | nil => rfl
  | cons d ds ih => rw [List.length_cons, drawMany, RandomSource.draw_ahead, ih]

/-- The answers of an unbounded stream that has given `n` of them. -/
theorem answer_free (i n : Nat) :
    RandomSource.answer i { ahead := [], tail := .free n } = Config.freeDraw (n + i) := by
  induction i generalizing n with
  | zero => rfl
  | succ i ih =>
    rw [RandomSource.answer, RandomSource.draw_free, ih]
    congr 1
    omega

/-- `n + 1` draws are `n` draws and one more, taken from the stream after them. -/
theorem drawMany_succ_last (n : Nat) (r : RandomSource) :
    drawMany (n + 1) r = ((drawMany n r).1 ++ [(drawMany n r).2.draw.1], (drawMany n r).2.draw.2) := by
  induction n generalizing r with
  | zero => rfl
  | succ n ih =>
    rw [drawMany, ih]
    rfl

/-- The draws of a list and one more end with the one more. -/
theorem drawMany_concat {l : List Draw} {z : Draw} {r rest : RandomSource}
    (h : drawMany (l.length + 1) r = (l ++ [z], rest)) :
    ∃ mid, drawMany l.length r = (l, mid) ∧ mid.draw = (z, rest) := by
  rw [drawMany_succ_last] at h
  obtain ⟨hdraws, hrest⟩ := Prod.mk.inj h
  obtain ⟨hl, hz⟩ := List.append_inj' hdraws rfl
  exact ⟨_, Prod.ext hl rfl, Prod.ext (List.singleton_inj.mp hz) hrest⟩

section
variable {c : Curve} {r rest : RandomSource}

theorem drawRange_of_inRange {k : Wide} (hdraw : r.draw = (.value k, rest)) (hk : InRange c k) :
    drawRange c r = (some k, rest) := by
  rcases drawRange_cases c r with ⟨k', hvalue, -, h⟩ | ⟨hout, -⟩
  · rw [hdraw] at h hvalue
    rwa [Draw.value.inj hvalue]
  · exact absurd hk (hout k (congrArg Prod.fst hdraw))

theorem drawRange_of_not_inRange {z : Draw} (hdraw : r.draw = (z, rest))
    (hz : ∀ k, z = .value k → ¬ InRange c k) : drawRange c r = (none, rest) := by
  rcases drawRange_cases c r with ⟨k, hvalue, hk, -⟩ | ⟨-, h⟩
  · rw [hdraw] at hvalue
    exact absurd hk (hz k hvalue)
  · rwa [hdraw] at h

end

/-! ## KEYGEN (43_protocol R264) -/

section
variable {wd : WDst} {ad : ADst} {s : State} {rest : RandomSource}

theorem keygen_traps_randomness {z : Draw} (hdraw : s.source.draw = (z, rest))
    (hz : ∀ k, z = .value k → ¬ InRange s.params.curve k) :
    ∃ t, exec (.keygen wd ad) s = .next t ∧ TrapsAfterDraws (.keygen wd ad) .randomness rest s t := by
  rw [exec, execKeygen, drawRange_of_not_inRange hdraw hz]
  exact ⟨_, rfl, TrapsAfterDraws.raise _ _ rest s⟩

theorem keygen_traps_domain {k : Wide} (hdraw : s.source.draw = (.value k, rest)) (hk : InRange s.params.curve k)
    (hpoint : toAffine s.params.curve
      (scalarMult s.params.curve k.toNat s.params.curve.GX s.params.curve.GY) = none) :
    ∃ t, exec (.keygen wd ad) s = .next t ∧ TrapsAfterDraws (.keygen wd ad) .domain rest s t := by
  simp only [exec, execKeygen, drawRange_of_inRange hdraw hk, hpoint]
  exact ⟨_, rfl, TrapsAfterDraws.raise _ _ rest s⟩

theorem keygen_writes {k x y : Wide} (hdraw : s.source.draw = (.value k, rest)) (hk : InRange s.params.curve k)
    (hpoint : toAffine s.params.curve
      (scalarMult s.params.curve k.toNat s.params.curve.GX s.params.curve.GY) = some (x, y)) :
    ∃ t, exec (.keygen wd ad) s = .next t ∧ t.w[wd] = k ∧ t.a[ad] = { X := x, Y := y, absent := false } ∧
      t.source = rest ∧ Frame { wide := [wd], aff := [ad], source := true } s t := by
  simp only [exec, execKeygen, drawRange_of_inRange hdraw hk, hpoint]
  exact ⟨_, rfl, State.setW_get_same _ wd k, State.setA_get_same _ ad _, rfl,
    (((Frame.refl _ s).setSource rest rfl).setW wd k (List.mem_singleton_self wd)).setA ad _
      (List.mem_singleton_self ad)⟩

end

/-- Settles O56: the command follows the answer of its one draw, and that of the affine conversion. -/
theorem keygenWritesTheKeyPair : Obligations.KeygenWritesTheKeyPair := by
  unfold Obligations.KeygenWritesTheKeyPair
  intro wd ad s z rest hdraw
  refine ⟨rfl, ?_, keygen_traps_randomness hdraw⟩
  rintro k r rfl hk rfl
  exact ⟨fun x y hpoint => keygen_writes hdraw hk hpoint, keygen_traps_domain hdraw hk⟩

/-- Settles O55: one equation for each kind of stream, then the range check. -/
theorem drawTakesTheNextAnswer : Obligations.DrawTakesTheNextAnswer := by
  unfold Obligations.DrawTakesTheNextAnswer
  refine ⟨RandomSource.draw_ahead, RandomSource.draw_fails, RandomSource.draw_repeats, RandomSource.draw_free,
    drawMany_finite, fun n => ?_, fun c r rest z hdraw => ⟨?_, fun hz => ⟨?_, ?_⟩⟩⟩
  · obtain ⟨hanswers, -⟩ := drawMany_answer n { ahead := [], tail := .free 0 }
    simp only [hanswers, answer_free, Nat.zero_add]
  · rintro k rfl hk
    exact drawRange_of_inRange hdraw hk
  · exact drawRange_of_not_inRange hdraw hz
  · rintro s wd ad rfl rfl
    exact keygen_traps_randomness hdraw hz

/-! ## The signing loop (43_protocol R265) -/

section
variable {c : Curve} {d e : Nat}

theorem signAttempt_of_ne_zero {k x y : Wide} (hpoint : toAffine c (scalarMult c k.toNat c.GX c.GY) = some (x, y))
    (hr : x.toNat % c.Q.toNat ≠ 0) (hs : (x.toNat % c.Q.toNat * d + k.toNat * e) % c.Q.toNat ≠ 0) :
    signAttempt c d e k = some (BitVec.ofNat 512 (x.toNat % c.Q.toNat),
      BitVec.ofNat 512 ((x.toNat % c.Q.toNat * d + k.toNat * e) % c.Q.toNat)) := by
  rcases signAttempt_cases c d e k with ⟨hnone, -⟩ | ⟨x', y', hsome, hcases⟩
  · rw [hpoint] at hnone
    cases hnone
  · obtain ⟨rfl, rfl⟩ : x = x' ∧ y = y' := by simpa using hpoint.symm.trans hsome
    rcases hcases with ⟨hr0, -⟩ | ⟨-, hs0, -⟩ | ⟨-, -, hattempt⟩
    · exact absurd hr0 hr
    · exact absurd hs0 hs
    · exact hattempt

variable {f : RandomSource → SignEnd} {n : Nat} {src rest : RandomSource}

theorem signLoop_of_signature {k r sg : Wide} (hdraw : src.draw = (.value k, rest)) (hk : InRange c k)
    (hattempt : signAttempt c d e k = some (r, sg)) : signLoop c d e f (n + 1) src = .signed r sg rest := by
  simp only [signLoop_succ, drawRange_of_inRange hdraw hk, hattempt]

theorem signLoop_of_not_inRange {z : Draw} (hdraw : src.draw = (z, rest))
    (hz : ∀ k, z = .value k → ¬ InRange c k) : signLoop c d e f (n + 1) src = .failed rest := by
  simp only [signLoop_succ, drawRange_of_not_inRange hdraw hz]

variable {cap : Option Nat} {H : Wide} {tries : List Draw}

/-- Capped or not, `sign` is a loop with attempts left after any number `m` below the cap: with no cap, any number
of attempts may be written out. -/
theorem signOf_eq_signLoop {m : Nat} (hcap : ∀ n, cap = some n → m < n) :
    ∃ f k, signOf c cap d H src = signLoop c d (eOf c H) f (m + (k + 1)) src := by
  cases cap with
  | none => exact ⟨_, 0, (signOf_uncapped c d H src).trans (signLoop_signFrom c d (eOf c H) _ src).symm⟩
  | some n =>
    obtain ⟨k, rfl⟩ := Nat.exists_eq_add_of_lt (hcap n rfl)
    exact ⟨_, k, rfl⟩

/-- Retries below the cap are used up, and an attempt is left. -/
theorem signOf_retries (htries : ∀ y ∈ tries, Retries c d (eOf c H) y)
    (hcap : ∀ n, cap = some n → tries.length < n) (hdraws : drawMany tries.length src = (tries, rest)) :
    ∃ f k, signOf c cap d H src = signLoop c d (eOf c H) f (k + 1) rest := by
  obtain ⟨f, k, hloop⟩ := signOf_eq_signLoop (c := c) (d := d) (H := H) (src := src) hcap
  exact ⟨f, k, hloop.trans (signLoop_retries c d _ f (k + 1) tries htries src rest hdraws)⟩

/-- As many retries as the cap allows. -/
theorem signOf_spent (htries : ∀ y ∈ tries, Retries c d (eOf c H) y)
    (hdraws : drawMany tries.length src = (tries, rest)) :
    signOf c (some tries.length) d H src = .failed rest :=
  signLoop_retries c d _ .failed 0 tries htries src rest hdraws

end

/-! ## SIGN (43_protocol R266) -/

/-- A SIGN word that names one destination twice is refused. -/
theorem decode_sign_of_same (wr : WDst) (wd : WSrc) : decode (encode (.sign wr wr wd)) = .illegalField := by
  refine decode_of_not_legal (row := .formatRDistinct .wd .wd .ws .zero .zero)
    (by rw [encode, bitsOf_op, formatR_op]; rfl) ?_
  rintro ⟨-, -, -, -, -, hdistinct⟩
  rw [encode, bitsOf_f1, bitsOf_f2, formatR_f1, formatR_f2] at hdistinct
  exact hdistinct rfl

section
variable {wr ws : WDst} {wd : WSrc} {s : State} {rest : RandomSource}

theorem sign_traps_msgLen (hne : wr ≠ ws) (hlong : s.params.msgCap < s.mlen.toNat) :
    ∃ t, exec (.sign wr ws wd) s = .next t ∧ Traps (.sign wr ws wd) .msgLen s t := by
  rw [exec, execSign, if_neg hne, withMessage_long _ hlong]
  exact ⟨_, rfl, Traps.raise _ _ s⟩

theorem sign_traps_randomness (hne : wr ≠ ws) (hfits : s.mlen.toNat ≤ s.params.msgCap)
    (hend : signOf s.params.curve s.params.signCap (s.wide wd).toNat (hash512 (memRead s.msg 0 s.mlen.toNat))
      s.source = .failed rest) :
    ∃ t, exec (.sign wr ws wd) s = .next t ∧ TrapsAfterDraws (.sign wr ws wd) .randomness rest s t := by
  rw [exec_sign wr ws wd s hne hfits, hend]
  exact ⟨_, rfl, TrapsAfterDraws.raise _ _ rest s⟩

theorem sign_writes {r sg : Wide} (hne : wr ≠ ws) (hfits : s.mlen.toNat ≤ s.params.msgCap)
    (hend : signOf s.params.curve s.params.signCap (s.wide wd).toNat (hash512 (memRead s.msg 0 s.mlen.toNat))
      s.source = .signed r sg rest) :
    ∃ t, exec (.sign wr ws wd) s = .next t ∧ t.w[wr] = r ∧ t.w[ws] = sg ∧ HashZero t ∧ t.source = rest ∧
      Frame { wide := [wr, ws], hash := true, source := true } s t := by
  rw [exec_sign wr ws wd s hne hfits, hend]
  have hwr : (((s.setSource rest).setW wr r).setW ws sg).w[wr] = r :=
    (State.setW_get_other _ ws wr sg hne).trans (State.setW_get_same _ wr r)
  exact ⟨_, rfl, hwr, State.setW_get_same _ ws sg, HashZero.zeroHash _, rfl,
    ((((Frame.refl _ s).setSource rest rfl).setW wr r (by simp)).setW ws sg (by simp)).setHash 0 0 0 rfl⟩

end

/-- Settles O57: the retries are used up, and the command follows the attempt or the end of the attempts after
them. -/
theorem signFollowsTheLoop : Obligations.SignFollowsTheLoop := by
  unfold Obligations.SignFollowsTheLoop
  intro wr ws wd s d e r tries z rest
  refine ⟨rfl, decode_sign_of_same wr wd, sign_traps_msgLen, ?_⟩
  rintro hne hfits rfl rfl htries
  refine ⟨fun hcap hdraws => ?_, fun hcap hdraws => ?_⟩
  · obtain ⟨mid, htriesDraws, hdraw⟩ := drawMany_concat hdraws
    obtain ⟨f, n, hloop⟩ := signOf_retries htries hcap htriesDraws
    refine ⟨?_, fun hz => ?_⟩
    · rintro k x y rfl hk hpoint rfl hr hs
      have hattempt := signAttempt_of_ne_zero hpoint hr hs
      exact sign_writes hne hfits (hloop.trans (signLoop_of_signature hdraw hk hattempt))
    · exact sign_traps_randomness hne hfits (hloop.trans (signLoop_of_not_inRange hdraw hz))
  · refine sign_traps_randomness hne hfits ?_
    rw [hcap]
    exact signOf_spent htries hdraws

/-! ## Verification (43_protocol R267) -/

/-- A residue that is inverse to `a` is the one Euclid's algorithm finds. -/
theorem invMod_eq_some {a m v : Nat} (hv : v < m) (hav : a * v % m = 1 % m) : invMod a m = some v := by
  have hgcd : Nat.gcd (a % m) m = 1 :=
    (Nat.mod_modEq a m).gcd_eq.trans (Nat.coprime_of_mul_modEq_one v hav)
  obtain ⟨u, hinv, hu, hau⟩ := invMod_of_coprime hv.pos hgcd
  rw [hinv, eq_of_mul_mod_eq_one hu hv hau hav]

section
variable {c : Curve} {H r sg xq yq : Wide}

theorem verifyOf_of_out_of_range
    (h : r.toNat < 1 ∨ c.Q.toNat - 1 < r.toNat ∨ sg.toNat < 1 ∨ c.Q.toNat - 1 < sg.toNat) :
    verifyOf c H r sg xq yq = false := if_pos h

theorem verifyOf_of_not_coprime (h : Nat.gcd (eOf c H % c.Q.toNat) c.Q.toNat ≠ 1) :
    verifyOf c H r sg xq yq = false := by
  simp only [verifyOf, invMod_of_not_coprime h, ite_self]

/-- With the components in range and `v` the inverse of the hash value, the verdict rests on one sum of points. -/
theorem verifyOf_of_inverse {v : Nat} (hr : InRange c r) (hsg : InRange c sg) (hv : v < c.Q.toNat)
    (hev : eOf c H * v % c.Q.toNat = 1 % c.Q.toNat) :
    verifyOf c H r sg xq yq =
      ((toAffine c (jacobiAdd c (scalarMult c (sg.toNat * v % c.Q.toNat) c.GX c.GY)
        (scalarMult c (c.Q.toNat - r.toNat * v % c.Q.toNat) xq yq))).any
          fun p => decide (p.1.toNat % c.Q.toNat = r.toNat)) := by
  obtain ⟨hr1, hrQ⟩ := hr
  obtain ⟨hs1, hsQ⟩ := hsg
  have hrange : ¬ (r.toNat < 1 ∨ c.Q.toNat - 1 < r.toNat ∨ sg.toNat < 1 ∨ c.Q.toNat - 1 < sg.toNat) := by omega
  simp only [verifyOf, if_neg hrange, invMod_eq_some hv hev, mulMod, redMod]
  split
  · next hnone => rw [hnone]; rfl
  · next hsome => rw [hsome]; rfl

end

/-! ## VERIFY (43_protocol R268) -/

section
variable {wd : WDst} {wr ws : WSrc} {ap : ASrc} {s : State}

theorem verify_traps_absent (h : (s.aff ap).absent = true) :
    ∃ t, exec (.verify wd wr ws ap) s = .next t ∧ Traps (.verify wd wr ws ap) .absent s t := by
  rw [exec, execVerify]
  exact withPoint_traps h

theorem verify_traps_msgLen (h : (s.aff ap).absent = false) (hlong : s.params.msgCap < s.mlen.toNat) :
    ∃ t, exec (.verify wd wr ws ap) s = .next t ∧ Traps (.verify wd wr ws ap) .msgLen s t := by
  rw [exec, execVerify, withPoint_present _ h, withMessage_long _ hlong]
  exact ⟨_, rfl, Traps.raise _ _ s⟩

theorem verify_writes (h : (s.aff ap).absent = false) (hfits : s.mlen.toNat ≤ s.params.msgCap) :
    ∃ t, exec (.verify wd wr ws ap) s = .next t ∧ HashZero t ∧ Frame { wide := [wd], hash := true } s t ∧
      t.w[wd] = if verifyOf s.params.curve (hash512 (memRead s.msg 0 s.mlen.toNat)) (s.wide wr) (s.wide ws)
        (s.aff ap).X (s.aff ap).Y then 1 else 0 := by
  rw [exec, execVerify, withPoint_present _ h, withMessage_fits _ hfits]
  exact ⟨_, rfl, HashZero.zeroHash _, frame_setW_zeroHash s wd _, State.setW_get_same s wd _⟩

end

theorem Params.two_le_order_of_wf {p : Params} (h : p.wf = true) : 2 ≤ p.curve.Q.toNat := by
  simp only [Params.wf, Bool.and_eq_true, decide_eq_true_eq] at h
  obtain ⟨⟨⟨⟨⟨-, horder⟩, -⟩, -⟩, -⟩, -⟩ := h
  exact horder

/-- Settles O60: the two checks, then one write of the verdict, which each case of the verification gives. -/
theorem verifyWritesTheVerdict : Obligations.VerifyWritesTheVerdict := by
  unfold Obligations.VerifyWritesTheVerdict
  rintro wd wr ws ap s c q r sg e hwf rfl rfl rfl rfl rfl
  refine ⟨rfl, verify_traps_absent, verify_traps_msgLen, fun hpoint hfits => ?_⟩
  obtain ⟨t, hexec, hzero, hframe, hverdict⟩ := verify_writes (wd := wd) (wr := wr) (ws := ws) hpoint hfits
  refine ⟨t, hexec, hzero, hframe, fun hrange => ?_, fun hgcd => ?_, ?_⟩
  · rw [hverdict, verifyOf_of_out_of_range hrange]
    rfl
  · rw [hverdict, verifyOf_of_not_coprime hgcd]
    rfl
  · rintro hr1 hrQ hs1 hsQ v hv hev p rfl
    have hev' := hev.trans (Nat.mod_eq_of_lt (Params.two_le_order_of_wf hwf)).symm
    rw [hverdict, verifyOf_of_inverse ⟨hr1, hrQ⟩ ⟨hs1, hsQ⟩ hv hev']
    refine ⟨fun x y hsum => ?_, fun hsum => ?_⟩
    · simp only [hsum, Option.any_some, decide_eq_true_eq]
    · rw [hsum]
      rfl

end Sys2Proof.Machine

/-!
PROOFS. Reset (70_reset_and_hazards): the registers and flags of the reset state, and the step that serves a reset.
-/

namespace Sys2Proof.Machine

/-- PFLAGS with every flag set (10_state R37). -/
theorem State.pflags_of_all_set {s : State} (hinf : ∀ i : JReg, s.j[i].inf = true)
    (habsent : ∀ i : ADst, s.a[i].absent = true) : s.pflags = 0x00000F0F := by
  rw [State.pflags, show s.j[0].inf = true from hinf 0, show s.j[1].inf = true from hinf 1,
    show s.j[2].inf = true from hinf 2, show s.j[3].inf = true from hinf 3,
    show s.a[0].absent = true from habsent 0, show s.a[1].absent = true from habsent 1,
    show s.a[2].absent = true from habsent 2, show s.a[3].absent = true from habsent 3]
  decide

section
variable (p : Params) (source : RandomSource) (pending : List HostEvent) (replies : List Reply)

/-! ## The reset state (10_state R44) -/

@[simp] theorem State.resetOf_j (i : JReg) : (State.resetOf p source pending replies).j[i] = Jacobian.ident :=
  Vector.getElem_replicate i.isLt

@[simp] theorem State.resetOf_a (i : ADst) : (State.resetOf p source pending replies).a[i] = Affine.none :=
  Vector.getElem_replicate i.isLt

/-- After reset every flag that PFLAGS shows is set (10_state R37). -/
theorem State.resetOf_pflags : (State.resetOf p source pending replies).pflags = 0x00000F0F := by
  have hinf : ∀ i : JReg, (State.resetOf p source pending replies).j[i].inf = true := fun i => by
    rw [State.resetOf_j, Jacobian.ident]
  have habsent : ∀ i : ADst, (State.resetOf p source pending replies).a[i].absent = true := fun i => by
    rw [State.resetOf_a, Affine.none]
  exact State.pflags_of_all_set hinf habsent

theorem HashZero.resetOf : HashZero (State.resetOf p source pending replies) := ⟨rfl, rfl, rfl⟩

end

/-! ## The step that serves a reset (70_reset_and_hazards R331, R332) -/

/-- A reset is served at once, also behind a SIGN that never completes. -/
theorem step_reset {s : State} {rest : List HostEvent} (hpend : s.pending = .reset :: rest) :
    step s = .next (State.resetOf s.params s.source rest s.replies) := by
  rw [step, serveNext]
  cases hsign : s.signing with
  | some g =>
    rw [stuckStep, hpend]
    rfl
  | none =>
    rw [hpend]
    rfl

/-- Settles O18: the step leads to the reset state with the parameters and the stream of the state before. -/
theorem resetLeavesTheStatedValues : Obligations.ResetLeavesTheStatedValues := by
  unfold Obligations.ResetLeavesTheStatedValues
  intro s rest hpend
  exact ⟨_, step_reset hpend, rfl, rfl, rfl, HashZero.resetOf _ _ _ _, State.resetOf_j _ _ _ _,
    State.resetOf_a _ _ _ _, rfl, rfl, rfl, rfl, State.resetOf_pflags _ _ _ _, rfl, rfl⟩

end Sys2Proof.Machine

/-!
PROOFS. The encoding both ways (30_encoding R94, R95, R98): the encoder's word decodes to its command, the word of a
decoded command is the word decoded, and a word that is legal for its row is a command.
-/

namespace Sys2Proof.Machine

open Sys2Proof.Laws

/-! ## The word of a command decodes to it -/

/-- An arm that has read a well-formed command answers it. -/
theorem legalFields_some {i : Instr} (h : i.wellFormed = true) : legalFields (some i) = .instr i := if_pos h

theorem legalFields_eq_instr_iff {r : Option Instr} {i : Instr} :
    legalFields r = .instr i ↔ r = some i ∧ i.wellFormed = true := by
  cases r with
  | none => simp [legalFields]
  | some j =>
    rw [legalFields, Option.some.injEq]
    split
    · next hj => exact ⟨fun h => Decoded.instr.inj h ▸ ⟨rfl, hj⟩, fun ⟨h, _⟩ => congrArg _ h⟩
    · next hj => exact ⟨nofun, fun ⟨h, hi⟩ => absurd (h ▸ hi) hj⟩

/-- The decoder inverts the encoder: the word's opcode selects the command's arm, which reads each operand back from
the operand's own field. Where a command has a condition of its own, the last step meets it. -/
theorem decode_encode (i : Instr) (h : i.wellFormed = true) : decode (encode i) = .instr i := by
  refine Eq.trans ?_ (legalFields_some h)
  cases i with
  | liw wd imm21 =>
    unfold encode decode
    rw [formatI_op]
    refine congrArg legalFields ?_
    rw [formatI_f1, formatI_imm21, wdOf_wdField]
    rfl
  | _ =>
    unfold encode decode
    rw [formatR_op]
    refine congrArg legalFields ?_
    simp only [formatR_f1, formatR_f2, formatR_f3, formatR_f4, formatR_imm6, wdOf_wdField, wsOf_wsField, jOf_jField,
      adOf_adField, asOf_asField, unused_zero]
    rfl

/-- Settles O1: every operand is read back from its own field. -/
theorem decodeOfEncodeIsTheCommand : Obligations.DecodeOfEncodeIsTheCommand := by
  unfold Obligations.DecodeOfEncodeIsTheCommand
  exact decode_encode

/-! ## The command of a word encodes to it -/

/-- The field of an operand of the class. -/
def FieldClass.field : (k : FieldClass) → k.Operand → BitVec 5
  | .wd => wdField
  | .ws => wsField
  | .j => jField
  | .ad => adField
  | .as => asField
  | .zero => fun _ => 0

/-- A field that reads as an operand is that operand's field. -/
theorem FieldClass.field_of_read {k : FieldClass} {f : BitVec 5} {x : k.Operand} (h : k.read f = some x) :
    k.field x = f := by
  cases k with
  | wd => exact wdField_of_wdOf f x h
  | ws => exact wsField_of_wsOf f x h
  | j => exact jField_of_jOf f x h
  | ad => exact adField_of_adOf f x h
  | as => exact asField_of_asOf f x h
  | zero => exact (eq_zero_of_unused f h).symm

/-- A field below the bound of its class reads as some operand. -/
theorem FieldClass.exists_read_of_lt {k : FieldClass} {f : BitVec 5} (h : f.toNat < k.bound) :
    ∃ x, k.read f = some x := by
  refine Option.isSome_iff_exists.mp ?_
  cases k with
  | wd => revert f; decide
  | ws => revert f; decide
  | j => revert f; decide
  | ad => revert f; decide
  | as => revert f; decide
  | zero => revert f; decide

/-- What `imm6` names in a row of the class: nothing where it is unused, else its own value. -/
abbrev ImmClass.Operand : ImmClass → Type
  | .zero => Unit
  | .round => BitVec 6
  | .count => BitVec 6

/-- The decoder's reading of `imm6`; the range of a round number is the command's own condition. -/
abbrev ImmClass.read : (k : ImmClass) → BitVec 6 → Option k.Operand
  | .zero => unused
  | .round => some
  | .count => some

/-- The `imm6` of an operand of the class. -/
def ImmClass.field : (k : ImmClass) → k.Operand → BitVec 6
  | .zero => fun _ => 0
  | .round => id
  | .count => id

theorem ImmClass.field_of_read {k : ImmClass} {n : BitVec 6} {x : k.Operand} (h : k.read n = some x) :
    k.field x = n := by
  cases k with
  | zero => exact (eq_zero_of_unused n h).symm
  | round => exact (Option.some.inj h).symm
  | count => exact (Option.some.inj h).symm

theorem ImmClass.exists_read_of_legal {k : ImmClass} {n : BitVec 6} (h : k.legal n.toNat) :
    ∃ x, k.read n = some x := by
  cases k with
  | zero => exact ⟨(), if_pos ((toNat_eq_zero n).mp h)⟩
  | round => exact ⟨n, rfl⟩
  | count => exact ⟨n, rfl⟩

/-- What an arm of the decoder reads in the word `c` of the row `row`: a command only where `c` is its word, and
some command where the fields are legal. -/
def OpRow.ReadsAs (row : OpRow) (c : Command) (r : Option Instr) : Prop :=
  (∀ i, r = some i → encode i = c) ∧ (row.legal c → ∃ i, r = some i)

section
variable {c : Command} {k1 k2 k3 k4 : FieldClass} {ki : ImmClass}

/-- An arm of format R reads the four register fields and `imm6`, each by its class, and nothing else. -/
theorem readsAs_formatR {row : OpRow} (hlegal : row.legal c → OpRow.legal c (.formatR k1 k2 k3 k4 ki))
    (op : BitVec 6) (i : k1.Operand → k2.Operand → k3.Operand → k4.Operand → ki.Operand → Instr)
    (hencode : ∀ x1 x2 x3 x4 n,
      encode (i x1 x2 x3 x4 n) = formatR op (k1.field x1) (k2.field x2) (k3.field x3) (k4.field x4) (ki.field n))
    (hop : c.op.toNat = op.toNat) :
    row.ReadsAs c (do
      let x1 ← k1.read c.f1; let x2 ← k2.read c.f2; let x3 ← k3.read c.f3; let x4 ← k4.read c.f4
      let n ← ki.read c.imm6
      return i x1 x2 x3 x4 n) := by
  refine ⟨fun j hj => ?_, fun h => ?_⟩
  · simp only [Option.bind_eq_bind, Option.bind_eq_some_iff, Option.pure_def, Option.some.injEq] at hj
    obtain ⟨x1, h1, x2, h2, x3, h3, x4, h4, n, hn, rfl⟩ := hj
    rw [hencode, ← BitVec.eq_of_toNat_eq hop, FieldClass.field_of_read h1, FieldClass.field_of_read h2,
      FieldClass.field_of_read h3, FieldClass.field_of_read h4, ImmClass.field_of_read hn, formatR_fields]
  · obtain ⟨hf1, hf2, hf3, hf4, himm⟩ := hlegal h
    rw [bitsOf_f1] at hf1
    rw [bitsOf_f2] at hf2
    rw [bitsOf_f3] at hf3
    rw [bitsOf_f4] at hf4
    rw [bitsOf_imm6] at himm
    obtain ⟨x1, h1⟩ := FieldClass.exists_read_of_lt hf1
    obtain ⟨x2, h2⟩ := FieldClass.exists_read_of_lt hf2
    obtain ⟨x3, h3⟩ := FieldClass.exists_read_of_lt hf3
    obtain ⟨x4, h4⟩ := FieldClass.exists_read_of_lt hf4
    obtain ⟨n, hn⟩ := ImmClass.exists_read_of_legal himm
    exact ⟨_, by rw [h1, h2, h3, h4, hn]; rfl⟩

/-- LIW's arm reads one register field and `imm21` (30_encoding R93). -/
theorem readsAs_liw (hop : c.op = 0x08) :
    (OpRow.formatI .wd).ReadsAs c (do let x ← wdOf c.f1; return .liw x c.imm21) := by
  refine ⟨fun j hj => ?_, fun h => ?_⟩
  · simp only [Option.bind_eq_bind, Option.bind_eq_some_iff, Option.pure_def, Option.some.injEq] at hj
    obtain ⟨x, hx, rfl⟩ := hj
    rw [encode, wdField_of_wdOf _ _ hx, ← hop, formatI_fields]
  · rw [OpRow.legal, bitsOf_f1] at h
    obtain ⟨x, hx⟩ := FieldClass.exists_read_of_lt (k := .wd) h
    exact ⟨_, by rw [show wdOf c.f1 = some x from hx]; rfl⟩

end

/-- The fields SIGN's row asks for are those of a row of format R, and distinct. -/
theorem OpRow.legal_of_distinct {c : Command} {k1 k2 k3 k4 : FieldClass} {ki : ImmClass}
    (h : OpRow.legal c (.formatRDistinct k1 k2 k3 k4 ki)) : OpRow.legal c (.formatR k1 k2 k3 k4 ki) := by
  obtain ⟨hf1, hf2, hf3, hf4, himm, -⟩ := h
  exact ⟨hf1, hf2, hf3, hf4, himm⟩

/-- The arm of an assigned opcode reads the word by the classes of its row. -/
theorem decode_of_rowOf_eq_some {c : Command} {row : OpRow} (hrow : rowOf (bitsOf c 26 6) = some row) :
    ∃ r, decode c = legalFields r ∧ row.ReadsAs c r := by
  rw [bitsOf_op] at hrow
  unfold rowOf at hrow
  split at hrow
  case h_37 => cases hrow
  all_goals
    rename_i hnum
    have hclasses := Option.some.inj hrow
    unfold decode
    rw [hnum]
  case h_8 => exact ⟨_, rfl, hclasses ▸ readsAs_liw (BitVec.eq_of_toNat_eq hnum)⟩
  case h_35 =>
    subst hclasses
    have hreads := readsAs_formatR (c := c) (k1 := .wd) (k2 := .wd) (k3 := .ws) (k4 := .zero) (ki := .zero)
      OpRow.legal_of_distinct
    exact ⟨_, rfl, hreads _ _ (fun _ _ _ _ _ => rfl) hnum⟩
  all_goals
    have hreads := readsAs_formatR (Eq.mpr (congrArg (OpRow.legal c) hclasses))
    exact ⟨_, rfl, hreads _ _ (fun _ _ _ _ _ => rfl) hnum⟩

/-- Settles O2: the arm of the word's opcode answers only commands whose word it is. -/
theorem decodedWordIsItsEncoding : Obligations.DecodedWordIsItsEncoding := by
  unfold Obligations.DecodedWordIsItsEncoding
  intro c i hdec
  cases hrow : rowOf (bitsOf c 26 6) with
  | none =>
    rw [decode_of_rowOf_eq_none hrow] at hdec
    cases hdec
  | some row =>
    obtain ⟨r, harm, hencode, -⟩ := decode_of_rowOf_eq_some hrow
    obtain ⟨hr, hwf⟩ := legalFields_eq_instr_iff.mp (harm.symm.trans hdec)
    exact ⟨hencode i hr, hwf⟩

/-! ## A legal word is a command -/

/-- A command whose word is legal for its row is well formed: only KNXT and SIGN have conditions of their own, and
their rows have the same ones. -/
theorem wellFormed_of_legal {i : Instr} {row : OpRow} (hrow : rowOf (bitsOf (encode i) 26 6) = some row)
    (hlegal : row.legal (encode i)) : i.wellFormed = true := by
  cases i with
  | knxt wd wa imm6 =>
    rw [encode, bitsOf_op, formatR_op] at hrow
    obtain rfl := Option.some.inj hrow
    obtain ⟨-, -, -, -, hround⟩ := hlegal
    rw [encode, bitsOf_imm6, formatR_imm6] at hround
    exact decide_eq_true hround
  | sign wr ws wd =>
    rw [encode, bitsOf_op, formatR_op] at hrow
    obtain rfl := Option.some.inj hrow
    obtain ⟨-, -, -, -, -, hdistinct⟩ := hlegal
    rw [encode, bitsOf_f1, bitsOf_f2, formatR_f1, formatR_f2] at hdistinct
    exact decide_eq_true fun hsame => hdistinct (by rw [hsame])
  | _ => rfl

/-- Settles O3: the arm reads some command, which is well formed since its word is the legal one. -/
theorem legalWordIsACommand : Obligations.LegalWordIsACommand := by
  unfold Obligations.LegalWordIsACommand
  intro c row hrow hlegal
  obtain ⟨r, harm, hencode, hreads⟩ := decode_of_rowOf_eq_some hrow
  obtain ⟨i, rfl⟩ := hreads hlegal
  obtain rfl := hencode i rfl
  exact ⟨i, harm.trans (legalFields_some (wellFormed_of_legal hrow hlegal))⟩

/-- Settles O6: each word is the encoding of its command, or its row refuses it, or its opcode has no row. -/
theorem wordsOfTheSpecDecode : Obligations.WordsOfTheSpecDecode := by
  unfold Obligations.WordsOfTheSpecDecode
  refine ⟨decode_encode (.addm 2 (.gen 0) (.gen 1) (.gen 3)) rfl, decode_encode (.movw 5 .cq) rfl,
    decode_encode (.liw 0 0x1FFFFF) rfl, decode_encode (.pmadd 1 0 .ag) rfl,
    decode_encode (.jset 0 (.gen 0) (.gen 1) (.gen 2)) rfl, decode_encode (.gcmp 3 .hn .hh (.gen 2)) rfl,
    decode_encode (.hfin 2 (.gen 1) 8) rfl, decode_encode (.sign 1 2 (.gen 0)) rfl,
    decode_encode (.verify 3 (.gen 1) (.gen 2) (.reg 0)) rfl, ?_, decode_of_rowOf_eq_none rfl⟩
  exact decode_knxt_of_round (wd := 1) (wa := .gen 0) (n := 13) (.inr (by decide))

end Sys2Proof.Machine

/-!
PROOFS. The rules of the whole machine: what one command leaves unchanged or records (60_exceptions R292 to R294),
all that one step can lead to, and the invariant that every step keeps.
-/

namespace Sys2Proof.Machine

open Sys2Proof.Laws

/-! ## What a command leaves unchanged -/

/-- A command that answers a next state has ended there in one of its three ways. -/
theorem ends_of_exec {i : Instr} {s t : State} (h : exec i s = .next t) : t.msg = s.msg ∧ Ends i s t := by
  obtain ⟨u, hu, hmsg, hends⟩ := exec_ends i s
  obtain rfl : u = t := Host.Outcome.next.inj (hu.symm.trans h)
  exact ⟨hmsg, hends⟩

theorem Ends.mlen {i : Instr} {s t : State} (h : Ends i s t) : t.mlen = s.mlen :=
  h.exists_frame.elim fun _ frame => frame.mlen

/-- Settles O21: every way of ending is framed, and no frame lets the message or MLEN differ. -/
theorem noCommandWritesTheMessage : Obligations.NoCommandWritesTheMessage := by
  unfold Obligations.NoCommandWritesTheMessage
  intro i s t h
  obtain ⟨hmsg, hends⟩ := ends_of_exec h
  exact ⟨hmsg, hends.mlen⟩

/-- The commands that draw (43_protocol R271). -/
theorem Instr.keygen_or_sign_of_draws {i : Instr} (h : i.draws = true) :
    (∃ wd ad, i = .keygen wd ad) ∨ (∃ wr ws wd, i = .sign wr ws wd) := by
  cases i with
  | keygen wd ad => exact .inl ⟨wd, ad, rfl⟩
  | sign wr ws wd => exact .inr ⟨wr, ws, wd, rfl⟩
  | _ => cases h

/-- A command that leaves another stream behind is one whose scope holds the stream. -/
theorem Ends.draws_of_source_ne {i : Instr} {s t : State} (h : Ends i s t) (hne : t.source ≠ s.source) :
    i.draws = true := by
  by_contra hdraws
  rw [Bool.not_eq_true] at hdraws
  cases h with
  | completes frame => exact hne (frame.source hdraws)
  | faults e listed records frame => exact hne (frame.source hdraws)
  | inProgress rest stays =>
    obtain ⟨⟨g, -, rfl⟩, -, -⟩ := stays
    cases hdraws

/-- Settles O22: the stream is in the scope of KEYGEN and SIGN only. -/
theorem onlyKeygenAndSignDraw : Obligations.OnlyKeygenAndSignDraw := by
  unfold Obligations.OnlyKeygenAndSignDraw
  intro i s t h hne
  obtain ⟨-, hends⟩ := ends_of_exec h
  exact Instr.keygen_or_sign_of_draws (hends.draws_of_source_ne hne)

/-- Settles O24: the three ways in which a command ends. -/
theorem commandCompletesOrFaults : Obligations.CommandCompletesOrFaults := by
  unfold Obligations.CommandCompletesOrFaults
  intro i s t h
  obtain ⟨-, hends⟩ := ends_of_exec h
  cases hends with
  | completes frame => exact .inl frame
  | faults e listed records frame => exact .inr (.inl ⟨e, records, frame⟩)
  | inProgress rest stays => exact .inr (.inr ⟨rest, stays⟩)

/-- No command writes the error registers on completion (60_exceptions R294). -/
theorem Instr.scope_error (i : Instr) : i.scope.error = false := by
  cases i <;> rfl

/-- No command that completes is in progress. -/
theorem Instr.scope_signing (i : Instr) : i.scope.signing = false := by
  cases i <;> rfl

/-- Settles O25: a command that completes, or is in progress for ever, leaves the error registers as they were, and
a fault of a well-formed command is a listed one. -/
theorem commandFaultsAreTheListedOnes : Obligations.CommandFaultsAreTheListedOnes := by
  unfold Obligations.CommandFaultsAreTheListedOnes
  intro i s t hwf herr h hfault
  obtain ⟨-, hends⟩ := ends_of_exec h
  cases hends with
  | completes frame =>
    obtain ⟨hsame, -⟩ := frame.error (Instr.scope_error i)
    simp [hsame, herr] at hfault
  | faults e listed records frame => exact ⟨e, listed.resolve_right (by simp [hwf]), records⟩
  | inProgress rest stays =>
    obtain ⟨-, -, frame⟩ := stays
    obtain ⟨hsame, -⟩ := frame.error rfl
    simp [hsame, herr] at hfault

/-- Settles O26: each command ends in one of its ways, and each step keeps the parameters in some next state. -/
theorem everyStepAnswersANextState : Obligations.EveryStepAnswersANextState := by
  unfold Obligations.EveryStepAnswersANextState
  refine ⟨fun i s => ?_, fun s => ?_⟩
  · obtain ⟨t, ht, -⟩ := exec_ends i s
    exact ⟨t, ht⟩
  · obtain ⟨t, ht, -⟩ := step_params s
    exact ⟨t, ht⟩

/-! ## All that a step can lead to -/

/-- Settles O8: of the branches of the step only the idle one is left. -/
theorem idleStepHoldsTheState : Obligations.IdleStepHoldsTheState := by
  unfold Obligations.IdleStepHoldsTheState
  intro s hsign hpend
  rw [step, serveNext, hsign, hpend]

/-- Settles O9: only a reset is taken behind a SIGN that never completes. -/
theorem stuckSignServesNoTransaction : Obligations.StuckSignServesNoTransaction := by
  unfold Obligations.StuckSignServesNoTransaction
  intro s g hsign hreset
  obtain ⟨rest, hpend, -⟩ | ⟨-, hstill⟩ := stuckStep_cases s
  · exact absurd hpend (hreset rest)
  · rw [step, serveNext, hsign]
    exact hstill

/-- All that a word written to CMD can do: dropped, a decode fault, or the command's own rule (10_state R32). -/
theorem issue_cases {word : Command} {s t : State} (h : issue word s = .next t) :
    (s.err = true ∧ t = s) ∨
    (s.err = false ∧ ∃ e, t = s.raise e word) ∨
    (s.err = false ∧ ∃ i, decode word = .instr i ∧ exec i s = .next t) := by
  cases herr : s.err with
  | true => exact .inl ⟨rfl, Host.Outcome.next.inj (h.symm.trans (issue_dropped herr))⟩
  | false =>
    refine .inr ?_
    cases hdec : decode word with
    | illegalOp => exact .inl ⟨rfl, _, Host.Outcome.next.inj (h.symm.trans (issue_illegalOp herr hdec))⟩
    | illegalField => exact .inl ⟨rfl, _, Host.Outcome.next.inj (h.symm.trans (issue_illegalField herr hdec))⟩
    | instr i => exact .inr ⟨rfl, i, rfl, (issue_instr herr hdec).symm.trans h⟩

/-- The states a step from `s` can lead to, by the event it serves. -/
inductive StepTo (s : State) : State → Prop where
  | holds : StepTo s s
  | resets (rest : List HostEvent) (hpend : s.pending = .reset :: rest) :
    StepTo s (State.resetOf s.params s.source rest s.replies)
  /-- a read, a write that is refused, or a write to ERRCLR with bit 0 clear -/
  | answers (rest : List HostEvent) (r : Reply) (hsign : s.signing = none) :
    StepTo s (State.answer { s with pending := rest } r)
  | commands (word : Command) (rest : List HostEvent) (u t : State) (hsign : s.signing = none)
    (hpend : s.pending = .write 0x0000 word :: rest) (hissue : issue word { s with pending := rest } = .next u)
    (ht : t = u ∨ t = u.answer .ok) : StepTo s t
  | clears (d : BusWord) (rest : List HostEvent) (hsign : s.signing = none)
    (hpend : s.pending = .write 0x0010 d :: rest) (hbit : d.getLsbD 0 = true) :
    StepTo s (State.answer (State.clearError { s with pending := rest }) .ok)
  | writesMlen (d : BusWord) (rest : List HostEvent) (hsign : s.signing = none) :
    StepTo s (State.answer { s with pending := rest, mlen := d } .ok)
  | writesWide (i : WDst) (v : Wide) (rest : List HostEvent) (hsign : s.signing = none) :
    StepTo s (State.answer (State.setW { s with pending := rest } i v) .ok)
  | writesMsg (k : Nat) (d : BusWord) (rest : List HostEvent) (hsign : s.signing = none)
    (hlast : k + 3 < s.params.msgCap) :
    StepTo s (State.answer { s with pending := rest, msg := s.msg.writeBus k d } .ok)

theorem eq_answer_of_completeWrite {u t : State} (h : completeWrite (.next u) = .next t) (hended : u.signing = none) :
    t = u.answer .ok :=
  Host.Outcome.next.inj (h.symm.trans (completeWrite_ended hended))

/-- A completed write ends its state as it is, or answered. -/
theorem eq_or_answer_of_completeWrite {u t : State} (h : completeWrite (.next u) = .next t) :
    t = u ∨ t = u.answer .ok := by
  cases hsign : u.signing with
  | none => exact .inr (eq_answer_of_completeWrite h hsign)
  | some g => exact .inl (Host.Outcome.next.inj (h.symm.trans (completeWrite_stuck hsign)))

/-- The effect of a slot that takes the write, with no command in progress. -/
theorem stepTo_of_slotWrite {s t : State} {addr : HostAddr} {d : BusWord} {rest : List HostEvent} {slot : PortSlot}
    {r : Result} (hsign : s.signing = none) (hpend : s.pending = .write addr d :: rest)
    (hslot : slotOf s.params.msgCap addr = some slot) (hr : slotWrite { s with pending := rest } d slot = some r)
    (h : completeWrite r = .next t) : StepTo s t := by
  obtain ⟨haddr, hmap⟩ := slotOf_eq_some_iff.mp hslot
  cases slot with
  | cmd =>
    obtain rfl := Option.some.inj hr
    obtain rfl : addr = 0x0000 := BitVec.eq_of_toNat_eq haddr
    obtain ⟨u, hu, -⟩ := issue_keeps d { s with pending := rest }
    rw [hu] at h
    exact .commands d rest u t hsign hpend hu (eq_or_answer_of_completeWrite h)
  | errClr =>
    obtain rfl := Option.some.inj hr
    obtain rfl : addr = 0x0010 := BitVec.eq_of_toNat_eq haddr
    split at h
    · next hbit =>
      obtain rfl := eq_answer_of_completeWrite h hsign
      exact .clears d rest hsign hpend hbit
    · obtain rfl := eq_answer_of_completeWrite h hsign
      exact .answers rest .ok hsign
  | mlen =>
    obtain rfl := Option.some.inj hr
    obtain rfl := eq_answer_of_completeWrite h hsign
    exact .writesMlen d rest hsign
  | msg k =>
    obtain rfl := Option.some.inj hr
    obtain rfl := eq_answer_of_completeWrite h hsign
    exact .writesMsg k d rest hsign hmap.2
  | wide w k =>
    cases w with
    | gen i =>
      obtain rfl := Option.some.inj hr
      obtain rfl := eq_answer_of_completeWrite h hsign
      exact .writesWide i _ rest hsign
    | cp | ca | cb | cq | cgx | cgy | hh | hn | hs => cases hr
  | status | errCode | errCmd | pflags => cases hr

theorem stepTo_of_step {s t : State} (h : step s = .next t) : StepTo s t := by
  obtain ⟨g, hsign, hstuck⟩ | ⟨-, -, hidle⟩ | ⟨e, rest, hsign, hpend, hserve⟩ := step_cases s
  · obtain ⟨rest, hpend, hreset⟩ | ⟨-, hstill⟩ := stuckStep_cases s
    · obtain rfl := Host.Outcome.next.inj ((hstuck.trans hreset).symm.trans h)
      exact .resets rest hpend
    · obtain rfl := Host.Outcome.next.inj ((hstuck.trans hstill).symm.trans h)
      exact .holds
  · obtain rfl := Host.Outcome.next.inj (hidle.symm.trans h)
    exact .holds
  · rw [hserve] at h
    cases e with
    | read addr =>
      obtain rfl := Host.Outcome.next.inj h
      exact .answers rest _ hsign
    | reset =>
      obtain rfl := Host.Outcome.next.inj h
      exact .resets rest hpend
    | write addr d =>
      obtain hrefused | ⟨slot, r, hslot, hr, hwrite⟩ := hostWrite_cases { s with pending := rest } addr d
      · obtain rfl := Host.Outcome.next.inj (hrefused.symm.trans h)
        exact .answers rest _ hsign
      · exact stepTo_of_slotWrite hsign hpend hslot hr (hwrite.symm.trans h)

/-- Settles O15: a word written to CMD is dropped, and of the other events only a reset and ERRCLR write the error
registers. -/
theorem recordedFaultStaysUntilCleared : Obligations.RecordedFaultStaysUntilCleared := by
  unfold Obligations.RecordedFaultStaysUntilCleared
  intro s t herr h
  cases stepTo_of_step h with
  | resets rest hpend => exact .inr (.inl ⟨rest, hpend⟩)
  | clears d rest hsign hpend hbit => exact .inr (.inr ⟨d, rest, hpend, hbit⟩)
  | commands word rest u t hsign hpend hissue ht =>
    have hdropped := issue_dropped (word := word) (s := { s with pending := rest }) herr
    obtain rfl := Host.Outcome.next.inj (hdropped.symm.trans hissue)
    obtain rfl | rfl := ht <;> exact .inl ⟨herr, rfl, rfl⟩
  | _ => exact .inl ⟨herr, rfl, rfl⟩

/-- The commands whose rule writes the hash state (10_state R24). -/
theorem Instr.hash_command_of_scope {i : Instr} (h : i.scope.hash = true) :
    i = .hinit ∨ (∃ wm, i = .hblk wm) ∨ (∃ wd wm n, i = .hfin wd wm n) ∨ (∃ wd, i = .hash wd) ∨
      (∃ wr ws wd, i = .sign wr ws wd) ∨ (∃ wd wr ws ap, i = .verify wd wr ws ap) := by
  cases i with
  | hinit => simp
  | hblk wm => simp
  | hfin wd wm n => simp
  | hash wd => simp
  | sign wr ws wd => simp
  | verify wd wr ws ap => simp
  | _ => cases h

theorem Ends.hash {i : Instr} {s t : State} (h : Ends i s t) (hscope : i.scope.hash = false) :
    t.hh = s.hh ∧ t.hn = s.hn ∧ t.hs = s.hs := by
  cases h with
  | completes frame => exact frame.hash hscope
  | faults e listed records frame => exact frame.hash rfl
  | inProgress rest stays =>
    obtain ⟨-, -, frame⟩ := stays
    exact frame.hash rfl

/-- A word written to CMD leaves the hash state, unless it is run as a command whose scope holds it. -/
theorem hash_command_of_issue {word : Command} {s t : State} (h : issue word s = .next t)
    (hne : ¬ (t.hh = s.hh ∧ t.hn = s.hn ∧ t.hs = s.hs)) :
    s.err = false ∧ ∃ i, decode word = .instr i ∧ i.scope.hash = true := by
  obtain ⟨-, rfl⟩ | ⟨-, e, rfl⟩ | ⟨herr, i, hdec, hexec⟩ := issue_cases h
  · exact absurd ⟨rfl, rfl, rfl⟩ hne
  · exact absurd ⟨rfl, rfl, rfl⟩ hne
  · obtain ⟨-, hends⟩ := ends_of_exec hexec
    exact ⟨herr, i, hdec, by_contra fun hscope => hne (hends.hash (Bool.eq_false_iff.mpr hscope))⟩

/-- Settles O20: of the events only a reset and a command's run write the hash state. -/
theorem onlyHashCommandsWriteTheHashState : Obligations.OnlyHashCommandsWriteTheHashState := by
  unfold Obligations.OnlyHashCommandsWriteTheHashState
  intro s t h hne
  have hchange : ¬ (t.hh = s.hh ∧ t.hn = s.hn ∧ t.hs = s.hs) := by tauto
  cases stepTo_of_step h with
  | resets rest hpend => exact .inl ⟨rest, hpend⟩
  | commands word rest u t hsign hpend hissue ht =>
    have hu : ¬ (u.hh = s.hh ∧ u.hn = s.hn ∧ u.hs = s.hs) := by
      obtain rfl | rfl := ht <;> exact hchange
    obtain ⟨herr, i, hdec, hscope⟩ := hash_command_of_issue hissue hu
    exact .inr ⟨word, rest, i, hpend, herr, hdec, Instr.hash_command_of_scope hscope⟩
  | _ => exact absurd ⟨rfl, rfl, rfl⟩ hchange

end Sys2Proof.Machine

/-!
PROOFS. All that a SIGN can do (43_protocol R265, R266; 93_implementation_defined U7): when it never completes, and
the range of the signature of one that does.
-/

namespace Sys2Proof.Machine

open Sys2Proof.Laws

/-! ## The ways a SIGN ends -/

/-- How the signing loop of a SIGN with private scalar `wd`, issued in `s`, ends (43_protocol R266). -/
def State.signEnd (s : State) (wd : WSrc) : SignEnd :=
  signOf s.params.curve s.params.signCap (s.wide wd).toNat (hash512 (memRead s.msg 0 s.mlen.toNat)) s.source

/-- The states a SIGN issued in `s` can lead to. -/
inductive SignTo (wr ws : WDst) (wd : WSrc) (s : State) : State → Prop where
  | same (heq : wr = ws) : SignTo wr ws wd s (s.raise .illegalField (encode (.sign wr ws wd)))
  | long (hne : wr ≠ ws) (hlong : s.params.msgCap < s.mlen.toNat) :
    SignTo wr ws wd s (s.raise .msgLen (encode (.sign wr ws wd)))
  | signed (r sg : Wide) (rest : RandomSource) (hne : wr ≠ ws) (hend : s.signEnd wd = .signed r sg rest) :
    SignTo wr ws wd s (((s.setSource rest).setW wr r).setW ws sg).zeroHash
  | failed (rest : RandomSource) (hne : wr ≠ ws) (hend : s.signEnd wd = .failed rest) :
    SignTo wr ws wd s ((s.setSource rest).raise .randomness (encode (.sign wr ws wd)))
  | endless (n : Nat) (hne : wr ≠ ws) (hfits : s.mlen.toNat ≤ s.params.msgCap) (hend : s.signEnd wd = .endless) :
    SignTo wr ws wd s ((s.setSource (drawMany n s.source).2).setSigning (some { wr := wr, ws := ws, wd := wd }))

section
variable {wr ws : WDst} {wd : WSrc} {s t : State}

theorem signTo_of_exec (h : exec (.sign wr ws wd) s = .next t) : SignTo wr ws wd s t := by
  by_cases heq : wr = ws
  · rw [exec, execSign, if_pos heq] at h
    obtain rfl := Host.Outcome.next.inj h
    exact .same heq
  · by_cases hlong : s.params.msgCap < s.mlen.toNat
    · rw [exec, execSign, if_neg heq, withMessage_long _ hlong] at h
      obtain rfl := Host.Outcome.next.inj h
      exact .long heq hlong
    · have hfits : s.mlen.toNat ≤ s.params.msgCap := Nat.not_lt.mp hlong
      rw [exec_sign wr ws wd s heq hfits] at h
      cases hend : s.signEnd wd with
      | signed r sg rest =>
        rw [show signOf _ _ _ _ _ = _ from hend] at h
        obtain rfl := Host.Outcome.next.inj h
        exact .signed r sg rest heq hend
      | failed rest =>
        rw [show signOf _ _ _ _ _ = _ from hend] at h
        obtain rfl := Host.Outcome.next.inj h
        exact .failed rest heq hend
      | endless =>
        rw [show signOf _ _ _ _ _ = _ from hend] at h
        obtain rfl := Host.Outcome.next.inj h
        exact .endless _ heq hfits hend

/-! ## A SIGN that never completes (93_implementation_defined U7) -/

/-- A SIGN in progress for ever is one whose loop, with its checks passed, never ends. -/
theorem SignTo.endless_of_signing (h : SignTo wr ws wd s t) (hsign : s.signing = none) (hstuck : t.signing ≠ none) :
    s.mlen.toNat ≤ s.params.msgCap ∧ s.signEnd wd = .endless := by
  cases h with
  | endless n hne hfits hend => exact ⟨hfits, hend⟩
  | _ => exact absurd hsign hstuck

/-- With its checks passed and a loop that never ends, a SIGN has only drawn, and stays in progress. -/
theorem SignTo.staysInProgress (h : SignTo wr ws wd s t) (hne : wr ≠ ws) (hfits : s.mlen.toNat ≤ s.params.msgCap)
    (hend : s.signEnd wd = .endless) :
    ∃ n, StaysInProgress (.sign wr ws wd) (drawMany n s.source).2 s t := by
  cases h with
  | same heq => exact absurd heq hne
  | long hne hlong => exact absurd hlong (Nat.not_lt.mpr hfits)
  | signed r sg rest hne hsigned => cases hend.symm.trans hsigned
  | failed rest hne hfailed => cases hend.symm.trans hfailed
  | endless n => exact ⟨n, StaysInProgress.setSigning wr ws wd _ s⟩

end

/-- A step that leads back to its state does so any number of times. -/
theorem stepMany_of_step_self {t : State} (h : step t = .next t) (k : Nat) : stepMany k t = .next t := by
  induction k with
  | zero => rfl
  | succ k ih => rw [stepMany, h]; exact ih

/-- Settles O58: the step runs the SIGN of its word, which is left in progress exactly where its loop never ends;
there every later step finds no reset and holds the state. -/
theorem signNeverCompletesExactlyWhenEveryDrawRetries :
    Obligations.SignNeverCompletesExactlyWhenEveryDrawRetries := by
  unfold Obligations.SignNeverCompletesExactlyWhenEveryDrawRetries
  intro wr ws wd s rest endless hsign herr hne hpend hendless
  have hdec := decode_encode (.sign wr ws wd) (decide_eq_true hne)
  obtain ⟨t, hexec, hends⟩ := exec_ends (.sign wr ws wd) { s with pending := rest }
  have hto := signTo_of_exec hexec
  have hstep : step s = completeWrite (.next t) := by
    rw [step_write_taken hsign hpend (slotOf_cmd _) rfl, issue_instr (s := { s with pending := rest }) herr hdec, hexec]
  have hloop : endless ↔ s.mlen.toNat ≤ s.params.msgCap ∧ s.signEnd wd = .endless := by
    rw [hendless, State.signEnd, signOf_eq_endless_iff]
  refine ⟨fun h => ?_, fun h => ?_⟩
  · obtain ⟨hfits, hend⟩ := hloop.mp h
    obtain ⟨n, hstays⟩ := hto.staysInProgress hne hfits hend
    obtain ⟨⟨g, hg, -⟩, -, frame⟩ := id hstays
    rw [completeWrite_stuck hg] at hstep
    refine ⟨t, n, hstep, hstays, fun hlater k => ?_⟩
    have hstill : step t = .next t :=
      stuckSignServesNoTransaction t g hg fun later hreset => hlater later (frame.pending.symm.trans hreset)
    rw [stepMany, hstep]
    exact stepMany_of_step_self hstill k
  · have hended : t.signing = none := by
      by_contra hstuck
      exact h (hloop.mpr (hto.endless_of_signing hsign hstuck))
    obtain ⟨-, hends⟩ := hends
    obtain ⟨f, frame⟩ := hends.exists_frame
    refine ⟨_, hstep.trans (completeWrite_ended hended), hended, frame.pending, ?_⟩
    rw [State.answer_replies, frame.replies]

/-! ## The components of a signature (43_protocol R266) -/

section
variable {c : Curve} {d e : Nat} {r sg : Wide} {src rest : RandomSource}

/-- A residue of `Q` that is not zero is in the range, as a register holds it. -/
theorem inRange_ofNat_mod {x : Nat} (hQ : 2 ≤ c.Q.toNat) (h : x % c.Q.toNat ≠ 0) :
    InRange c (BitVec.ofNat 512 (x % c.Q.toNat)) := by
  have hlt : x % c.Q.toNat < c.Q.toNat := Nat.mod_lt _ (by omega)
  rw [InRange, BitVec.toNat_ofNat, Nat.mod_eq_of_lt (hlt.trans c.Q.isLt)]
  omega

/-- An attempt that gives a signature gives components that are not zero. -/
theorem inRange_of_signAttempt {k : Wide} (hQ : 2 ≤ c.Q.toNat) (h : signAttempt c d e k = some (r, sg)) :
    InRange c r ∧ InRange c sg := by
  obtain ⟨-, hnone⟩ | ⟨x, y, -, ⟨-, hnone⟩ | ⟨-, -, hnone⟩ | ⟨hr, hs, hsome⟩⟩ :=
    signAttempt_cases c d e k
  · cases hnone.symm.trans h
  · cases hnone.symm.trans h
  · cases hnone.symm.trans h
  · obtain ⟨rfl, rfl⟩ := Prod.mk.inj (Option.some.inj (hsome.symm.trans h))
    exact ⟨inRange_ofNat_mod hQ hr, inRange_ofNat_mod hQ hs⟩

/-- A loop that ends in a signature ends in that of an attempt, if this holds of what it does when its attempts are
spent. -/
theorem exists_signAttempt_of_signLoop {f : RandomSource → SignEnd} {n : Nat}
    (hf : ∀ src', f src' = .signed r sg rest → ∃ k, signAttempt c d e k = some (r, sg))
    (h : signLoop c d e f n src = .signed r sg rest) : ∃ k, signAttempt c d e k = some (r, sg) := by
  induction n generalizing src with
  | zero => exact hf src h
  | succ n ih =>
    rw [signLoop_succ] at h
    split at h
    · cases h
    · next k src' hdraw =>
      split at h
      · next x y hattempt =>
        cases h
        exact ⟨k, hattempt⟩
      · exact ih h

/-- So does the loop with no bound. -/
theorem exists_signAttempt_of_signFrom (h : signFrom c d e src = some (.signed r sg rest)) :
    ∃ k, signAttempt c d e k = some (r, sg) := by
  refine signFrom.partial_correctness c d e
    (fun _ x => x = .signed r sg rest → ∃ k, signAttempt c d e k = some (r, sg)) ?_ src _ h rfl
  intro f ih src' x hx hsigned
  split at hx
  · cases hx
    cases hsigned
  · next k src'' hdraw =>
    split at hx
    · next x y hattempt =>
      cases hx
      cases hsigned
      exact ⟨k, hattempt⟩
    · exact ih _ _ hx hsigned

theorem exists_signAttempt_of_signOf {cap : Option Nat} {H : Wide} (h : signOf c cap d H src = .signed r sg rest) :
    ∃ k, signAttempt c d (eOf c H) k = some (r, sg) := by
  cases cap with
  | some n =>
    rw [signOf] at h
    exact exists_signAttempt_of_signLoop (f := .failed) (fun src' hspent => nomatch hspent) h
  | none =>
    rw [signOf_uncapped] at h
    cases hfrom : signFrom c d (eOf c H) src with
    | none => rw [hfrom] at h; cases h
    | some x =>
      rw [hfrom] at h
      exact exists_signAttempt_of_signFrom (hfrom.trans (congrArg some h))

end

/-- Settles O59: a SIGN that neither faults nor is left in progress has written the components of an attempt. -/
theorem signatureComponentsAreInRange : Obligations.SignatureComponentsAreInRange := by
  unfold Obligations.SignatureComponentsAreInRange
  intro wr ws wd s t hQ herr hsign hexec hended hdone
  cases signTo_of_exec hexec with
  | same heq => cases hended
  | long hne hlong => cases hended
  | failed rest hne hend => cases hended
  | endless n hne hfits hend => cases hdone
  | signed r sg rest hne hend =>
    obtain ⟨k, hattempt⟩ := exists_signAttempt_of_signOf hend
    obtain ⟨hr, hsg⟩ := inRange_of_signAttempt hQ hattempt
    refine ⟨?_, ?_⟩
    · rw [show (((s.setSource rest).setW wr r).setW ws sg).zeroHash.w[wr] = r from
        (State.setW_get_other _ ws wr sg hne).trans (State.setW_get_same _ wr r)]
      exact hr
    · rw [show (((s.setSource rest).setW wr r).setW ws sg).zeroHash.w[ws] = sg from State.setW_get_same _ ws sg]
      exact hsg

end Sys2Proof.Machine

/-!
PROOFS. The invariant of the state: the point functions answer the canonical identity wherever they set the flag, so
every command keeps the records canonical; the other parts follow from the ways a command ends and from what a host
event stores.
-/

namespace Sys2Proof.Machine

open Sys2Proof.Laws

/-! ## Canonical records (10_state R28; 41_point R161) -/

/-- An identity flag marks the canonical identity. -/
def Jacobian.Canonical (J : Jacobian) : Prop := J.inf = true → J = Jacobian.ident

/-- An absent marker marks the canonical absent record. -/
def Affine.Canonical (R : Affine) : Prop := R.absent = true → R = Affine.none

theorem Jacobian.canonical_ident : Jacobian.ident.Canonical := fun _ => rfl

theorem Jacobian.canonical_of_finite {J : Jacobian} (h : J.inf = false) : J.Canonical := by
  simp [Jacobian.Canonical, h]

theorem Affine.canonical_of_present {R : Affine} (h : R.absent = false) : R.Canonical := by
  simp [Affine.Canonical, h]

theorem double_canonical (c : Curve) (J : Jacobian) : (double c J).Canonical := by
  by_cases h : J.inf = true ∨ J.Y.toNat % c.P.toNat = 0
  · rw [double_eq_ident h]
    exact Jacobian.canonical_ident
  · rw [double, if_neg h]
    exact Jacobian.canonical_of_finite rfl

/-- The last step of both adders: a doubling, the identity, or a record without the flag. -/
theorem addition_canonical (c : Curve) (J : Jacobian) (u1 s1 h r z : Nat) :
    (if h = 0 then if r = 0 then double c J else Jacobian.ident else chordSum c.P.toNat u1 s1 h r z).Canonical := by
  split
  · split
    · exact double_canonical c J
    · exact Jacobian.canonical_ident
  · exact Jacobian.canonical_of_finite rfl

theorem mixedAdd_canonical (c : Curve) (J : Jacobian) (x y : Wide) : (mixedAdd c J x y).Canonical := by
  unfold mixedAdd
  split
  · exact Jacobian.canonical_of_finite rfl
  · exact addition_canonical _ _ _ _ _ _ _

theorem jacobiAdd_canonical {c : Curve} {J1 J2 : Jacobian} (h1 : J1.Canonical) (h2 : J2.Canonical) :
    (jacobiAdd c J1 J2).Canonical := by
  unfold jacobiAdd
  split
  · exact h2
  · split
    · exact h1
    · exact addition_canonical _ _ _ _ _ _ _

theorem scalarLoop_canonical {c : Curve} {k n : Nat} {x y : Wide} {R : Jacobian} (h : R.Canonical) :
    (scalarLoop c k x y n R).Canonical := by
  induction n generalizing R with
  | zero => exact h
  | succ n ih =>
    refine ih ?_
    split
    · exact mixedAdd_canonical _ _ _ _
    · exact double_canonical _ _

theorem scalarMult_canonical (c : Curve) (k : Nat) (x y : Wide) : (scalarMult c k x y).Canonical :=
  scalarLoop_canonical Jacobian.canonical_ident

theorem affineOf_canonical (p : Option (Wide × Wide)) : (affineOf p).Canonical := by
  cases p with
  | none => exact fun _ => rfl
  | some q => exact Affine.canonical_of_present rfl

/-- Every point register holds a canonical record. -/
structure State.Canonical (s : State) : Prop where
  jac : ∀ i : JReg, s.j[i].Canonical
  aff : ∀ i : ADst, s.a[i].Canonical

section
variable {s t : State}

theorem State.Canonical.setJ (h : s.Canonical) (i : JReg) {r : Jacobian} (hr : r.Canonical) :
    (s.setJ i r).Canonical where
  jac k := by
    by_cases hk : k = i
    · rw [hk, State.setJ_get_same]; exact hr
    · rw [State.setJ_get_other s i k r hk]; exact h.jac k
  aff := h.aff

theorem State.Canonical.setA (h : s.Canonical) (i : ADst) {r : Affine} (hr : r.Canonical) :
    (s.setA i r).Canonical where
  jac := h.jac
  aff k := by
    by_cases hk : k = i
    · rw [hk, State.setA_get_same]; exact hr
    · rw [State.setA_get_other s i k r hk]; exact h.aff k

/-- What changes no point register keeps them canonical. -/
theorem State.Canonical.of_frame {f : Scope} (h : s.Canonical) (frame : Frame f s t) (hj : f.jac = [])
    (ha : f.aff = []) : t.Canonical where
  jac i := by rw [frame.jac i (by simp [hj])]; exact h.jac i
  aff i := by rw [frame.aff i (by simp [ha])]; exact h.aff i

/-- A command with no point register among its destinations keeps them canonical. -/
theorem State.Canonical.of_ends {i : Instr} (h : s.Canonical) (hends : Ends i s t) (hj : i.scope.jac = [])
    (ha : i.scope.aff = []) : t.Canonical := by
  cases hends with
  | completes frame => exact h.of_frame frame hj ha
  | faults e listed records frame => exact h.of_frame frame rfl rfl
  | inProgress rest stays =>
    obtain ⟨-, -, frame⟩ := stays
    exact h.of_frame frame rfl rfl

/-- A command with an affine operand that writes one Jacobian register (41_point R178, R181, R190). -/
theorem State.Canonical.of_withPoint {i : Instr} {ap : ASrc} {jd : JReg} {f : Wide → Wide → Jacobian}
    (h : s.Canonical) (hf : ∀ x y, (f x y).Canonical)
    (hexec : withPoint i ap s (fun x y => .next (s.setJ jd (f x y))) = .next t) : t.Canonical := by
  obtain ⟨-, rfl⟩ | ⟨-, hnext⟩ := withPoint_next hexec
  · exact ⟨h.jac, h.aff⟩
  · obtain rfl := Host.Outcome.next.inj hnext
    exact h.setJ jd (hf _ _)

theorem State.Canonical.of_keygen {wd : WDst} {ad : ADst} (h : s.Canonical)
    (hexec : execKeygen wd ad s = .next t) : t.Canonical := by
  unfold execKeygen at hexec
  split at hexec
  · obtain rfl := Host.Outcome.next.inj hexec
    exact ⟨h.jac, h.aff⟩
  · next d rest hdraw =>
    split at hexec
    · obtain rfl := Host.Outcome.next.inj hexec
      exact ⟨h.jac, h.aff⟩
    · obtain rfl := Host.Outcome.next.inj hexec
      have hkept : ((s.setSource rest).setW wd d).Canonical := ⟨h.jac, h.aff⟩
      exact hkept.setA ad (Affine.canonical_of_present rfl)

/-- Every command keeps the point registers canonical: each of those that write one writes a canonical record. -/
theorem State.Canonical.of_exec {i : Instr} (h : s.Canonical) (hexec : exec i s = .next t) : t.Canonical := by
  cases i with
  | pdbl jd ja => exact Host.Outcome.next.inj hexec ▸ h.setJ jd (double_canonical _ _)
  | pmadd jd ja ab => exact h.of_withPoint (fun _ _ => mixedAdd_canonical _ _ _ _) hexec
  | pjadd jd ja jb => exact Host.Outcome.next.inj hexec ▸ h.setJ jd (jacobiAdd_canonical (h.jac ja) (h.jac jb))
  | psmul jd wk ab => exact h.of_withPoint (fun _ _ => scalarMult_canonical _ _ _ _) hexec
  | plift jd aa => exact h.of_withPoint (fun _ _ => Jacobian.canonical_of_finite rfl) hexec
  | jset jd wx wy wz => exact Host.Outcome.next.inj hexec ▸ h.setJ jd (Jacobian.canonical_of_finite rfl)
  | jinf jd => exact Host.Outcome.next.inj hexec ▸ h.setJ jd Jacobian.canonical_ident
  | paff ad ja => exact Host.Outcome.next.inj hexec ▸ h.setA ad (affineOf_canonical _)
  | aset ad wx wy => exact Host.Outcome.next.inj hexec ▸ h.setA ad (Affine.canonical_of_present rfl)
  | aabs ad => exact Host.Outcome.next.inj hexec ▸ h.setA ad fun _ => rfl
  | keygen wd ad => exact h.of_keygen hexec
  | _ => exact h.of_ends (ends_of_exec hexec).2 rfl rfl

end

/-! ## The parts of the invariant -/

theorem ErrorKind.code_range (e : ErrorKind) : 1 ≤ e.code.toNat ∧ e.code.toNat ≤ 8 := by
  cases e <;> decide

/-- The error registers are zero while no fault is recorded, and hold a listed code while one is
(10_state R34, R35; 60_exceptions R291). -/
structure State.ErrorsMatch (s : State) : Prop where
  clear : s.err = false → s.errCode = 0 ∧ s.errCmd = 0
  faulted : s.err = true → 1 ≤ s.errCode.toNat ∧ s.errCode.toNat ≤ 8

theorem State.ErrorsMatch.of_records {e : ErrorKind} {word : Command} {t : State} (h : Records e word t) :
    t.ErrorsMatch := by
  obtain ⟨herr, hcode, -⟩ := h
  exact ⟨fun hclear => by simp [hclear] at herr, fun _ => hcode ▸ e.code_range⟩

theorem State.ErrorsMatch.of_frame {f : Scope} {s t : State} (h : s.ErrorsMatch) (frame : Frame f s t)
    (hf : f.error = false) : t.ErrorsMatch := by
  obtain ⟨herr, hcode, hcmd⟩ := frame.error hf
  exact ⟨by rw [herr, hcode, hcmd]; exact h.clear, by rw [herr, hcode]; exact h.faulted⟩

theorem State.ErrorsMatch.of_ends {i : Instr} {s t : State} (h : s.ErrorsMatch) (hends : Ends i s t) :
    t.ErrorsMatch := by
  cases hends with
  | completes frame => exact h.of_frame frame (Instr.scope_error i)
  | faults e listed records frame => exact .of_records records
  | inProgress rest stays =>
    obtain ⟨-, -, frame⟩ := stays
    exact h.of_frame frame rfl

/-- A command that has ended leaves none in progress. -/
theorem Ends.signing_of_not_sign {i : Instr} {s t : State} (h : Ends i s t)
    (hsign : ∀ wr ws wd, i ≠ .sign wr ws wd) : t.signing = s.signing := by
  cases h with
  | completes frame => exact frame.signing (Instr.scope_signing i)
  | faults e listed records frame => exact frame.signing rfl
  | inProgress rest stays =>
    obtain ⟨⟨g, -, hi⟩, -, -⟩ := stays
    exact absurd hi (hsign _ _ _)

/-- What the invariant asks of a command in progress (93_implementation_defined U7). -/
def State.InProgress (s : State) (g : Signing) : Prop :=
  s.err = false ∧ g.wr ≠ g.ws ∧ s.mlen.toNat ≤ s.params.msgCap ∧ s.params.signCap = none ∧
    ∀ n, Retries s.params.curve (s.wide g.wd).toNat
      (eOf s.params.curve (hash512 (memRead s.msg 0 s.mlen.toNat))) (s.source.answer n)

/-- A SIGN left in progress has passed its checks, and the answers left are a part of those that all retry. -/
theorem SignTo.inProgress {wr ws : WDst} {wd : WSrc} {s t : State} (h : SignTo wr ws wd s t) (herr : s.err = false)
    (hsign : s.signing = none) {g : Signing} (hg : t.signing = some g) : t.InProgress g := by
  cases h with
  | endless n hne hfits hend =>
    obtain rfl := Option.some.inj hg
    obtain ⟨hcap, hretries⟩ := (signOf_eq_endless_iff ..).mp hend
    refine ⟨herr, hne, hfits, hcap, fun m => ?_⟩
    obtain ⟨-, hanswers⟩ := drawMany_answer n s.source
    have hretry := hretries (n + m)
    rw [← hanswers m] at hretry
    exact hretry
  | _ => cases hsign.symm.trans hg

theorem inProgress_of_exec {i : Instr} {s t : State} (herr : s.err = false) (hsign : s.signing = none)
    (hexec : exec i s = .next t) {g : Signing} (hg : t.signing = some g) : t.InProgress g := by
  cases i with
  | sign wr ws wd => exact (signTo_of_exec hexec).inProgress herr hsign hg
  | _ =>
    have hsame := (ends_of_exec hexec).2.signing_of_not_sign nofun
    cases (hsame.trans hsign).symm.trans hg

/-! ## The invariant -/

section
variable {s t : State}

theorem State.Inv.canonical (h : s.Inv) : s.Canonical := ⟨h.identity, h.absent⟩

theorem State.Inv.errorsMatch (h : s.Inv) : s.ErrorsMatch := ⟨h.clear, h.faulted⟩

/-- The invariant from its parts. -/
theorem State.Inv.of_parts (hparams : s.params.wf = true) (hmem : s.msg.wf = true)
    (hoffsets : ∀ c ∈ s.msg, c.1 < s.params.msgCap) (hrecords : s.Canonical) (herrors : s.ErrorsMatch)
    (hprogress : ∀ g, s.signing = some g → s.InProgress g) : s.Inv :=
  ⟨hparams, hmem, hoffsets, hrecords.jac, hrecords.aff, herrors.clear, herrors.faulted, hprogress⟩

/-- With no command in progress there is nothing to ask of one. -/
theorem State.Inv.of_idle (hparams : s.params.wf = true) (hmem : s.msg.wf = true)
    (hoffsets : ∀ c ∈ s.msg, c.1 < s.params.msgCap) (hrecords : s.Canonical) (herrors : s.ErrorsMatch)
    (hsign : s.signing = none) : s.Inv :=
  .of_parts hparams hmem hoffsets hrecords herrors fun _ hg => nomatch hsign.symm.trans hg

/-- The port's answers are not part of the invariant. -/
theorem State.Inv.answer (h : s.Inv) (r : Reply) : (s.answer r).Inv :=
  .of_parts h.params h.memory h.offsets ⟨h.identity, h.absent⟩ ⟨h.clear, h.faulted⟩ h.progress

/-- Nor are the host's events. -/
theorem State.Inv.setPending (h : s.Inv) (pending : List HostEvent) : State.Inv { s with pending := pending } :=
  .of_parts h.params h.memory h.offsets ⟨h.identity, h.absent⟩ ⟨h.clear, h.faulted⟩ h.progress

theorem State.Inv.of_exec {i : Instr} (h : s.Inv) (herr : s.err = false) (hsign : s.signing = none)
    (hexec : exec i s = .next t) : t.Inv := by
  obtain ⟨hmsg, hends⟩ := ends_of_exec hexec
  refine .of_parts ?params ?memory ?offsets (h.canonical.of_exec hexec) (h.errorsMatch.of_ends hends)
    fun g hg => inProgress_of_exec herr hsign hexec hg
  case params => rw [hends.params]; exact h.params
  case memory => rw [hmsg]; exact h.memory
  case offsets => rw [hmsg, hends.params]; exact h.offsets

theorem State.Inv.of_issue {word : Command} (h : s.Inv) (hsign : s.signing = none)
    (hissue : issue word s = .next t) : t.Inv := by
  obtain ⟨-, rfl⟩ | ⟨-, e, rfl⟩ | ⟨herr, i, -, hexec⟩ := issue_cases hissue
  · exact h
  · exact .of_idle h.params h.memory h.offsets ⟨h.identity, h.absent⟩ (.of_records (Records.raise s e word)) hsign
  · exact h.of_exec herr hsign hexec

end

theorem State.Inv.resetOf {p : Params} (hp : p.wf = true) (source : RandomSource) (pending : List HostEvent)
    (replies : List Reply) : (State.resetOf p source pending replies).Inv := by
  refine .of_idle hp rfl nofun ⟨fun i => ?_, fun i => ?_⟩ ⟨fun _ => ⟨rfl, rfl⟩, nofun⟩ rfl
  · rw [State.resetOf_j]; exact Jacobian.canonical_ident
  · rw [State.resetOf_a]; exact fun _ => rfl

/-- The parameters of `State.reset` meet 00_scope R8. -/
theorem Params.default_wf : Params.default.wf = true := by decide +kernel

/-- Settles O17: the registers of the reset state are canonical, no fault is recorded and nothing is in progress. -/
theorem resetHasTheInvariant : Obligations.ResetHasTheInvariant := by
  unfold Obligations.ResetHasTheInvariant
  exact ⟨fun p source pending replies hp => .resetOf hp source pending replies,
    .resetOf Params.default_wf { ahead := [], tail := .fails } [] []⟩

/-- Settles O16: a reset leads to the reset state, a word written to CMD keeps the invariant as its command does, and
every other event stores a value of one part. -/
theorem stepKeepsTheInvariant : Obligations.StepKeepsTheInvariant := by
  unfold Obligations.StepKeepsTheInvariant
  intro s t h hstep
  cases stepTo_of_step hstep with
  | holds => exact h
  | resets rest hpend => exact .resetOf h.params s.source rest s.replies
  | answers rest r hsign => exact (h.setPending rest).answer r
  | commands word rest u t hsign hpend hissue ht =>
    have hu : u.Inv := (h.setPending rest).of_issue hsign hissue
    obtain rfl | rfl := ht
    · exact hu
    · exact hu.answer .ok
  | clears d rest hsign hpend hbit =>
    exact .of_idle h.params h.memory h.offsets ⟨h.identity, h.absent⟩ ⟨fun _ => ⟨rfl, rfl⟩, nofun⟩ hsign
  | writesMlen d rest hsign =>
    exact .of_idle h.params h.memory h.offsets ⟨h.identity, h.absent⟩ ⟨h.clear, h.faulted⟩ hsign
  | writesWide i v rest hsign =>
    exact .of_idle h.params h.memory h.offsets ⟨h.identity, h.absent⟩ ⟨h.clear, h.faulted⟩ hsign
  | writesMsg k d rest hsign hlast =>
    refine .of_idle h.params (Memory.writeBus_wf _ _ _ h.memory) (fun c hc => ?_) ⟨h.identity, h.absent⟩
      ⟨h.clear, h.faulted⟩ hsign
    obtain hold | ⟨-, hnew⟩ := Memory.mem_writeBus _ _ _ c hc
    · exact h.offsets c hold
    · exact hnew.trans_lt hlast

end Sys2Proof.Machine

/-!
PROOFS. The point functions on every CURVE (41_point R171 to R176, R191): double-and-add over the bits of the scalar,
and the curve equation, which all of them keep, as identities of polynomials over the residues of `P`.
-/

namespace Sys2Proof.Machine

/-! ## Double-and-add (41_point R191) -/

section
variable {c : Curve} {x y : Wide}

/-- Doubling the identity gives the identity, so leading zero bits change nothing. -/
theorem scalarLoop_zero (n : Nat) : scalarLoop c 0 x y n Jacobian.ident = Jacobian.ident := by
  induction n with
  | zero => rfl
  | succ n ih => rw [scalarLoop_succ, if_neg (by simp), Nat.zero_div, ih, double_eq_ident (.inl rfl)]

theorem scalarLoop_double (k n : Nat) :
    scalarLoop c (2 * k) x y (n + 1) Jacobian.ident = double c (scalarLoop c k x y n Jacobian.ident) := by
  have hbit : ¬ (2 * k).testBit 0 = true := by simp
  rw [scalarLoop_succ, if_neg hbit, Nat.mul_div_cancel_left k two_pos]

theorem scalarLoop_double_add_one (k n : Nat) :
    scalarLoop c (2 * k + 1) x y (n + 1) Jacobian.ident =
      mixedAdd c (double c (scalarLoop c k x y n Jacobian.ident)) x y := by
  have hbit : (2 * k + 1).testBit 0 = true := by simp
  have hhalf : (2 * k + 1) / 2 = k := by omega
  rw [scalarLoop_succ, if_pos hbit, hhalf]

/-- The result does not depend on the bit the loop starts at, as long as the scalar fits below it. -/
theorem scalarLoop_start {k n m : Nat} (hn : k < 2 ^ n) (hm : k < 2 ^ m) :
    scalarLoop c k x y n Jacobian.ident = scalarLoop c k x y m Jacobian.ident := by
  induction n generalizing k m with
  | zero =>
    obtain rfl : k = 0 := by omega
    rw [scalarLoop_zero, scalarLoop_zero]
  | succ n ih =>
    cases m with
    | zero =>
      obtain rfl : k = 0 := by omega
      rw [scalarLoop_zero, scalarLoop_zero]
    | succ m => rw [scalarLoop_succ, scalarLoop_succ, ih (k := k / 2) (m := m) (by omega) (by omega)]

theorem scalarMult_eq_scalarLoop {k n : Nat} (h : k < 2 ^ n) :
    scalarMult c k x y = scalarLoop c k x y n Jacobian.ident :=
  scalarLoop_start (lt_two_pow_bitLength k) h

theorem scalarMult_double (k : Nat) : scalarMult c (2 * k) x y = double c (scalarMult c k x y) := by
  have hk := lt_two_pow_bitLength k
  rw [scalarMult_eq_scalarLoop (n := bitLength k + 1) (by omega), scalarLoop_double, scalarMult]

theorem scalarMult_double_add_one (k : Nat) :
    scalarMult c (2 * k + 1) x y = mixedAdd c (double c (scalarMult c k x y)) x y := by
  have hk := lt_two_pow_bitLength k
  rw [scalarMult_eq_scalarLoop (n := bitLength k + 1) (by omega), scalarLoop_double_add_one, scalarMult]

end

/-- Settles O40: the loop started at any bit above the scalar is the same, and its last turn reads bit 0. -/
theorem scalarMultFollowsTheBits : Obligations.ScalarMultFollowsTheBits := by
  unfold Obligations.ScalarMultFollowsTheBits
  exact fun c x y => ⟨scalarMult_zero c x y, scalarMult_one c x y, fun k _ => scalarMult_double k,
    scalarMult_double_add_one, fun k hk => (scalarMult_eq_scalarLoop hk).symm⟩

/-! ## The curve equation (41_point R160) -/

section
variable {c : Curve} {J : Jacobian}

/-- The equation over the residues of `P`. -/
def Jacobian.Equation (c : Curve) (X Y Z : ZMod c.P.toNat) : Prop :=
  Y ^ 2 = X ^ 3 + c.A.toNat * X * Z ^ 4 + c.B.toNat * Z ^ 6

theorem onCurve_iff : OnCurve c J ↔ J.inf = true ∨ Jacobian.Equation c J.X.toNat J.Y.toNat J.Z.toNat := by
  rw [OnCurve, Jacobian.Equation, ← ZMod.natCast_eq_natCast_iff']
  push_cast
  rfl

theorem onCurve_ident : OnCurve c Jacobian.ident := .inl rfl

theorem equation_of_onCurve (h : OnCurve c J) (hinf : J.inf = false) :
    Jacobian.Equation c J.X.toNat J.Y.toNat J.Z.toNat :=
  (onCurve_iff.mp h).resolve_left (by simp [hinf])

theorem onCurve_residues {X Y Z : Int} (hP : 1 ≤ c.P.toNat) (h : Jacobian.Equation c X Y Z) :
    OnCurve c (residues c X Y Z) := by
  rw [onCurve_iff]
  simp only [residues, residue_cast hP]
  exact .inr h

/-- The tangent meets the curve in the double: with `h = 2·Y` the equation of the double is that of the point, times
`h ^ 6`. -/
theorem onCurve_double (hP : 1 ≤ c.P.toNat) (h : OnCurve c J) : OnCurve c (double c J) := by
  by_cases hident : J.inf = true ∨ J.Y.toNat % c.P.toNat = 0
  · rw [double_eq_ident hident]
    exact onCurve_ident
  · obtain ⟨hinf, hY⟩ := not_or.mp hident
    rw [Bool.not_eq_true] at hinf
    have hcurve := equation_of_onCurve h hinf
    rw [double_eq_residues hP hinf hY rfl rfl]
    refine onCurve_residues hP ?_
    unfold Jacobian.Equation at hcurve ⊢
    push_cast
    linear_combination (2 * (J.Y.toNat : ZMod c.P.toNat)) ^ 6 * hcurve

/-- The equation of a point over a further denominator. -/
theorem Jacobian.Equation.scale {X Y Z : ZMod c.P.toNat} (h : Jacobian.Equation c X Y Z) (l : ZMod c.P.toNat) :
    Jacobian.Equation c (X * l ^ 2) (Y * l ^ 3) (Z * l) := by
  unfold Jacobian.Equation at h ⊢
  linear_combination l ^ 6 * h

/-- The chord meets the curve in the sum: `u1`, `s1` and `u1 + h`, `s1 + r` are the points' coordinates over the
denominator `z`. -/
theorem onCurve_sumRecord {u1 s1 h r w : Int} {z : ZMod c.P.toNat} (hP : 1 ≤ c.P.toNat)
    (h1 : Jacobian.Equation c u1 s1 z) (h2 : Jacobian.Equation c (u1 + h) (s1 + r) z)
    (hw : (w : ZMod c.P.toNat) = h * z) : OnCurve c (sumRecord c u1 s1 h r w) := by
  refine onCurve_residues hP ?_
  unfold Jacobian.Equation at h1 h2 ⊢
  push_cast
  rw [hw]
  linear_combination (h : ZMod c.P.toNat) ^ 6 * h1 +
    (h : ZMod c.P.toNat) ^ 3 * ((r : ZMod c.P.toNat) ^ 2 - h ^ 3 - 3 * u1 * h ^ 2) * (h2 - h1)

theorem onCurve_finiteSum {u1 s1 h r w : Int} {z : ZMod c.P.toNat} (hP : 1 ≤ c.P.toNat) (hJ : OnCurve c J)
    (h1 : Jacobian.Equation c u1 s1 z) (h2 : Jacobian.Equation c (u1 + h) (s1 + r) z)
    (hw : (w : ZMod c.P.toNat) = h * z) : OnCurve c (finiteSum c J u1 s1 h r w) := by
  unfold finiteSum
  split
  · split
    · exact onCurve_double hP hJ
    · exact onCurve_ident
  · exact onCurve_sumRecord hP h1 h2 hw

theorem equation_of_onCurve_lift {x y : Wide} (h : OnCurve c (lift x y)) :
    Jacobian.Equation c x.toNat y.toNat 1 := by
  have hcurve := equation_of_onCurve h rfl
  rwa [lift_Z_toNat, Nat.cast_one] at hcurve

/-- Over the denominator `Z` of `J` the affine point is `x·Z²`, `y·Z³`. -/
theorem onCurve_mixedAdd {x y : Wide} (hP : 1 ≤ c.P.toNat) (hJ : OnCurve c J) (hq : OnCurve c (lift x y)) :
    OnCurve c (mixedAdd c J x y) := by
  cases hinf : J.inf with
  | true => rw [mixedAdd_of_inf hinf]; exact hq
  | false =>
    have h2 := (equation_of_onCurve_lift hq).scale (J.Z.toNat : ZMod c.P.toNat)
    rw [mixedAdd_eq_finiteSum hP hinf rfl rfl]
    refine onCurve_finiteSum (z := J.Z.toNat) hP hJ ?_ ?_ ?_
    · simpa using equation_of_onCurve hJ hinf
    · simpa using h2
    · push_cast
      ring

/-- Over the product of the denominators the points are `X1·Z2²`, `Y1·Z2³` and `X2·Z1²`, `Y2·Z1³`. -/
theorem onCurve_jacobiAdd {J1 J2 : Jacobian} (hP : 1 ≤ c.P.toNat) (h1 : OnCurve c J1) (h2 : OnCurve c J2) :
    OnCurve c (jacobiAdd c J1 J2) := by
  cases hinf1 : J1.inf with
  | true => rw [jacobiAdd_of_inf_left hinf1]; exact h2
  | false =>
    cases hinf2 : J2.inf with
    | true => rw [jacobiAdd_of_inf_right hinf1 hinf2]; exact h1
    | false =>
      have he1 := (equation_of_onCurve h1 hinf1).scale (J2.Z.toNat : ZMod c.P.toNat)
      have he2 := (equation_of_onCurve h2 hinf2).scale (J1.Z.toNat : ZMod c.P.toNat)
      rw [mul_comm (J2.Z.toNat : ZMod c.P.toNat)] at he2
      rw [jacobiAdd_eq_finiteSum hP hinf1 hinf2 rfl rfl]
      refine onCurve_finiteSum (z := J1.Z.toNat * J2.Z.toNat) hP h1 ?_ ?_ ?_
      · simpa using he1
      · simpa using he2
      · push_cast
        ring

theorem onCurve_scalarLoop {x y : Wide} {k n : Nat} (hP : 1 ≤ c.P.toNat) (hq : OnCurve c (lift x y))
    (hJ : OnCurve c J) : OnCurve c (scalarLoop c k x y n J) := by
  induction n generalizing J with
  | zero => exact hJ
  | succ n ih =>
    refine ih ?_
    split
    · exact onCurve_mixedAdd hP (onCurve_double hP hJ) hq
    · exact onCurve_double hP hJ

/-- What Euclid's algorithm answers is an inverse. -/
theorem mul_invMod_mod {a m v : Nat} (hm : 1 ≤ m) (h : invMod a m = some v) : a * v % m = 1 % m := by
  by_cases hgcd : Nat.gcd (a % m) m = 1
  · obtain ⟨u, hinv, -, hmul⟩ := invMod_of_coprime hm hgcd
    rwa [Option.some.inj (h.symm.trans hinv)]
  · cases (invMod_of_not_coprime hgcd).symm.trans h

/-- The affine form of a record is the record over the inverse of its third coordinate. -/
theorem onCurve_of_toAffine {x y : Wide} (hP : 1 ≤ c.P.toNat) (hJ : OnCurve c J) (h : toAffine c J = some (x, y)) :
    OnCurve c (lift x y) := by
  obtain hnone | ⟨zi, hinf, -, hinv, hsome⟩ := toAffine_cases c J
  · cases hnone.symm.trans h
  · obtain ⟨rfl, rfl⟩ := Prod.mk.inj (Option.some.inj (hsome.symm.trans h))
    have hone : (J.Z.toNat : ZMod c.P.toNat) * zi = 1 := by
      simpa using (ZMod.natCast_eq_natCast_iff' _ _ _).mpr (mul_invMod_mod hP hinv)
    have hcurve := (equation_of_onCurve hJ hinf).scale (zi : ZMod c.P.toNat)
    rw [hone] at hcurve
    refine onCurve_iff.mpr (.inr ?_)
    rw [lift_Z_toNat]
    simp only [lift, toNat_ofNat_residue c _ (mulMod_lt _ _ _ hP), mulMod_cast, sqMod_cast, Nat.cast_one]
    rwa [pow_two, pow_three'] at hcurve

end

/-- Settles O41: each function answers the identity, one of its operands, or a record whose equation follows from
theirs. -/
theorem pointFunctionsStayOnTheCurve : Obligations.PointFunctionsStayOnTheCurve := by
  unfold Obligations.PointFunctionsStayOnTheCurve
  intro c hP
  exact ⟨fun J => onCurve_double hP, fun J x y => onCurve_mixedAdd hP, fun J1 J2 => onCurve_jacobiAdd hP,
    fun k x y hq => onCurve_scalarLoop hP hq onCurve_ident, fun J x y => onCurve_of_toAffine hP⟩

end Sys2Proof.Machine

/-!
PROOFS. The message memory read by a command (20_memory R62): every command runs alike on two memories that agree
below MLEN, since only its message check reads one.
-/

namespace Sys2Proof.Machine

/-! ## Two states that differ in their message memories -/

/-- The state with another message memory. -/
def State.setMsg (s : State) (m : Memory) : State := { s with msg := m }

/-- A meaning's answer, with another message memory in its next state. -/
def replaceMsg (m : Memory) : Result → Result
  | .next t => .next (t.setMsg m)
  | .fault r => .fault r
  | .refused r => .refused r

section
variable {i : Instr} {s : State} {m : Memory}

@[simp] theorem replaceMsg_next : replaceMsg m (.next s) = .next (s.setMsg m) := rfl

/-! ### What reads no message byte -/

@[simp] theorem State.setMsg_params : (s.setMsg m).params = s.params := rfl

@[simp] theorem State.setMsg_source : (s.setMsg m).source = s.source := rfl

@[simp] theorem State.wide_setMsg (r : WSrc) : (s.setMsg m).wide r = s.wide r := by
  cases r <;> rfl

@[simp] theorem State.jac_setMsg (r : JReg) : (s.setMsg m).jac r = s.jac r := rfl

@[simp] theorem State.aff_setMsg (r : ASrc) : (s.setMsg m).aff r = s.aff r := by
  cases r <;> rfl

@[simp] theorem State.accum_setMsg : (s.setMsg m).accum = s.accum := rfl

/-! ### What writes no message byte -/

@[simp] theorem State.setMsg_setW (r : WDst) (v : Wide) : (s.setMsg m).setW r v = (s.setW r v).setMsg m := rfl

@[simp] theorem State.setMsg_setJ (r : JReg) (v : Jacobian) : (s.setMsg m).setJ r v = (s.setJ r v).setMsg m := rfl

@[simp] theorem State.setMsg_setA (r : ADst) (v : Affine) : (s.setMsg m).setA r v = (s.setA r v).setMsg m := rfl

@[simp] theorem State.setMsg_setHash (h n sg : Wide) :
    (s.setMsg m).setHash h n sg = (s.setHash h n sg).setMsg m := rfl

@[simp] theorem State.setMsg_zeroHash : (s.setMsg m).zeroHash = s.zeroHash.setMsg m := rfl

/-! ### The operand checks -/

theorem withModulus_setMsg {wm : WSrc} {k k' : Nat → Result} (hk : ∀ n, k' n = replaceMsg m (k n)) :
    withModulus i wm (s.setMsg m) k' = replaceMsg m (withModulus i wm s k) := by
  rw [withModulus, withModulus, State.wide_setMsg]
  split
  · rfl
  · exact hk _

theorem withPoint_setMsg {ap : ASrc} {k k' : Wide → Wide → Result} (hk : ∀ x y, k' x y = replaceMsg m (k x y)) :
    withPoint i ap (s.setMsg m) k' = replaceMsg m (withPoint i ap s k) := by
  rw [withPoint, withPoint, State.aff_setMsg]
  split
  · rfl
  · exact hk _ _

/-- The one check that reads the memory reads it below MLEN. -/
theorem withMessage_setMsg {k k' : List Byte → Result} (hagree : ∀ a < s.mlen.toNat, m.read a = s.msg.read a)
    (hk : ∀ M, k' M = replaceMsg m (k M)) : withMessage i (s.setMsg m) k' = replaceMsg m (withMessage i s k) := by
  have hbytes : memRead m 0 s.mlen.toNat = memRead s.msg 0 s.mlen.toNat :=
    memRead_congr _ _ _ _ fun a _ ha => hagree a (by omega)
  by_cases hlong : s.params.msgCap < s.mlen.toNat
  · rw [withMessage_long (s := s.setMsg m) k' hlong, withMessage_long k hlong]
    rfl
  · rw [withMessage_fits (s := s.setMsg m) k' (Nat.not_lt.mp hlong), withMessage_fits k (Nat.not_lt.mp hlong), ← hk]
    exact congrArg k' hbytes

/-! ### The commands that branch on more than a check -/

theorem execInvm_setMsg (wd : WDst) (wa wm : WSrc) :
    execInvm wd wa wm (s.setMsg m) = replaceMsg m (execInvm wd wa wm s) := by
  refine withModulus_setMsg fun n => ?_
  rw [State.wide_setMsg]
  cases invMod (s.wide wa).toNat n <;> rfl

theorem execKnxt_setMsg (wd : WDst) (wa : WSrc) (n : BitVec 6) :
    execKnxt wd wa n (s.setMsg m) = replaceMsg m (execKnxt wd wa n s) := by
  rw [execKnxt, execKnxt, State.wide_setMsg]
  split <;> rfl

/-- KEYGEN's draw and point are those of the parameters and the stream. -/
theorem execKeygen_setMsg (wd : WDst) (ad : ADst) :
    execKeygen wd ad (s.setMsg m) = replaceMsg m (execKeygen wd ad s) := by
  simp only [execKeygen, State.setMsg_params, State.setMsg_source]
  split
  · rfl
  · split <;> rfl

/-- SIGN's loop reads nothing else once the message is hashed. -/
theorem execSign_setMsg (wr ws : WDst) (wd : WSrc) (hagree : ∀ a < s.mlen.toNat, m.read a = s.msg.read a) :
    execSign wr ws wd (s.setMsg m) = replaceMsg m (execSign wr ws wd s) := by
  rw [execSign, execSign]
  split
  · rfl
  · refine withMessage_setMsg hagree fun M => ?_
    simp only [State.wide_setMsg, State.setMsg_params, State.setMsg_source]
    split <;> rfl

/-- Every command runs alike on a memory that agrees with its own below MLEN. -/
theorem exec_setMsg (i : Instr) (hagree : ∀ a < s.mlen.toNat, m.read a = s.msg.read a) :
    exec i (s.setMsg m) = replaceMsg m (exec i s) := by
  cases i with
  | addm | subm | mulm | sqrm | redm =>
    simp only [exec, execAddm, execSubm, execMulm, execSqrm, execRedm]
    exact withModulus_setMsg fun n => by simp
  | pmadd | psmul | plift | agetx | agety =>
    simp only [exec, execPmadd, execPsmul, execPlift, execAgetx, execAgety]
    exact withPoint_setMsg fun x y => by simp
  | invm wd wa wm => exact execInvm_setMsg wd wa wm
  | knxt wd wa imm6 => exact execKnxt_setMsg wd wa imm6
  | hash wd =>
    simp only [exec, execHash]
    exact withMessage_setMsg hagree fun M => by simp
  | keygen wd ad => exact execKeygen_setMsg wd ad
  | sign wr ws wd => exact execSign_setMsg wr ws wd hagree
  | verify wd wr ws ap =>
    simp only [exec, execVerify]
    refine withPoint_setMsg fun x y => withMessage_setMsg hagree fun M => ?_
    simp only [State.setMsg_params, State.wide_setMsg, State.setMsg_setW, State.setMsg_zeroHash, replaceMsg_next]
  | _ =>
    simp [exec, execMovw, execLiw, execPdbl, execPjadd, execPaff, execJset, execJinf, execJgetx, execJgety, execJgetz,
      execAset, execAabs, execXorw, execAddw, execLps, execEenc, execGcmp, execHinit, execHblk, execHfin]

end

/-- Settles O23: the command's answer on the other memory is its answer with that memory put in. -/
theorem bytesBeyondMlenDoNotMatter : Obligations.BytesBeyondMlenDoNotMatter := by
  unfold Obligations.BytesBeyondMlenDoNotMatter
  intro i s t m hagree h
  exact (exec_setMsg i hagree).trans (congrArg (replaceMsg m) h)

end Sys2Proof.Machine

/-!
PROOFS. Commands issued one after the other: SUBM after ADDM (95_test_vectors V13), the rounds of EENC one command at
a time (42_hash R228); and Montgomery reduction (40_field R129).
-/

namespace Sys2Proof.Machine

/-! ## Commands issued one after the other (10_state R32) -/

section
variable {i : Instr} {is : List Instr} {s t : State}

/-- A well-formed command issued with no fault recorded runs, and the rest of the list goes on from its end. -/
theorem issueAll_cons (hexec : exec i s = .next t) (hwf : i.wellFormed = true) (herr : s.err = false) :
    issueAll (i :: is) s = issueAll is t := by
  rw [issueAll, issue_instr herr (decode_encode i hwf), hexec]

end

/-! ## SUBM after ADDM (95_test_vectors V13) -/

theorem subMod_addMod (a b : Nat) {m : Nat} (hm : 1 ≤ m) : subMod (addMod a b m) b m = a % m := by
  have h := subMod_int (addMod a b m) b m hm
  rw [addMod, Int.natCast_mod, Int.emod_sub_emod, Nat.cast_add, add_sub_cancel_right] at h
  exact_mod_cast h

section
variable {wd : WDst} {wa wb wm : WSrc} {s : State}

theorem exec_addm (hm : s.wide wm ≠ 0) : exec (.addm wd wa wb wm) s = .next (s.setW wd
    (BitVec.ofNat 512 (addMod (s.wide wa).toNat (s.wide wb).toNat (s.wide wm).toNat))) := by
  rw [exec, execAddm, withModulus_pos _ hm]

theorem exec_subm (hm : s.wide wm ≠ 0) : exec (.subm wd wa wb wm) s = .next (s.setW wd
    (BitVec.ofNat 512 (subMod (s.wide wa).toNat (s.wide wb).toNat (s.wide wm).toNat))) := by
  rw [exec, execSubm, withModulus_pos _ hm]

end

/-- Settles O32: ADDM leaves the other operands of SUBM, which writes the same register. -/
theorem submUndoesAddm : Obligations.SubmUndoesAddm := by
  unfold Obligations.SubmUndoesAddm
  intro wd wa wb wm s herr hm hb hmd
  have hpos : 1 ≤ (s.wide wm).toNat := Nat.pos_of_ne_zero fun h => hm ((toNat_eq_zero _).mp h)
  have haddm := exec_addm (wd := wd) (wa := wa) (wb := wb) hm
  have hfits := (addMod_lt (s.wide wa).toNat (s.wide wb).toNat _ hpos).trans (s.wide wm).isLt
  have hsubm (v : Wide) : exec (.subm wd (.gen wd) wb wm) (s.setW wd v) = .next ((s.setW wd v).setW wd
      (BitVec.ofNat 512 (subMod v.toNat (s.wide wb).toNat (s.wide wm).toNat))) := by
    rw [exec_subm (by rwa [State.wide_setW, if_neg hmd]), State.wide_setW, if_pos rfl, State.wide_setW, if_neg hb,
      State.wide_setW, if_neg hmd]
  refine ⟨_, (issueAll_cons haddm rfl herr).trans (issueAll_cons (hsubm _) rfl herr), ?_, ?_⟩
  · rw [State.setW_get_same, BitVec.toNat_ofNat, Nat.mod_eq_of_lt hfits, subMod_addMod _ _ hpos]
  · exact ((Frame.refl _ s).setW wd _ (List.mem_singleton_self wd)).setW wd _ (List.mem_singleton_self wd)

/-! ## The rounds of EENC (42_hash R228) -/

/-- The commands of one round: the state through LPS, the next key, and their exclusive or. -/
def roundCommands (wd kd : WDst) (i : Nat) : List Instr :=
  [.lps wd (.gen wd), .knxt kd (.gen kd) (BitVec.ofNat 6 (i + 1)), .xorw wd (.gen wd) (.gen kd)]

/-- The state after one round on the state in `w[wd]` and the running key in `w[kd]`, with the round constant `c`. -/
def State.afterRound (s : State) (wd kd : WDst) (c : Wide) : State :=
  ((s.setW wd (lpsOf s.w[wd])).setW kd (nextKey s.w[kd] c)).setW wd (lpsOf s.w[wd] ^^^ nextKey s.w[kd] c)

section
variable {wd kd : WDst} {wk wm : WSrc} {s : State}

theorem State.afterRound_key (c : Wide) (hne : kd ≠ wd) : (s.afterRound wd kd c).w[kd] = nextKey s.w[kd] c :=
  (State.setW_get_other _ wd kd _ hne).trans (State.setW_get_same _ kd _)

theorem State.afterRound_state (c : Wide) :
    (s.afterRound wd kd c).w[wd] = lpsOf s.w[wd] ^^^ nextKey s.w[kd] c :=
  State.setW_get_same _ wd _

theorem Frame.afterRound (c : Wide) : Frame { wide := [wd, kd] } s (s.afterRound wd kd c) :=
  (((Frame.refl _ s).setW wd _ (by simp)).setW kd _ (by simp)).setW wd _ (by simp)

/-- The three commands of a round give it (42_hash R221). -/
theorem issueAll_roundCommands {i : Nat} (is : List Instr) (hne : kd ≠ wd) (hi : i < 12) (herr : s.err = false) :
    issueAll (roundCommands wd kd i ++ is) s = issueAll is (s.afterRound wd kd (crndOf (i + 1))) := by
  have hnum : (BitVec.ofNat 6 (i + 1)).toNat = i + 1 := by rw [BitVec.toNat_ofNat]; omega
  have hround : 1 ≤ (BitVec.ofNat 6 (i + 1)).toNat ∧ (BitVec.ofNat 6 (i + 1)).toNat ≤ 12 := by omega
  have hlps : exec (.lps wd (.gen wd)) s = .next (s.setW wd (lpsOf s.w[wd])) := rfl
  have hknxt (v : Wide) : exec (.knxt kd (.gen kd) (BitVec.ofNat 6 (i + 1))) (s.setW wd v) =
      .next ((s.setW wd v).setW kd (nextKey s.w[kd] (crndOf (i + 1)))) := by
    rw [exec, execKnxt_of_round hround.1 hround.2, hnum, State.wide, State.setW_get_other s wd kd v hne]
  have hxorw (v k : Wide) : exec (.xorw wd (.gen wd) (.gen kd)) ((s.setW wd v).setW kd k) =
      .next (((s.setW wd v).setW kd k).setW wd (v ^^^ k)) := by
    rw [exec, execXorw, State.wide, State.wide, State.setW_get_other _ kd wd k hne.symm, State.setW_get_same,
      State.setW_get_same]
  rw [roundCommands, List.cons_append, List.cons_append, List.cons_append, List.nil_append,
    issueAll_cons hlps rfl herr, issueAll_cons (hknxt _) (decide_eq_true hround) herr,
    issueAll_cons (hxorw _ _) rfl herr, State.afterRound]

/-- The rounds of a list of round numbers are those of the list of their constants. -/
theorem issueAll_rounds {l : List Nat} (hne : kd ≠ wd) (hl : ∀ i ∈ l, i < 12) (herr : s.err = false) :
    ∃ u, issueAll (l.flatMap (roundCommands wd kd)) s = .next u ∧
      u.w[wd] = rounds (l.map fun i => crndOf (i + 1)) s.w[wd] s.w[kd] ∧ Frame { wide := [wd, kd] } s u := by
  induction l generalizing s with
  | nil => exact ⟨s, rfl, rfl, Frame.refl _ s⟩
  | cons i l ih =>
    obtain ⟨u, hrest, hvalue, frame⟩ := ih (s := s.afterRound wd kd (crndOf (i + 1)))
      (fun j hj => hl j (List.mem_cons_of_mem _ hj)) herr
    refine ⟨u, ?_, ?_, (Frame.afterRound _).trans frame⟩
    · rw [List.flatMap_cons, issueAll_roundCommands _ hne (hl i (List.mem_cons_self ..)) herr, hrest]
    · rw [hvalue, State.afterRound_key _ hne, State.afterRound_state, List.map_cons, rounds_cons]

/-- MOVW and XORW put the first key and the first state in place (42_hash R221). -/
theorem issueAll_movw_xorw (is : List Instr) (hm : wm ≠ .gen kd) (herr : s.err = false) :
    issueAll (.movw kd wk :: .xorw wd (.gen kd) wm :: is) s =
      issueAll is ((s.setW kd (s.wide wk)).setW wd (s.wide wk ^^^ s.wide wm)) := by
  have hmovw : exec (.movw kd wk) s = .next (s.setW kd (s.wide wk)) := rfl
  have hxorw (k : Wide) : exec (.xorw wd (.gen kd) wm) (s.setW kd k) =
      .next ((s.setW kd k).setW wd (k ^^^ s.wide wm)) := by
    rw [exec, execXorw, State.wide_setW, if_pos rfl, State.wide_setW, if_neg hm]
  rw [issueAll_cons hmovw rfl herr, issueAll_cons (hxorw _) rfl herr]

end

theorem map_crndOf_range : ((List.range 12).map fun i => crndOf (i + 1)) = crnd := rfl

/-- Settles O46: after the key and the first state are in place the twelve rounds go on from there. -/
theorem eencEqualsTheRoundCommands : Obligations.EencEqualsTheRoundCommands := by
  unfold Obligations.EencEqualsTheRoundCommands
  intro wd kd wk wm s herr hne hm
  obtain ⟨u, hrounds, hvalue, frame⟩ := issueAll_rounds (l := List.range 12)
    (s := (s.setW kd (s.wide wk)).setW wd (s.wide wk ^^^ s.wide wm)) hne (fun i hi => List.mem_range.mp hi) herr
  refine ⟨_, u, rfl, (issueAll_movw_xorw _ hm herr).trans hrounds, ?_, ?_⟩
  · rw [hvalue, State.setW_get_same, State.setW_get_other _ wd kd _ hne, State.setW_get_same, map_crndOf_range,
      State.setW_get_same, cipher]
  · exact (((Frame.refl _ s).setW kd _ (by simp)).setW wd _ (by simp)).trans frame

/-! ## Montgomery reduction (40_field R129) -/

section
variable {m m' T R : Nat}

/-- The multiple of `m` that reduction adds makes the sum divisible by `R`: `m' * m` is `-1` modulo `R`. -/
theorem dvd_add_redc (hR : 0 < R) (hinv : m * m' % R = R - 1) : R ∣ T + T % R * m' % R * m := by
  have hneg : m * m' + 1 ≡ 0 [MOD R] := by
    rw [Nat.ModEq, Nat.add_mod, hinv, Nat.add_mod_mod, Nat.sub_add_cancel hR, Nat.mod_self, Nat.zero_mod]
  refine (Nat.modEq_zero_iff_dvd).mp ?_
  calc T + T % R * m' % R * m
      ≡ T + T * m' * m [MOD R] :=
        .add_left T (.mul_right m ((Nat.mod_modEq _ R).trans (.mul_right m' (Nat.mod_modEq T R))))
    _ = T * (m * m' + 1) := by ring
    _ ≡ T * 0 [MOD R] := .mul_left T hneg
    _ = 0 := mul_zero T

theorem mul_mod_lt_mul {x y : Nat} (hx : x < m) (hmR : m < R) : x * (y % m) < R * m :=
  Nat.mul_lt_mul'' (hx.trans hmR) (Nat.mod_lt _ hx.pos)

/-- The quotient is below `2·m`, so one subtraction brings it below `m`; times `R` it is congruent to `T`. -/
theorem redc_spec (hinv : m * m' % 2 ^ 512 = 2 ^ 512 - 1) (hT : T < 2 ^ 512 * m) :
    redc m m' T < m ∧ redc m m' T * 2 ^ 512 ≡ T [MOD m] := by
  rw [redc]
  have hR : 0 < 2 ^ 512 := pow_pos two_pos 512
  generalize 2 ^ 512 = R at *
  obtain ⟨t, ht⟩ := dvd_add_redc (T := T) hR hinv
  have hq : T % R * m' % R < R := Nat.mod_lt _ hR
  have hcong : t * R ≡ T [MOD m] := by
    rw [mul_comm, ← ht]
    exact Nat.add_mul_modulus_modEq_iff.mpr rfl
  have hlt : t < 2 * m := by
    have hadd : T % R * m' % R * m ≤ R * m := Nat.mul_le_mul_right m hq.le
    have : R * t < R * (2 * m) := by rw [← ht]; linarith
    exact lt_of_mul_lt_mul_left this (Nat.zero_le R)
  rw [ht, Nat.mul_div_cancel_left t hR]
  split
  · next hle =>
    refine ⟨by omega, Nat.ModEq.trans ?_ hcong⟩
    have hback : t - m + m = t := Nat.sub_add_cancel hle
    calc (t - m) * R ≡ (t - m) * R + R * m [MOD m] := (Nat.add_mul_modulus_modEq_iff.mpr rfl).symm
      _ = (t - m + m) * R := by ring
      _ = t * R := by rw [hback]
  · next hlt => exact ⟨Nat.not_le.mp hlt, hcong⟩

end

/-- Settles O33: each reduction takes one factor `R` away, which the constant `R²` has brought in, and `R` is coprime
to the odd modulus. -/
theorem montgomeryReductionGivesTheProduct : Obligations.MontgomeryReductionGivesTheProduct := by
  unfold Obligations.MontgomeryReductionGivesTheProduct
  intro a b m m' hodd hmR hinv
  have hm : 1 ≤ m := by omega
  refine ⟨fun T hT => redc_spec hinv hT, ?_⟩
  have hpow : (2 : Nat) ^ 1024 = 2 ^ 512 * 2 ^ 512 := by rw [← pow_add]
  have hcoprime : Nat.Coprime m (2 ^ 512) := by
    rw [Nat.coprime_pow_right_iff (by decide), Nat.coprime_two_right, Nat.odd_iff]
    exact hodd
  obtain ⟨hlt1, hcong1⟩ := redc_spec hinv (mul_mod_lt_mul (y := b) (Nat.mod_lt a hm) hmR)
  obtain ⟨hlt2, hcong2⟩ := redc_spec hinv (mul_mod_lt_mul (y := 2 ^ 1024) hlt1 hmR)
  generalize redc m m' (a % m * (b % m)) = x at *
  generalize redc m m' (x * (2 ^ 1024 % m)) = y at *
  have hcong : y ≡ a * b [MOD m] := by
    refine Nat.ModEq.cancel_right_of_coprime hcoprime ?_
    calc y * 2 ^ 512 ≡ x * (2 ^ 1024 % m) [MOD m] := hcong2
      _ ≡ x * 2 ^ 1024 [MOD m] := .mul_left x (Nat.mod_modEq _ m)
      _ = x * 2 ^ 512 * 2 ^ 512 := by rw [hpow, mul_assoc]
      _ ≡ a % m * (b % m) * 2 ^ 512 [MOD m] := .mul_right _ hcong1
      _ ≡ a * b * 2 ^ 512 [MOD m] := .mul_right _ ((Nat.mod_modEq a m).mul (Nat.mod_modEq b m))
  exact Eq.trans hcong.symm (Nat.mod_eq_of_lt hlt2)

end Sys2Proof.Machine

/-!
PROOFS. The views of a wide value (00_scope R11; 20_memory R65), and the hash of a message streamed block by block
(42_hash R235).
-/

namespace Sys2Proof.Machine

/-! ## The views of a wide value (00_scope R11) -/

/-- A value is the integer of its sixty-four bytes. -/
theorem ofBytes_bytesOf (v : Wide) : ofBytes (bytesOf v) = v :=
  eq_of_byteOf_eq fun _ hj => byteOf_ofBytes_map (byteOf v) hj

theorem byteOf_toNat (v : Wide) (k : Nat) : (byteOf v k).toNat = v.toNat / 2 ^ (504 - 8 * k) % 2 ^ 8 := by
  rw [byteOf, BitVec.extractLsb'_toNat, Nat.shiftRight_eq_div_pow]

/-- The integer of `n` bytes from byte `a` on is the field of `8·n` bits that they are. -/
theorem be_byteOf_range (v : Wide) {a n : Nat} (h : a + n ≤ 64) :
    be ((List.range n).map fun i => byteOf v (a + i)) = v.toNat / 2 ^ (512 - 8 * (a + n)) % 2 ^ (8 * n) := by
  induction n with
  | zero => simp [be, Nat.mod_one]
  | succ n ih =>
    have hlast : 504 - 8 * (a + n) = 512 - 8 * (a + (n + 1)) := by omega
    have hrest : 512 - 8 * (a + n) = (512 - 8 * (a + (n + 1))) + 8 := by omega
    have hlen : 8 * (n + 1) = 8 + 8 * n := by omega
    rw [List.range_succ, List.map_append, List.map_singleton, be_append_single, ih (by omega), byteOf_toNat, hlast,
      hrest, pow_add, ← Nat.div_div_eq_div_mul, hlen, pow_add, Nat.mod_mul]
    omega

/-- Settles O53: each view is a field of the value's bits, and so are its bytes together. -/
theorem viewsOfAWideValueAgree : Obligations.ViewsOfAWideValueAgree := by
  unfold Obligations.ViewsOfAWideValueAgree
  refine fun v => ⟨ofBytes_bytesOf v, fun k _ => byteOf_toNat v k, fun k hk => ?_, fun k hk => ?_⟩
  · have hpos : 448 - 64 * k = 512 - 8 * (8 * k + 8) := by omega
    rw [be_byteOf_range v (by omega), wordOf, BitVec.extractLsb'_toNat, Nat.shiftRight_eq_div_pow, hpos]
  · have hpos : 480 - 32 * k = 512 - 8 * (4 * k + 4) := by omega
    rw [be_byteOf_range v (by omega), busWordOf, BitVec.extractLsb'_toNat, Nat.shiftRight_eq_div_pow, hpos]

/-! ## Streaming (42_hash R235) -/

theorem bytesOf_length (v : Wide) : (bytesOf v).length = 64 := by
  simp [bytesOf]

/-- The message of leading bytes and full blocks, the blocks in the order they are fed: the last of the message
first (42_hash R235). -/
def streamed (lead : List Byte) (blocks : List Wide) : List Byte := lead ++ blocks.reverse.flatMap bytesOf

theorem streamed_cons (lead : List Byte) (b : Wide) (blocks : List Wide) :
    streamed lead (b :: blocks) = streamed lead blocks ++ bytesOf b := by
  simp [streamed]

theorem streamed_length (lead : List Byte) (blocks : List Wide) :
    (streamed lead blocks).length = lead.length + 64 * blocks.length := by
  induction blocks with
  | nil => simp [streamed]
  | cons b blocks ih =>
    rw [streamed_cons, List.length_append, ih, bytesOf_length, List.length_cons]
    omega

/-- The accumulator after full blocks, the first of the list absorbed first. -/
def Accum.absorbAll (st : Accum) (blocks : List Wide) : Accum := blocks.foldl (fun st b => st.absorb b 512) st

/-- One block taken, as an equation of functions: applied, the kernel would compare the two accumulators first. -/
theorem hashBlocks_succ_eq (q : Nat) : hashBlocks (q + 1) = fun M st =>
    hashBlocks q (M.take (M.length - 64)) (st.absorb (ofBytes (M.drop (M.length - 64))) 512) := rfl

theorem hashBlocks_succ (q : Nat) (M : List Byte) (st : Accum) : hashBlocks (q + 1) M st =
    hashBlocks q (M.take (M.length - 64)) (st.absorb (ofBytes (M.drop (M.length - 64))) 512) :=
  congrFun₂ (hashBlocks_succ_eq q) M st

/-- `hash512` takes the blocks from the end of the message, in the order they are fed. -/
theorem hashBlocks_streamed (lead : List Byte) (blocks : List Wide) (st : Accum) :
    hashBlocks blocks.length (streamed lead blocks) st = (st.absorbAll blocks, lead) := by
  induction blocks generalizing st with
  | nil => exact Prod.ext rfl (List.append_nil lead)
  | cons b blocks ih =>
    have hlen : (streamed lead (b :: blocks)).length - 64 = (streamed lead blocks).length := by
      rw [streamed_cons, List.length_append, bytesOf_length, Nat.add_sub_cancel]
    rw [List.length_cons, hashBlocks_succ, hlen, streamed_cons, List.take_left, List.drop_left, ofBytes_bytesOf, ih,
      Accum.absorbAll, Accum.absorbAll, List.foldl_cons]

theorem hash512_streamed {lead : List Byte} (blocks : List Wide) (h : lead.length < 64) :
    hash512 (streamed lead blocks) = (Accum.zero.absorbAll blocks).finish lead.length (ofBytes lead) := by
  have hcount : (streamed lead blocks).length / 64 = blocks.length := by
    rw [streamed_length]
    omega
  rw [hash512, hcount, hashBlocks_streamed]

section
variable {s : State}

/-- HBLK on a block the host has loaded absorbs it. -/
theorem hblk_loaded (wm : WDst) (b : Wide) :
    ∃ t, exec (.hblk (.gen wm)) (s.setW wm b) = .next t ∧ t.accum = s.accum.absorb b 512 := by
  refine ⟨_, rfl, ?_⟩
  rw [State.wide_setW, if_pos rfl]
  rfl

theorem feedBlocks_absorbs (wm : WDst) (blocks : List Wide) :
    ∃ u, feedBlocks wm blocks s = .next u ∧ u.accum = s.accum.absorbAll blocks := by
  induction blocks generalizing s with
  | nil => exact ⟨s, rfl, rfl⟩
  | cons b blocks ih =>
    obtain ⟨t, hexec, haccum⟩ := hblk_loaded (s := s) wm b
    obtain ⟨u, hrest, hu⟩ := ih (s := t)
    refine ⟨u, ?_, ?_⟩
    · rw [feedBlocks, hexec]
      exact hrest
    · rw [hu, haccum]
      rfl

/-- HFIN on the leading bytes the host has loaded finishes the computation. -/
theorem hfin_loaded (wd wm : WDst) (n : BitVec 6) (x : Wide) :
    ∃ t, exec (.hfin wd (.gen wm) n) (s.setW wm x) = .next t ∧ t.w[wd] = s.accum.finish n.toNat x ∧ HashZero t := by
  refine ⟨_, rfl, (State.setW_get_same _ wd _).trans ?_, HashZero.zeroHash _⟩
  rw [State.wide_setW, if_pos rfl]
  rfl

end

/-- Settles O52: the blocks fed are absorbed in the order in which `hash512` takes them, and HFIN finishes on the
bytes it leaves. -/
theorem streamingGivesTheHash : Obligations.StreamingGivesTheHash := by
  unfold Obligations.StreamingGivesTheHash
  intro s wd wm lead blocks hlead
  have hcount : (BitVec.ofNat 6 lead.length).toNat = lead.length := by
    rw [BitVec.toNat_ofNat]
    exact Nat.mod_eq_of_lt hlead
  obtain ⟨u, hfeed, haccum⟩ := feedBlocks_absorbs (s := s.zeroHash) wm blocks
  obtain ⟨v, hfin, hvalue, hzero⟩ := hfin_loaded (s := u) wd wm (BitVec.ofNat 6 lead.length) (ofBytes lead)
  refine ⟨s.zeroHash, u, v, rfl, hfeed, hfin, ?_, hzero⟩
  rw [hvalue, hcount, haccum]
  exact (hash512_streamed blocks hlead).symm

end Sys2Proof.Machine
